-- ==== Sys2Proof/Word.lean ====
section
/-! DEFINITION. The word types of FCF (00_scope.md rules R7, R8): every value is an unsigned integer of a stated width,
and a byte string is a finite sequence of bytes. -/

namespace Sys2Proof

/-- An 8-bit unsigned value (R8). -/
abbrev Byte := BitVec 8

/-- A 16-bit value: LEN, DIN_LEN, DOUT_LEN, VOUT, STATUS, a bus header, a CRC. -/
abbrev Half := BitVec 16

/-- A 32-bit word of a message-object header (R55). -/
abbrev Word := BitVec 32

/-- A device address: `ADDR_BITS` = 12 (R25). -/
abbrev Addr := BitVec 12

/-- A 4-bit command code: `CMD_BITS` = 4 (R83). -/
abbrev Cmd := BitVec 4

/-- A byte string (R8), first byte first. -/
abbrev Bytes := List Byte

end Sys2Proof
end

