-- ==== Sys2Proof/Config.lean ====
section
/-! DEFINITION. What is fixed when FCF is built (00_scope.md rule R6): the decided constants, each under its own name,
and the four OPEN parameters as one record that every state carries and no step changes; and the free values. -/

namespace Sys2Proof.Config

/-! ## Decided constants (R6) -/

/-- `MAX_PAYLOAD`: the 64 bytes of FIN.PAYLOAD and FOUT.PAYLOAD. -/
abbrev maxPayload : Nat := 64
/-- `HDR_BYTES`: the message-object header (decision D14). -/
abbrev hdrBytes : Nat := 8
/-- `CMD_READ` (decision D2). -/
abbrev cmdRead : Cmd := 0x3#4
/-- `CMD_WRITE` (decision D2). -/
abbrev cmdWrite : Cmd := 0x2#4
/-- `CMD_READ_CRC` (decision D2). -/
abbrev cmdReadCrc : Cmd := 0xB#4
/-- `CMD_WRITE_CRC` (decision D2). -/
abbrev cmdWriteCrc : Cmd := 0xA#4
/-- The code the target device takes as RESET, which FCF never emits (R85). -/
abbrev cmdReset : Cmd := 0x0#4
/-- `CRC_POLY` (decision D5). -/
abbrev crcPoly : Half := 0x8005#16
/-- `CRC_INIT` (decision D5). -/
abbrev crcInit : Half := 0xFFFF#16
/-- `RAM_LO` (decision D8). -/
abbrev ramLo : Nat := 0x400
/-- `RAM_HI` (decision D8). -/
abbrev ramHi : Nat := 0xBFF
/-- The number of byte addresses of the device address space, `2^ADDR_BITS` (R50). -/
abbrev addrSpace : Nat := 0x1000
/-- `N_MAX` (decision D7). -/
abbrev nMax : Nat := 255
/-- `DUMMY` (decision D11). -/
abbrev dummy : Byte := 0x00#8
/-- `PAD` (decision D18). -/
abbrev pad : Byte := 0x00#8

/-! ## OPEN parameters (R6) -/

/-- An inclusive range of device addresses; a list of them names a set of addresses. -/
structure AddrRange where
  lo : Addr
  hi : Addr
deriving DecidableEq, Repr

/-- The OPEN parameters of R6. "A value marked OPEN is a named parameter; a model takes it as an argument": here the
argument is the `params` field of the state, so a statement about every state is a statement about every binding. -/
structure Params where
  /-- `P_MAX_BURST` (D10). -/
  maxBurst : Nat
  /-- `P_BUF_BYTES` (D35), the capacity of DIN and DOUT. -/
  bufBytes : Nat
  /-- `P_ADDR_VALID` (D9), the union of these ranges. -/
  addrValid : List AddrRange
  /-- `P_SAFE_CMD` (D3); `none` while it is unbound. -/
  safeCmd : Option Cmd
deriving DecidableEq, Repr

/-- The binding of 95_test_vectors.md section 1.1, which `State.reset` carries (DESIGN CHOICE, log entry 3: R6 leaves
`P_MAX_BURST` and `P_BUF_BYTES` OPEN; all addresses is R6's default; `P_SAFE_CMD` is unbound). -/
def testBinding : Params :=
  { maxBurst := 1024, bufBytes := 1024, addrValid := [⟨0x000#12, 0xFFF#12⟩], safeCmd := none }

/-! ## The free values -/

/-- FREE VALUE: the byte of DIN at an index that nothing has written since reset. R40 calls it unspecified, so it has no body
and no claim can see what it is (log entry 24). -/
opaque freeDinByte : Nat → Byte

/-- FREE VALUE: the same for FIN.PAYLOAD. -/
opaque freePayloadByte : Nat → Byte

end Sys2Proof.Config
end

