-- ==== Sys2Proof/Machine/State.lean ====
section
/-! DEFINITION. The state of FCF as plain data (10_state.md): the interface registers, STATUS, PHASE with the latched
request, and, as the model's own fields, the build parameters, which inputs the host has written, the link to the
transport and the queue of events from outside. -/

namespace Sys2Proof.Machine

/-! ## Byte buffers -/

/-- A byte buffer (DIN, FIN.PAYLOAD): the bytes the host has written, by index, indexes strictly rising. An index that is
not listed has not been written since reset: its byte is unspecified (R40), and a REQ that reads it makes the run not final
(R263, 93_implementation_defined.md I11; log entries 5, 7 and 24). -/
abbrev Memory := List Host.Cell

/-! ## Frames (R27, R32, R37) -/

/-- The kind of an identifier: FIN.KIND and IDE, 0 = standard, 1 = extended (R27). -/
inductive Kind where
  | std
  | ext
deriving DecidableEq, Repr

/-- The header fields of a frame (R27, R37). -/
structure FrameHeader where
  kind : Kind
  id : BitVec 29
  dlc : BitVec 4
  rtr : Bool
  fdf : Bool
  brs : Bool
  esi : Bool
deriving DecidableEq, Repr

/-- The frame input register FIN (R27): PLEN is a field of its own, which may differ from DLC_LEN(DLC) (R37). -/
structure FinReg where
  hdr : FrameHeader
  payload : Memory
  plen : BitVec 7
deriving DecidableEq, Repr

/-- The value of the frame output register FOUT (R32). `payload` holds the bytes below PLEN; the bytes of FOUT.PAYLOAD
beyond PLEN hold no value (R190). -/
structure FoutReg where
  hdr : FrameHeader
  payload : Bytes
  plen : BitVec 7
deriving DecidableEq, Repr

/-- The value of DOUT with DOUT_LEN (R30). -/
structure DoutReg where
  bytes : Bytes
  len : Half
deriving DecidableEq, Repr

/-- The output registers DOUT (with DOUT_LEN), FOUT and VOUT. Each "holds either a value or *no value*" (R34). -/
structure Outputs where
  dout : Option DoutReg
  fout : Option FoutReg
  vout : Option Half
deriving DecidableEq, Repr

/-- Every output holds no value. -/
def Outputs.noValue : Outputs := { dout := none, fout := none, vout := none }

/-! ## Result and reason (R231, R232). Only the pairs R232 lists have a constructor (I7). -/

inductive BusReason where
  | transport
  | rxLength
deriving DecidableEq, Repr

inductive FrameReason where
  | tooShort
  | sid11Set
  | stdIdRange
  | rtrWithFdf
  | classicBrsEsi
  | classicDlcGt8
  | length
deriving DecidableEq, Repr

inductive ContractReason where
  | bufRange
  | lenZero
  | lenBurst
  | addrRange
  | regionStraddle
  | ramAlign
  | nRange
deriving DecidableEq, Repr

inductive UnsupportedReason where
  | reservedOp
  | safeCmdUnbound
deriving DecidableEq, Repr

/-- A (RESULT, REASON) pair other than OK. -/
inductive ErrorCode where
  /-- BUS_ERROR -/
  | busError (r : BusReason)
  /-- INTEGRITY_ERROR(CRC_MISMATCH) -/
  | integrityError
  /-- INVALID_FRAME -/
  | invalidFrame (r : FrameReason)
  /-- CONTRACT_VIOLATION -/
  | contractViolation (r : ContractReason)
  /-- LENGTH_MISMATCH(RX_LENGTH) -/
  | lengthMismatch
  /-- UNSUPPORTED -/
  | unsupported (r : UnsupportedReason)
deriving DecidableEq, Repr

/-- How an operation ended. -/
inductive Completion where
  | ok
  | error (e : ErrorCode)
deriving DecidableEq, Repr

/-- STATUS (R31). `last` is RESULT with REASON, `none` until the first operation completes (R40). The reserved bits are
no state: they read 0. -/
structure Status where
  busy : Bool
  done : Bool
  last : Option Completion
deriving DecidableEq, Repr

/-! ## PHASE (R35) and the latched request (R36) -/

/-- What FCF copies when it accepts REQ (R36). -/
structure Request where
  op : BitVec 4
  addr : Addr
  len : Half
  fin : FinReg
  din : Memory
  dinLen : Half
deriving DecidableEq, Repr

/-- How far a Busy operation has come (R130): the operation is still to run, or its command and contract checks have
passed and the wire command with this header is being carried out. -/
inductive Stage where
  | operation
  | command (h : Half)
deriving DecidableEq, Repr

/-- PHASE: Idle, or Busy with the latched request. -/
inductive Phase where
  | idle
  | busy (q : Request) (stage : Stage)
deriving DecidableEq, Repr

/-! ## The link to the transport (R132) -/

/-- What the transport answers to an Exchange: the bytes received, or Err. -/
inductive Answer where
  | ok (rx : Bytes)
  | err
deriving DecidableEq, Repr

/-- The interface to the transport: the transaction outstanding there (R35), the answer once it has come, and every
transaction FCF has handed over since power-on, newest first (the model's own record of FCF's output). -/
structure Link where
  outstanding : Option Bytes
  reply : Option Answer
  sent : List Bytes
deriving DecidableEq, Repr

/-! ## The host's side (R5, R38) -/

/-- The input registers and fields, by name (R24 to R28). -/
inductive InputReg where
  | op
  | addr
  | len
  | dinLen
  | din
  | kind
  | id
  | dlc
  | rtr
  | fdf
  | brs
  | esi
  | payload
  | plen
deriving DecidableEq, Repr

/-- A host write to an input register: every field is exactly its stated width (R38). -/
inductive InputWrite where
  | op (v : BitVec 4)
  | addr (v : Addr)
  | len (v : Half)
  | dinLen (v : Half)
  | din (i : Nat) (b : Byte)
  | kind (v : Kind)
  | id (v : BitVec 29)
  | dlc (v : BitVec 4)
  | rtr (v : Bool)
  | fdf (v : Bool)
  | brs (v : Bool)
  | esi (v : Bool)
  | payload (i : BitVec 6) (b : Byte)
  | plen (v : BitVec 7)
deriving DecidableEq, Repr

/-- The output registers, as targets of a host write, which is ignored (R38). -/
inductive OutputReg where
  | status
  | dout
  | doutLen
  | fout
  | vout
deriving DecidableEq, Repr

/-- What a host read names. R38 gives no access width (DESIGN CHOICE, log entry 20): the seven header fields of FOUT are one
read, FOUT.PLEN, DOUT_LEN and VOUT one each, and DOUT and FOUT.PAYLOAD are read a byte at a time. STATUS can be read whole, or
its bits 1:0 alone, which read 00 after reset, while RESULT and REASON hold no value (DESIGN CHOICE, log entry 16). -/
inductive OutputRead where
  | statusFlags
  | status
  | doutLen
  | dout (i : Nat)
  | foutHeader
  | foutPlen
  | foutPayload (i : BitVec 6)
  | vout
deriving DecidableEq, Repr

/-- What a host read delivers. -/
inductive HostValue where
  | flags (v : BitVec 2)
  | half (v : Half)
  | byte (v : Byte)
  | header (h : FrameHeader)
  | plen (v : BitVec 7)
deriving DecidableEq, Repr

/-- An event of the queue of events from outside. `fcf` is no event: it says that FCF makes the next move. -/
inductive Event where
  /-- FCF moves. -/
  | fcf
  /-- The host writes an input register. -/
  | write (w : InputWrite)
  /-- The host raises REQ (R29). -/
  | req
  /-- The host reads an output register. -/
  | read (r : OutputRead)
  /-- The host writes an output register, which is ignored (R31, R38). -/
  | writeOutput (r : OutputReg) (v : Half)
  /-- The transport answers the outstanding Exchange (R132). -/
  | answer (a : Answer)
  /-- Reset (R260, R261). -/
  | reset
deriving DecidableEq, Repr

/-! ## Faults and refusals -/

/-- Why the machine stops. -/
inductive Fault where
  /-- The host writes a byte of DIN at or above its capacity `P_BUF_BYTES` (R28): there is no such byte. Raised by a host
  write. Safe. -/
  | noSuchByte (i : Nat)
  /-- The command stage holds a header whose code is 0x0, which FCF never emits (R85). No run reaches it
  (`Sys2Proof.EmitsOnlyItsCommands`). Raised by `step`. Safe. -/
  | noSuchCommand (h : Half)
deriving DecidableEq, Repr

/-- Why an instruction has no meaning here. -/
inductive Refusal where
  /-- An instruction of the table that has not been given its meaning. Raised by no arm of `exec`: every row has its
  meaning. Safe. -/
  | notModelled (mnemonic : String)
deriving DecidableEq, Repr

/-! ## The state -/

structure State where
  /-- The OPEN parameters (R6), fixed when FCF is built (R262). -/
  params : Config.Params
  /-- OP (R24). -/
  op : BitVec 4
  /-- ADDR (R25). -/
  addr : Addr
  /-- LEN (R26). -/
  len : Half
  /-- FIN (R27). -/
  fin : FinReg
  /-- DIN (R28). -/
  din : Memory
  /-- DIN_LEN (R28). -/
  dinLen : Half
  /-- REQ, pending until FCF accepts it (R29, R264). -/
  req : Bool
  /-- The model's own: the registers, buffers apart, that the host has written since reset (R263), no repeats. -/
  written : List InputReg
  /-- PHASE (R35), with the latched request (R36). -/
  phase : Phase
  /-- STATUS (R31). -/
  status : Status
  /-- DOUT, DOUT_LEN, FOUT, VOUT (R30, R32, R33). -/
  out : Outputs
  /-- The transport interface (R132). -/
  link : Link
  /-- The model's own: the events from outside still to come, first one first. -/
  inbox : List Event
  /-- The model's own: what the host's last read delivered, nothing where the output held no value (R34; log entry 25). -/
  hostData : Option HostValue
  /-- The model's own: the run so far is final, which it is until a request violates a contract (R143, R243, I18; log
  entry 1) or reads an input nothing has written (R263, I11; log entry 7), or the host reads an output that holds no value
  (R34, I9, I10; log entry 25). -/
  runFinal : Bool
deriving DecidableEq, Repr

/-- The header FIN holds after reset: R40 calls it unspecified; zero is the model's choice (log entry 4). -/
def FrameHeader.zero : FrameHeader :=
  { kind := .std, id := 0#29, dlc := 0#4, rtr := false, fdf := false, brs := false, esi := false }

/-- The machine right after reset (R40, R260). The input registers are "unspecified" there: zero is the model's choice
(DESIGN CHOICE, log entry 4), and a request that reads one before the host has written it makes the run not final (R263, log
entry 7). The parameters are the test binding (DESIGN CHOICE, log entry 3). -/
def State.reset : State :=
  { params := Config.testBinding
    op := 0#4
    addr := 0#12
    len := 0#16
    fin := { hdr := FrameHeader.zero, payload := [], plen := 0#7 }
    din := []
    dinLen := 0#16
    req := false
    written := []
    phase := .idle
    status := { busy := false, done := false, last := none }
    out := Outputs.noValue
    link := { outstanding := none, reply := none, sent := [] }
    inbox := []
    hostData := none
    runFinal := true }

end Sys2Proof.Machine
end

