-- ==== Sys2Proof/Machine/Flags.lean ====
section
/-! DEFINITION. STATUS (10_state.md R31): the numeric RESULT and REASON codes (60_exceptions.md R231, R232) and the word
the host reads; and how a model treats each result (60_exceptions.md R243). FCF has no condition codes (R23); STATUS is all
it reports. -/

namespace Sys2Proof.Machine

/-- The RESULT code (R231). -/
def resultCode : Completion → BitVec 4
  | .ok => 0x0#4
  | .error (.busError _) => 0x1#4
  | .error .integrityError => 0x2#4
  | .error (.invalidFrame _) => 0x3#4
  | .error (.contractViolation _) => 0x4#4
  | .error .lengthMismatch => 0x5#4
  | .error (.unsupported _) => 0x6#4

/-- The REASON code (R232); 0 when RESULT = OK. -/
def reasonCode : Completion → BitVec 4
  | .ok => 0x0#4
  | .error (.busError .transport) => 0x1#4
  | .error (.busError .rxLength) => 0x2#4
  | .error .integrityError => 0x1#4
  | .error (.invalidFrame .tooShort) => 0x1#4
  | .error (.invalidFrame .sid11Set) => 0x2#4
  | .error (.invalidFrame .stdIdRange) => 0x3#4
  | .error (.invalidFrame .rtrWithFdf) => 0x4#4
  | .error (.invalidFrame .classicBrsEsi) => 0x5#4
  | .error (.invalidFrame .classicDlcGt8) => 0x6#4
  | .error (.invalidFrame .length) => 0x7#4
  | .error (.contractViolation .bufRange) => 0x1#4
  | .error (.contractViolation .lenZero) => 0x2#4
  | .error (.contractViolation .lenBurst) => 0x3#4
  | .error (.contractViolation .addrRange) => 0x4#4
  | .error (.contractViolation .regionStraddle) => 0x5#4
  | .error (.contractViolation .ramAlign) => 0x6#4
  | .error (.contractViolation .nRange) => 0x7#4
  | .error .lengthMismatch => 0x2#4
  | .error (.unsupported .reservedOp) => 0x1#4
  | .error (.unsupported .safeCmdUnbound) => 0x2#4

/-- STATUS bits 1:0, DONE and BUSY. They have a value in every state. -/
def Status.flags (st : Status) : BitVec 2 := BitVec.ofBool st.done ++ BitVec.ofBool st.busy

/-- STATUS with a RESULT and REASON: BUSY in bit 0, DONE in bit 1, RESULT in bits 7:4, REASON in bits 11:8, the reserved
bits 3:2 and 15:12 reading 0 (R31, I8). -/
def statusWord (flags : BitVec 2) (c : Completion) : Half :=
  flags.setWidth 16 ||| ((resultCode c).setWidth 16 <<< 4) ||| ((reasonCode c).setWidth 16 <<< 8)

/-- STATUS as a whole word; no value until the first operation completes, because RESULT and REASON have none (R31, R40). -/
def Status.word (st : Status) : Option Half :=
  match st.last with
  | none => none
  | some c => some (statusWord st.flags c)

/-! ## How a model treats a result (R243) -/

inductive Treatment where
  | value
  | fault
  | refusal
deriving DecidableEq, Repr

/-- R243's table. A completion that is a fault makes the run not final (R143); one that is a refusal is the operation
completing "with a refusal result and no effect" (93_implementation_defined.md). -/
def treatment : Completion → Treatment
  | .ok => .value
  | .error (.busError _) => .value
  | .error .integrityError => .value
  | .error (.invalidFrame _) => .value
  | .error .lengthMismatch => .value
  | .error (.contractViolation _) => .fault
  | .error (.unsupported _) => .refusal

end Sys2Proof.Machine
end

