-- ==== Sys2Proof/Syntax.lean ====
section
/-! DEFINITION. The whole instruction set of FCF: one constructor per row of spec/opcode_table.json. The nine operations
and the seven reserved codes are selected by the 4-bit OP (30_encoding.md R81, R82) and take their operands from the
latched request (R95), so they carry none. The five wire commands are the 16-bit headers FCF emits (R83, R84); each
carries its 12-bit address, and the safe variant also its command code, which R6 leaves OPEN. -/

namespace Sys2Proof

inductive Instr where
  /-- ENCODE (OP 0x1, R189). -/
  | frameEncode
  /-- DECODE (OP 0x2, R190). -/
  | frameDecode
  /-- DLC_TO_LEN (OP 0x3, R181). -/
  | dlcToLen
  /-- CRC16 (OP 0x4, R113). -/
  | crc16
  /-- READ (OP 0x8, R135). -/
  | read
  /-- WRITE (OP 0x9, R136). -/
  | write
  /-- READ_CRC (OP 0xA, R137). -/
  | readCrc
  /-- WRITE_CRC (OP 0xB, R138). -/
  | writeCrc
  /-- SAFE_READ_CRC (OP 0xC, R139). -/
  | safeReadCrc
  /-- The reserved OP 0x0 (R82). -/
  | reservedOp0
  /-- The reserved OP 0x5 (R82). -/
  | reservedOp5
  /-- The reserved OP 0x6 (R82). -/
  | reservedOp6
  /-- The reserved OP 0x7 (R82). -/
  | reservedOp7
  /-- The reserved OP 0xD (R82). -/
  | reservedOpD
  /-- The reserved OP 0xE (R82). -/
  | reservedOpE
  /-- The reserved OP 0xF (R82). -/
  | reservedOpF
  /-- The wire command READ at address `a`, format PLAIN_RD (R86). -/
  | wireRead (a : Addr)
  /-- The wire command WRITE at address `a`, format PLAIN_WR (R87). -/
  | wireWrite (a : Addr)
  /-- The wire command READ_CRC at address `a`, format CRC_RD (R88). -/
  | wireReadCrc (a : Addr)
  /-- The wire command WRITE_CRC at address `a`, format CRC_WR (R90). -/
  | wireWriteCrc (a : Addr)
  /-- The wire command SAFE_READ_CRC with code `c` = `P_SAFE_CMD` at address `a`, format CRC_RD (R88, decision D3). -/
  | wireSafeReadCrc (c : Cmd) (a : Addr)
deriving DecidableEq, Repr

end Sys2Proof
end

