-- ==== Sys2Proof/WellFormed.lean ====
section
/-! DEFINITION. Which instructions and which parameter bindings are well formed (00_scope.md R6, 30_encoding.md R84). -/

namespace Sys2Proof

/-- `P_SAFE_CMD` is "distinct from the four above and from 0x0" (R6). -/
def isSafeCode (c : Cmd) : Bool :=
  c != Config.cmdReset && c != Config.cmdRead && c != Config.cmdWrite && c != Config.cmdReadCrc && c != Config.cmdWriteCrc

/-- An instruction is well formed when its fields are ones its row admits. The only field with a limit is the code of the
safe variant's header. -/
def Instr.wellFormed : Instr → Bool
  | .frameEncode | .frameDecode | .dlcToLen | .crc16 => true
  | .read | .write | .readCrc | .writeCrc | .safeReadCrc => true
  | .reservedOp0 | .reservedOp5 | .reservedOp6 | .reservedOp7 | .reservedOpD | .reservedOpE | .reservedOpF => true
  | .wireRead _ | .wireWrite _ | .wireReadCrc _ | .wireWriteCrc _ => true
  | .wireSafeReadCrc c _ => isSafeCode c

/-- A binding of the OPEN parameters within the bounds of R6: `1 <= P_MAX_BURST <= P_BUF_BYTES`, `P_BUF_BYTES >= 72`, and
a bound `P_SAFE_CMD` distinct from the four fixed codes and from 0x0. -/
def Config.Params.wellFormed (p : Config.Params) : Bool :=
  decide (1 ≤ p.maxBurst) && decide (p.maxBurst ≤ p.bufBytes) && decide (72 ≤ p.bufBytes) &&
    (match p.safeCmd with
     | none => true
     | some c => isSafeCode c)

end Sys2Proof
end

