-- ==== Sys2Proof/Decode.lean ====
section
/-! DEFINITION. The decoder and the encoder of FCF's two encodings (30_encoding.md): the operation select OPSEL (R81, R82)
and the 16-bit bus command header HDR (R83, R84). Both are read from bytes; the decoder is total and rejects by name. -/

namespace Sys2Proof

/-! ## Byte order of a 16-bit wire value (R8, R83, R91) -/

/-- `be16`: most significant byte first. -/
def be16 (h : Half) : Bytes := [h.extractLsb' 8 8, h.extractLsb' 0 8]

/-- `from_be16` on the two bytes of a 2-byte string. -/
def fromBe16 (hi lo : Byte) : Half := (hi.setWidth 16 <<< 8) ||| lo.setWidth 16

/-! ## The header (R83) -/

/-- `H = (C << 12) | A`. -/
def header (c : Cmd) (a : Addr) : Half := (c.setWidth 16 <<< 12) ||| a.setWidth 16

/-- The field C, bits 15:12. -/
def headerCmd (h : Half) : Cmd := h.extractLsb' 12 4

/-- The field A, bits 11:0. -/
def headerAddr (h : Half) : Addr := h.extractLsb' 0 12

/-! ## Formats and rejections -/

/-- The two encodings FCF decodes an instruction from (R80): OPSEL, one byte whose low four bits are OP, and HDR, two
bytes on the wire. -/
inductive Format where
  | opsel
  | hdr
deriving DecidableEq, Repr

/-- Why a byte string is no instruction. -/
inductive Reject where
  /-- Fewer bytes than the format has. -/
  | tooFewBytes
  /-- An OPSEL byte above 0x0F: OP is 4 bits wide, so no such value can be stored (R24, R38). -/
  | opTooWide
  /-- A header whose command code is 0x0, the target device's RESET, which FCF never emits (R85). -/
  | resetCommand
deriving DecidableEq, Repr

/-! ## Decoding -/

/-- The operation OP selects (R81, R82). Every 4-bit value is a row of the table. -/
def decodeOp (op : BitVec 4) : Instr :=
  match op.toNat with
  | 0x0 => .reservedOp0
  | 0x1 => .frameEncode
  | 0x2 => .frameDecode
  | 0x3 => .dlcToLen
  | 0x4 => .crc16
  | 0x5 => .reservedOp5
  | 0x6 => .reservedOp6
  | 0x7 => .reservedOp7
  | 0x8 => .read
  | 0x9 => .write
  | 0xA => .readCrc
  | 0xB => .writeCrc
  | 0xC => .safeReadCrc
  | 0xD => .reservedOpD
  | 0xE => .reservedOpE
  | _ => .reservedOpF

/-- The wire command a header carries (R83, R84). A code other than the four fixed ones and 0x0 can only be `P_SAFE_CMD`,
whose value R6 leaves OPEN; that the code FCF emits is the bound one is `exec`'s doing (R85, R139). -/
def decodeHeader (h : Half) : Except Reject Instr :=
  if headerCmd h = Config.cmdReset then .error .resetCommand
  else if headerCmd h = Config.cmdRead then .ok (.wireRead (headerAddr h))
  else if headerCmd h = Config.cmdWrite then .ok (.wireWrite (headerAddr h))
  else if headerCmd h = Config.cmdReadCrc then .ok (.wireReadCrc (headerAddr h))
  else if headerCmd h = Config.cmdWriteCrc then .ok (.wireWriteCrc (headerAddr h))
  else .ok (.wireSafeReadCrc (headerCmd h) (headerAddr h))

/-- The decoder, total on any bytes of either format: the instruction and the bytes after it, or why there is none. -/
def decode (f : Format) (bs : Bytes) : Except Reject (Instr × Bytes) :=
  match f, bs with
  | .opsel, b :: rest =>
    if b.toNat < 16 then .ok (decodeOp (b.setWidth 4), rest) else .error .opTooWide
  | .hdr, hi :: lo :: rest =>
    match decodeHeader (fromBe16 hi lo) with
    | .ok i => .ok (i, rest)
    | .error e => .error e
  | _, _ => .error .tooFewBytes

/-! ## Encoding -/

/-- The OP code of an operation (R81, R82), and the header of a wire command (R83, R84). -/
def encode : Instr → Format × Bytes
  | .reservedOp0 => (.opsel, [0x00#8])
  | .frameEncode => (.opsel, [0x01#8])
  | .frameDecode => (.opsel, [0x02#8])
  | .dlcToLen => (.opsel, [0x03#8])
  | .crc16 => (.opsel, [0x04#8])
  | .reservedOp5 => (.opsel, [0x05#8])
  | .reservedOp6 => (.opsel, [0x06#8])
  | .reservedOp7 => (.opsel, [0x07#8])
  | .read => (.opsel, [0x08#8])
  | .write => (.opsel, [0x09#8])
  | .readCrc => (.opsel, [0x0A#8])
  | .writeCrc => (.opsel, [0x0B#8])
  | .safeReadCrc => (.opsel, [0x0C#8])
  | .reservedOpD => (.opsel, [0x0D#8])
  | .reservedOpE => (.opsel, [0x0E#8])
  | .reservedOpF => (.opsel, [0x0F#8])
  | .wireRead a => (.hdr, be16 (header Config.cmdRead a))
  | .wireWrite a => (.hdr, be16 (header Config.cmdWrite a))
  | .wireReadCrc a => (.hdr, be16 (header Config.cmdReadCrc a))
  | .wireWriteCrc a => (.hdr, be16 (header Config.cmdWriteCrc a))
  | .wireSafeReadCrc c a => (.hdr, be16 (header c a))

/-! ## The opcode table's words -/

/-- The instruction the decoder reads from a table word: a row of at most 8 bits is an OPSEL byte, a row of up to 16 bits
is a bus header, laid out most significant byte first as it goes on the wire (R83). -/
def decodeTableWord (nbits w : Nat) : Option Instr :=
  let r :=
    if nbits ≤ 8 then (if w < 256 then decode .opsel [BitVec.ofNat 8 w] else .error .opTooWide)
    else if nbits ≤ 16 ∧ w < 65536 then decode .hdr (be16 (BitVec.ofNat 16 w))
    else .error .tooFewBytes
  match r with
  | .ok (i, _) => some i
  | .error _ => none

end Sys2Proof
end

