-- ==== Sys2Proof/Machine/Operands.lean ====
section
/-! DEFINITION. The operands of the operations: byte buffers, the latched request (10_state.md R36) and which input
registers an operation reads (30_encoding.md R95, 70_reset_and_hazards.md R263). -/

namespace Sys2Proof.Machine

/-! ## Byte buffers -/

/-- The canonical form of a buffer: indexes strictly rising. An unlisted index reads as none (`Memory.read`),
which no listed byte equals. -/
def Memory.wf : Memory → Bool
  | [] => true
  | [_] => true
  | (i, _) :: (j, c) :: m => decide (i < j) && Memory.wf ((j, c) :: m)

/-- The byte at index `i`; none where nothing has been written. -/
def Memory.read : Memory → Nat → Option Byte
  | [], _ => none
  | (j, b) :: m, i => if i = j then some b else Memory.read m i

/-- Writes the byte at index `i`, keeping the canonical form. -/
def Memory.write : Memory → Nat → Byte → Memory
  | [], i, b => [(i, b)]
  | (j, c) :: m, i, b =>
    if i < j then (i, b) :: (j, c) :: m
    else if i = j then (i, b) :: m
    else (j, c) :: Memory.write m i b

/-- The `n` bytes from index `i` on, if every one of them has been written. -/
def Memory.bytesFrom (m : Memory) (i : Nat) : Nat → Option Bytes
  | 0 => some []
  | n + 1 =>
    match m.read i, Memory.bytesFrom m (i + 1) n with
    | some b, some bs => some (b :: bs)
    | _, _ => none

/-- The slice `[0..n)`, if every byte of it has been written. -/
def Memory.bytes (m : Memory) (n : Nat) : Option Bytes := m.bytesFrom 0 n

/-- The byte at index `i` as an operation reads it: what the host has written, or the free value (R40, log entry 24). -/
def Memory.byteAt (free : Nat → Byte) (m : Memory) (i : Nat) : Byte := (m.read i).getD (free i)

/-- The slice `[0..n)` as an operation reads it. -/
def Memory.slice (free : Nat → Byte) (m : Memory) (n : Nat) : Bytes := (List.range n).map (m.byteAt free)

/-! ## The latched request (R36) -/

/-- The copy FCF takes of its input registers. -/
def State.snapshot (s : State) : Request :=
  { op := s.op, addr := s.addr, len := s.len, fin := s.fin, din := s.din, dinLen := s.dinLen }

/-- The request an operation reads: the latched copy, or, while PHASE = Idle and nothing is latched, the copy FCF would
take now. The operation reads nothing else of the input registers (R36). -/
def State.request (s : State) : Request :=
  match s.phase with
  | .idle => s.snapshot
  | .busy q _ => q

/-- The count `n` of READ, READ_CRC and SAFE_READ_CRC (R58). -/
abbrev Request.readCount (q : Request) : Nat := q.len.toNat

/-- The count `n` of WRITE and WRITE_CRC, and the length of CRC16's and DECODE's input (R28, R58). -/
abbrev Request.dataCount (q : Request) : Nat := q.dinLen.toNat

/-- DIN[0..DIN_LEN). -/
def Request.data (q : Request) : Bytes := q.din.slice Config.freeDinByte q.dataCount

/-- FIN.PAYLOAD[0..FIN.PLEN). -/
def Request.payload (q : Request) : Bytes := q.fin.payload.slice Config.freePayloadByte q.fin.plen.toNat

/-! ## Which inputs an operation reads (R95) -/

/-- The fields of FIN other than the payload bytes. -/
def finFields : List InputReg := [.kind, .id, .dlc, .rtr, .fdf, .brs, .esi, .plen]

/-- The input registers, buffers apart, that the operation reads beside OP (R95). The wire commands read none: they are
no operations. -/
def registersRead : Instr → List InputReg
  | .frameEncode => finFields
  | .frameDecode => [.dinLen]
  | .dlcToLen => [.dlc]
  | .crc16 => [.dinLen]
  | .read => [.addr, .len]
  | .write => [.addr, .dinLen]
  | .readCrc => [.addr, .len]
  | .writeCrc => [.addr, .dinLen]
  | .safeReadCrc => [.addr, .len]
  | .reservedOp0 => []
  | .reservedOp5 => []
  | .reservedOp6 => []
  | .reservedOp7 => []
  | .reservedOpD => []
  | .reservedOpE => []
  | .reservedOpF => []
  | .wireRead _ => []
  | .wireWrite _ => []
  | .wireReadCrc _ => []
  | .wireWriteCrc _ => []
  | .wireSafeReadCrc _ _ => []

/-- Whether the operation reads DIN[0..DIN_LEN) (R95). -/
def readsDin : Instr → Bool
  | .frameDecode => true
  | .crc16 => true
  | .write => true
  | .writeCrc => true
  | _ => false

/-- Whether the operation reads FIN.PAYLOAD[0..FIN.PLEN) (R95). -/
def readsPayload : Instr → Bool
  | .frameEncode => true
  | _ => false

/-- The first input register that operation `i` reads and the host has not written since reset, if there is one (R263).
DIN is looked at below DIN_LEN and FIN.PAYLOAD below FIN.PLEN, and not where a length above the buffer's capacity makes
the operation end before it reads a byte (R113, R131, R189, R190). -/
def missingInput (i : Instr) (s : State) : Option InputReg :=
  match (InputReg.op :: registersRead i).find? (fun r => !s.written.contains r) with
  | some r => some r
  | none =>
    if readsDin i && decide (s.dinLen.toNat ≤ s.params.bufBytes) && (s.din.bytes s.dinLen.toNat).isNone then some .din
    else if readsPayload i && decide (s.fin.plen.toNat ≤ Config.maxPayload) &&
        (s.fin.payload.bytes s.fin.plen.toNat).isNone then some .payload
    else none

end Sys2Proof.Machine
end

