-- ==== Sys2Proof/Machine/Ops.lean ====
section
/-! DEFINITION. The shared operations of the machine: accepting a request, completing an operation with or without an
error (60_exceptions.md R230, R235), the checks of a bus transaction (41_bus_transactions.md R131), handing a transaction
to the transport and taking its answer (R132, R133), and reset. -/

namespace Sys2Proof.Machine

/-! ## Acceptance and completion -/

/-- Acceptance of REQ (R29): latch the inputs, PHASE <- Busy, BUSY <- 1, DONE <- 0. REQ is no longer pending. A request that
reads an input nothing has written is a fault (R263, I11): the run is not final from then on (log entry 7). -/
def accept (s : State) : State :=
  { s with
    phase := .busy s.snapshot .operation
    req := false
    status := { s.status with busy := true, done := false }
    runFinal := s.runFinal && (missingInput (decodeOp s.op) s).isNone }

/-- Completion, all in one step (R29): RESULT and REASON, DONE <- 1, BUSY <- 0, PHASE <- Idle; every output is written
(R34). The Exchange, if there was one, is over. A result that R243 has a model treat as a fault, CONTRACT_VIOLATION, makes the
run not final (R143, I18; log entry 1). -/
def complete (c : Completion) (o : Outputs) (s : State) : State :=
  { s with
    phase := .idle
    status := { busy := false, done := true, last := some c }
    out := o
    link := { s.link with outstanding := none, reply := none }
    runFinal := s.runFinal && treatment c != .fault }

/-- `complete()` (R9): RESULT = OK, REASON = 0, with the outputs the operation writes. -/
def completeOk (o : Outputs) (s : State) : State := complete .ok o s

/-- `raise <Result>(<Reason>)` (R9), FCF's only "trap entry" (R235): the completion with an error. Every output holds no
value; no state is saved, no handler address is taken and no mode is changed. There is no return from it (R237): the next
accepted REQ starts from PHASE = Idle. -/
def raise (e : ErrorCode) (s : State) : State := complete (.error e) Outputs.noValue s

/-- DOUT <- the bytes, DOUT_LEN <- their number; FOUT and VOUT hold no value (R34). -/
def Outputs.ofDout (bs : Bytes) : Outputs :=
  { dout := some { bytes := bs, len := BitVec.ofNat 16 bs.length }, fout := none, vout := none }

/-- FOUT <- the frame; DOUT and VOUT hold no value (R34). -/
def Outputs.ofFout (f : FoutReg) : Outputs := { dout := none, fout := some f, vout := none }

/-- VOUT <- the value; DOUT and FOUT hold no value (R34). -/
def Outputs.ofVout (v : Half) : Outputs := { dout := none, fout := none, vout := some v }

/-! ## The device address space (20_memory.md) -/

/-- `a` is in `P_ADDR_VALID` (R52). -/
def addrValid (p : Config.Params) (a : Nat) : Bool :=
  p.addrValid.any (fun r => decide (r.lo.toNat ≤ a) && decide (a ≤ r.hi.toNat))

inductive Region where
  | ram
  | sfr
  | straddle
deriving DecidableEq, Repr

/-- `Region(a, n)` for n >= 1 (R53). -/
def region (a n : Nat) : Region :=
  if Config.ramLo ≤ a ∧ a + n - 1 ≤ Config.ramHi then .ram
  else if a + n - 1 < Config.ramLo ∨ a > Config.ramHi then .sfr
  else .straddle

/-- The transaction is in range (R52): it does not run past the top of the address space, and every address of it is in
`P_ADDR_VALID`. -/
def inRange (p : Config.Params) (a n : Nat) : Bool :=
  decide (a + n ≤ Config.addrSpace) && (List.range n).all (fun i => addrValid p (a + i))

/-- The length N of a CRC transaction as a number: words in the RAM region, bytes in the SFR region (R89). -/
def unitCount (a n : Nat) : Nat := if region a n = .ram then n / 4 else n

/-- The length byte N (R89). -/
def lengthField (a : Addr) (n : Nat) : Byte := BitVec.ofNat 8 (unitCount a.toNat n)

/-- `CheckXact(a, n, withN)` (R131): the first check that fails, in the order of the rule, or none. -/
def checkXact (p : Config.Params) (a : Addr) (n : Nat) (withN : Bool) : Option ContractReason :=
  if n = 0 then some .lenZero
  else if n > p.maxBurst then some .lenBurst
  else if inRange p a.toNat n = false then some .addrRange
  else if region a.toNat n = .straddle then some .regionStraddle
  else if region a.toNat n = .ram ∧ (a.toNat % 4 ≠ 0 ∨ n % 4 ≠ 0) then some .ramAlign
  else if withN = true ∧ unitCount a.toNat n > Config.nMax then some .nRange
  else none

/-- The checks of a write: `DIN_LEN > P_BUF_BYTES` first, then `CheckXact` (R131, R136, R138). -/
def checkWrite (p : Config.Params) (a : Addr) (n : Nat) (withN : Bool) : Option ContractReason :=
  if n > p.bufBytes then some .bufRange else checkXact p a n withN

/-! ## The transport -/

/-- The checks have passed: the wire command with code `c` and the latched address, unmodified (R62), is to be carried
out (R130 phase 3). -/
def issue (c : Cmd) (s : State) : State :=
  { s with
    phase := .busy s.request (.command (header c s.request.addr))
    status := { s.status with busy := true, done := false } }

/-- Hands a transaction to the transport (R130 phase 4, R132): the one Exchange of the operation is outstanding. -/
def emit (tx : Bytes) (s : State) : State :=
  { s with link := { outstanding := some tx, reply := none, sent := tx :: s.link.sent } }

/-- The response check (R130 phase 5, R132, R133): Err is BUS_ERROR(TRANSPORT), and a response whose length is not that of
tx is `lenErr`; otherwise the bytes received. -/
def checkReply (lenErr : ErrorCode) (tx : Bytes) : Answer → Except ErrorCode Bytes
  | .err => .error (.busError .transport)
  | .ok rx => if rx.length = tx.length then .ok rx else .error lenErr

/-- One move of the Exchange of a wire command. With no transaction outstanding, FCF hands over `tx`.
With one outstanding and no answer yet, FCF stays Busy: it has no timeout (R270).
With the answer there, `finish` makes the response check and completes. -/
def exchange (tx : Bytes) (finish : Bytes → Answer → State) (s : State) : Host.Outcome State Fault Refusal :=
  match s.link.outstanding with
  | none => .next (emit tx s)
  | some bs =>
    match s.link.reply with
    | none => .next s
    | some a => .next (finish bs a)

/-- The transport's answer arrives. It is the return of the outstanding Exchange (R132); with no Exchange outstanding, or
its answer there already, no call is waiting for one and it is dropped (log entry 10). -/
def takeAnswer (a : Answer) (s : State) : State :=
  match s.link.outstanding, s.link.reply with
  | some _, none => { s with link := { s.link with reply := some a } }
  | _, _ => s

/-! ## Reset -/

/-- Reset (R260, R261): every piece of FCF's state takes its reset value, in any phase; a Busy operation is abandoned and
no completion is reported. What is not FCF's state stays: the parameters (R262), the events still to come, what the host
read, the record of what was handed to the transport, and that the run is not final, if it is not. -/
def resetFcf (s : State) : State :=
  { State.reset with
    params := s.params
    inbox := s.inbox
    hostData := s.hostData
    runFinal := s.runFinal
    link := { outstanding := none, reply := none, sent := s.link.sent } }

end Sys2Proof.Machine
end

