-- ==== Sys2Proof/Machine/Crc.lean ====
section
/-! DEFINITION. The CRC-16 engine (40_crc.md) and the CRC16 operation. -/

namespace Sys2Proof.Machine

/-- One bit step of R110: shift left, and add the polynomial if bit 15 fell out. -/
def crcBit (c : Half) : Half := if c.msb then (c <<< 1) ^^^ Config.crcPoly else c <<< 1

/-- `n` bit steps. -/
def crcBits : Nat → Half → Half
  | 0, c => c
  | n + 1, c => crcBits n (crcBit c)

/-- One byte: it enters at the top, then eight bit steps (R110). -/
def crcByte (c : Half) (b : Byte) : Half := crcBits 8 (c ^^^ (b.setWidth 16 <<< 8))

/-- The bytes of a string in order, from working value `c`. -/
def crcFrom (c : Half) : Bytes → Half
  | [] => c
  | b :: bs => crcFrom (crcByte c b) bs

/-- `CRC16(s)` (R110, R111): from CRC_INIT, no reflection, no final XOR. -/
def crc16 (s : Bytes) : Half := crcFrom Config.crcInit s

/-- Entry `k` of the 256-entry table of R117. -/
def crcTable (k : Byte) : Half := crcBits 8 (k.setWidth 16 <<< 8)

/-- One byte by the table (R117). -/
def crcTableByte (c : Half) (b : Byte) : Half := (c <<< 8) ^^^ crcTable ((c >>> 8).setWidth 8 ^^^ b)

/-- The bytes of a string by the table, from working value `c`. -/
def crcTableFrom (c : Half) : Bytes → Half
  | [] => c
  | b :: bs => crcTableFrom (crcTableByte c b) bs

/-- The table method of R117. -/
def crc16ByTable (s : Bytes) : Half := crcTableFrom Config.crcInit s

/-- CRC16 (OP 0x4, R113): VOUT <- the CRC of DIN[0..DIN_LEN). -/
def execCrc16 (s : State) : Host.Outcome State Fault Refusal :=
  if s.request.dataCount > s.params.bufBytes then .next (raise (.contractViolation .bufRange) s)
  else .next (completeOk (.ofVout (crc16 s.request.data)) s)

end Sys2Proof.Machine
end

