-- ==== Sys2Proof/Machine/Bus.lean ====
section
/-! DEFINITION. Bus transactions (41_bus_transactions.md, 30_encoding.md R83 to R91). An operation makes the command check
and the contract check and issues its wire command (R130 phases 1 to 3); the wire command builds the transaction, makes
the one Exchange, checks the response and completes (phases 3 to 6). -/

namespace Sys2Proof.Machine

/-! ## Transaction layouts -/

/-- PLAIN_RD (R86). -/
def plainRd (a : Addr) (n : Nat) : Bytes := be16 (header Config.cmdRead a) ++ List.replicate n Config.dummy

/-- PLAIN_WR (R87). -/
def plainWr (a : Addr) (d : Bytes) : Bytes := be16 (header Config.cmdWrite a) ++ d

/-- CRC_RD with command code `c` (R88). -/
def crcRd (c : Cmd) (a : Addr) (n : Nat) : Bytes :=
  be16 (header c a) ++ [lengthField a n] ++ List.replicate n Config.dummy ++ List.replicate 2 Config.dummy

/-- The bytes of CRC_WR before its CRC (R90). -/
def crcWrBody (a : Addr) (d : Bytes) : Bytes :=
  be16 (header Config.cmdWriteCrc a) ++ [lengthField a d.length] ++ d

/-- CRC_WR (R90, R91, R112). -/
def crcWr (a : Addr) (d : Bytes) : Bytes := crcWrBody a d ++ be16 (crc16 (crcWrBody a d))

/-! ## Completions after the Exchange -/

/-- A plain read (R135): DOUT <- rx[2..2+n). The header-time bytes are ignored (R134). -/
def finishRead (n : Nat) (s : State) (tx : Bytes) (a : Answer) : State :=
  match checkReply (.busError .rxLength) tx a with
  | .error e => raise e s
  | .ok rx => completeOk (.ofDout ((rx.drop 2).take n)) s

/-- A write, plain or with CRC (R136, R138): every byte of the response is ignored (R134), and nothing says that the
device stored the data (R140). -/
def finishWrite (s : State) (tx : Bytes) (a : Answer) : State :=
  match checkReply (.busError .rxLength) tx a with
  | .error e => raise e s
  | .ok _ => completeOk Outputs.noValue s

/-- The CRC field of a response, `from_be16(rx[3+n..5+n))`. -/
def crcReceived (n : Nat) (rx : Bytes) : Option Half :=
  match rx.drop (3 + n) with
  | hi :: lo :: _ => some (fromBe16 hi lo)
  | _ => none

/-- A CRC-protected read (R137, R139): the CRC received must equal, in all 16 bits (R116), the CRC of the three bytes FCF
sent and the data it received (R112); then DOUT <- the data. -/
def finishReadCrc (lenErr : ErrorCode) (n : Nat) (s : State) (tx : Bytes) (a : Answer) : State :=
  match checkReply lenErr tx a with
  | .error e => raise e s
  | .ok rx =>
    if crcReceived n rx = some (crc16 (tx.take 3 ++ (rx.drop 3).take n)) then
      completeOk (.ofDout ((rx.drop 3).take n)) s
    else raise .integrityError s

/-! ## The operations: command check and contract check -/

/-- READ (OP 0x8, R135). -/
def execRead (s : State) : Host.Outcome State Fault Refusal :=
  match checkXact s.params s.request.addr s.request.readCount false with
  | some r => .next (raise (.contractViolation r) s)
  | none => .next (issue Config.cmdRead s)

/-- WRITE (OP 0x9, R136). -/
def execWrite (s : State) : Host.Outcome State Fault Refusal :=
  match checkWrite s.params s.request.addr s.request.dataCount false with
  | some r => .next (raise (.contractViolation r) s)
  | none => .next (issue Config.cmdWrite s)

/-- READ_CRC (OP 0xA, R137). -/
def execReadCrc (s : State) : Host.Outcome State Fault Refusal :=
  match checkXact s.params s.request.addr s.request.readCount true with
  | some r => .next (raise (.contractViolation r) s)
  | none => .next (issue Config.cmdReadCrc s)

/-- WRITE_CRC (OP 0xB, R138). -/
def execWriteCrc (s : State) : Host.Outcome State Fault Refusal :=
  match checkWrite s.params s.request.addr s.request.dataCount true with
  | some r => .next (raise (.contractViolation r) s)
  | none => .next (issue Config.cmdWriteCrc s)

/-- SAFE_READ_CRC (OP 0xC, R139): the command check comes first. -/
def execSafeReadCrc (s : State) : Host.Outcome State Fault Refusal :=
  match s.params.safeCmd with
  | none => .next (raise (.unsupported .safeCmdUnbound) s)
  | some c =>
    match checkXact s.params s.request.addr s.request.readCount true with
    | some r => .next (raise (.contractViolation r) s)
    | none => .next (issue c s)

/-! ## The wire commands: build, Exchange, response check, completion -/

/-- The wire command READ (R86, R135). -/
def execWireRead (a : Addr) (s : State) : Host.Outcome State Fault Refusal :=
  exchange (plainRd a s.request.readCount) (finishRead s.request.readCount s) s

/-- The wire command WRITE (R87, R136). -/
def execWireWrite (a : Addr) (s : State) : Host.Outcome State Fault Refusal :=
  exchange (plainWr a s.request.data) (finishWrite s) s

/-- The wire command READ_CRC (R88, R137): a response of the wrong length is BUS_ERROR(RX_LENGTH). -/
def execWireReadCrc (a : Addr) (s : State) : Host.Outcome State Fault Refusal :=
  exchange (crcRd Config.cmdReadCrc a s.request.readCount)
    (finishReadCrc (.busError .rxLength) s.request.readCount s) s

/-- The wire command WRITE_CRC (R90, R138). -/
def execWireWriteCrc (a : Addr) (s : State) : Host.Outcome State Fault Refusal :=
  exchange (crcWr a s.request.data) (finishWrite s) s

/-- The wire command SAFE_READ_CRC (R88, R139): a response of the wrong length is LENGTH_MISMATCH(RX_LENGTH). -/
def execWireSafeReadCrc (c : Cmd) (a : Addr) (s : State) : Host.Outcome State Fault Refusal :=
  exchange (crcRd c a s.request.readCount) (finishReadCrc .lengthMismatch s.request.readCount s) s

end Sys2Proof.Machine
end

