-- ==== Sys2Proof/Machine/Codec.lean ====
section
/-! DEFINITION. The frame codec (42_frame_codec.md): the data-length-code table, frame validity, identifier, control and
payload packing, and the operations DLC_TO_LEN, ENCODE and DECODE. -/

namespace Sys2Proof.Machine

/-! ## The data-length-code table (R180) -/

/-- `DLC_LEN(dlc)`. -/
def dlcLen (dlc : BitVec 4) : Nat :=
  match dlc.toNat with
  | 9 => 12
  | 10 => 16
  | 11 => 20
  | 12 => 24
  | 13 => 32
  | 14 => 48
  | 15 => 64
  | n => n

/-! ## Frame validity (R182) -/

/-- `CheckFrame`: the first check that fails, in the order of the rule, or none. -/
def checkFrame (h : FrameHeader) : Option FrameReason :=
  if h.kind = .std ∧ h.id.toNat ≥ 2 ^ 11 then some .stdIdRange
  else if h.fdf = true ∧ h.rtr = true then some .rtrWithFdf
  else if h.fdf = false ∧ (h.brs = true ∨ h.esi = true) then some .classicBrsEsi
  else if h.fdf = false ∧ h.dlc.toNat > 8 then some .classicDlcGt8
  else none

/-! ## Identifier (R183, R184) and control (R185) packing -/

/-- `PackId`: T0. -/
def packId (k : Kind) (id : BitVec 29) : Word :=
  match k with
  | .std => (id.extractLsb' 0 11).setWidth 32
  | .ext => (id.extractLsb' 18 11).setWidth 32 ||| ((id.extractLsb' 0 18).setWidth 32 <<< 11)

/-- `UnpackId`: the identifier in T0. -/
def unpackId (k : Kind) (t0 : Word) : BitVec 29 :=
  match k with
  | .std => (t0.extractLsb' 0 11).setWidth 29
  | .ext => ((t0.extractLsb' 0 11).setWidth 29 <<< 18) ||| (t0.extractLsb' 11 18).setWidth 29

/-- The kind as IDE bit 4 of T1. -/
def Kind.bit : Kind → Bool
  | .std => false
  | .ext => true

/-- IDE bit to kind. -/
def Kind.ofBit (b : Bool) : Kind := if b then .ext else .std

/-- A flag bit at position `k` of a 32-bit word. -/
def flagAt (b : Bool) (k : Nat) : Word := (BitVec.ofBool b).setWidth 32 <<< k

/-- `PackCtl`: T1, bits 31:9 zero. -/
def packCtl (h : FrameHeader) : Word :=
  h.dlc.setWidth 32 ||| flagAt h.kind.bit 4 ||| flagAt h.rtr 5 ||| flagAt h.brs 6 ||| flagAt h.fdf 7 ||| flagAt h.esi 8

/-- `UnpackCtl` with `UnpackId`: the header fields T0 and T1 carry. T0[31:30], T1[31:9] and, for a standard frame,
T0[28:11] are ignored (R94). -/
def unpackHeader (t0 t1 : Word) : FrameHeader :=
  { kind := Kind.ofBit (t1.getLsbD 4)
    id := unpackId (Kind.ofBit (t1.getLsbD 4)) t0
    dlc := t1.extractLsb' 0 4
    rtr := t1.getLsbD 5
    fdf := t1.getLsbD 7
    brs := t1.getLsbD 6
    esi := t1.getLsbD 8 }

/-! ## The frame image (R188, R189, R190) -/

/-- `le32` (R8). -/
def le32 (w : Word) : Bytes := [w.extractLsb' 0 8, w.extractLsb' 8 8, w.extractLsb' 16 8, w.extractLsb' 24 8]

/-- `from_le32` on the four bytes of a 4-byte string. -/
def fromLe32 (b0 b1 b2 b3 : Byte) : Word := b3 ++ b2 ++ b1 ++ b0

/-- `Normalize(p, n)` (R188): truncate, or pad with PAD. -/
def normalizePayload (p : Bytes) (n : Nat) : Bytes :=
  if n ≤ p.length then p.take n else p ++ List.replicate (n - p.length) Config.pad

/-- The image of a frame with header `h` and payload bytes `p`: `le32(T0) ++ le32(T1) ++ Normalize(p, DLC_LEN(dlc))`. -/
def frameImage (h : FrameHeader) (p : Bytes) : Bytes :=
  le32 (packId h.kind h.id) ++ le32 (packCtl h) ++ normalizePayload p (dlcLen h.dlc)

/-- The checks of DECODE on a header and the bytes after it, in the order of R190, and the frame. -/
def unpackFrame (t0 t1 : Word) (p : Bytes) : Except FrameReason FoutReg :=
  if t0.getLsbD 29 then .error .sid11Set
  else
    match checkFrame (unpackHeader t0 t1) with
    | some r => .error r
    | none =>
      if p.length = dlcLen (unpackHeader t0 t1).dlc then
        .ok { hdr := unpackHeader t0 t1, payload := p, plen := BitVec.ofNat 7 p.length }
      else .error .length

/-- DECODE of a byte string (R190): fewer than HDR_BYTES bytes is TOO_SHORT. -/
def decodeImage : Bytes → Except FrameReason FoutReg
  | b0 :: b1 :: b2 :: b3 :: b4 :: b5 :: b6 :: b7 :: p => unpackFrame (fromLe32 b0 b1 b2 b3) (fromLe32 b4 b5 b6 b7) p
  | _ => .error .tooShort

/-- `pad4(s)` (R194), a host-side function: the RAM image of a frame image. -/
def pad4 (s : Bytes) : Bytes := s ++ List.replicate ((4 - s.length % 4) % 4) Config.pad

/-! ## The operations -/

/-- DLC_TO_LEN (OP 0x3, R181). -/
def execDlcToLen (s : State) : Host.Outcome State Fault Refusal :=
  .next (completeOk (.ofVout (BitVec.ofNat 16 (dlcLen s.request.fin.hdr.dlc))) s)

/-- ENCODE (OP 0x1, R189): DOUT <- the frame image of FIN. -/
def execFrameEncode (s : State) : Host.Outcome State Fault Refusal :=
  if s.request.fin.plen.toNat > Config.maxPayload then .next (raise (.contractViolation .bufRange) s)
  else
    match checkFrame s.request.fin.hdr with
    | some r => .next (raise (.invalidFrame r) s)
    | none => .next (completeOk (.ofDout (frameImage s.request.fin.hdr s.request.payload)) s)

/-- DECODE (OP 0x2, R190): FOUT <- the frame whose image is DIN[0..DIN_LEN). -/
def execFrameDecode (s : State) : Host.Outcome State Fault Refusal :=
  if s.request.dataCount > s.params.bufBytes then .next (raise (.contractViolation .bufRange) s)
  else
    match decodeImage s.request.data with
    | .error r => .next (raise (.invalidFrame r) s)
    | .ok f => .next (completeOk (.ofFout f) s)

end Sys2Proof.Machine
end

