-- ==== Sys2Proof/Machine/Reserved.lean ====
section
/-! DEFINITION. The reserved OP values (30_encoding.md R82, 60_exceptions.md R242). -/

namespace Sys2Proof.Machine

/-- A request with a reserved OP: no Exchange; UNSUPPORTED(RESERVED_OP); every output holds no value (R82). -/
def reservedOp (s : State) : Host.Outcome State Fault Refusal := .next (raise (.unsupported .reservedOp) s)

/-- OP 0x0. -/
def execReservedOp0 (s : State) : Host.Outcome State Fault Refusal := reservedOp s
/-- OP 0x5. -/
def execReservedOp5 (s : State) : Host.Outcome State Fault Refusal := reservedOp s
/-- OP 0x6. -/
def execReservedOp6 (s : State) : Host.Outcome State Fault Refusal := reservedOp s
/-- OP 0x7. -/
def execReservedOp7 (s : State) : Host.Outcome State Fault Refusal := reservedOp s
/-- OP 0xD. -/
def execReservedOpD (s : State) : Host.Outcome State Fault Refusal := reservedOp s
/-- OP 0xE. -/
def execReservedOpE (s : State) : Host.Outcome State Fault Refusal := reservedOp s
/-- OP 0xF. -/
def execReservedOpF (s : State) : Host.Outcome State Fault Refusal := reservedOp s

end Sys2Proof.Machine
end

