-- ==== Sys2Proof/Machine/Dispatch.lean ====
section
/-! DEFINITION. One arm per constructor of Instr: the meaning each row of the opcode table has. -/

namespace Sys2Proof.Machine

def exec (i : Instr) (s : State) : Host.Outcome State Fault Refusal :=
  match i with
  | .frameEncode => Sys2Proof.Machine.execFrameEncode s
  | .frameDecode => Sys2Proof.Machine.execFrameDecode s
  | .dlcToLen => Sys2Proof.Machine.execDlcToLen s
  | .crc16 => Sys2Proof.Machine.execCrc16 s
  | .read => Sys2Proof.Machine.execRead s
  | .write => Sys2Proof.Machine.execWrite s
  | .readCrc => Sys2Proof.Machine.execReadCrc s
  | .writeCrc => Sys2Proof.Machine.execWriteCrc s
  | .safeReadCrc => Sys2Proof.Machine.execSafeReadCrc s
  | .reservedOp0 => Sys2Proof.Machine.execReservedOp0 s
  | .reservedOp5 => Sys2Proof.Machine.execReservedOp5 s
  | .reservedOp6 => Sys2Proof.Machine.execReservedOp6 s
  | .reservedOp7 => Sys2Proof.Machine.execReservedOp7 s
  | .reservedOpD => Sys2Proof.Machine.execReservedOpD s
  | .reservedOpE => Sys2Proof.Machine.execReservedOpE s
  | .reservedOpF => Sys2Proof.Machine.execReservedOpF s
  | .wireRead a => Sys2Proof.Machine.execWireRead a s
  | .wireWrite a => Sys2Proof.Machine.execWireWrite a s
  | .wireReadCrc a => Sys2Proof.Machine.execWireReadCrc a s
  | .wireWriteCrc a => Sys2Proof.Machine.execWireWriteCrc a s
  | .wireSafeReadCrc c a => Sys2Proof.Machine.execWireSafeReadCrc c a s

end Sys2Proof.Machine
end

