-- ==== Sys2Proof/Machine/HostPort.lean ====
section
/-! DEFINITION. What the outside does to FCF between its moves: the host's register writes and reads (10_state.md R31, R34,
R38), REQ (R29, R264), the transport's answer (41_bus_transactions.md R132) and reset (R260). -/

namespace Sys2Proof.Machine

/-- Adds a register to the list of those written since reset. -/
def markWritten (r : InputReg) (s : State) : State :=
  { s with written := if s.written.contains r then s.written else r :: s.written }

/-- A write of one header field of FIN. -/
def writeFinHeader (r : InputReg) (f : FrameHeader → FrameHeader) (s : State) : State :=
  markWritten r { s with fin := { s.fin with hdr := f s.fin.hdr } }

/-- A host write to an input register (R38). It is allowed in every phase; while PHASE = Busy it takes effect for the next
request only, because the operation reads the latched copy (R36). DIN has no byte at or above P_BUF_BYTES (R28). -/
def writeInput (w : InputWrite) (s : State) : Host.Outcome State Fault Refusal :=
  match w with
  | .op v => .next (markWritten .op { s with op := v })
  | .addr v => .next (markWritten .addr { s with addr := v })
  | .len v => .next (markWritten .len { s with len := v })
  | .dinLen v => .next (markWritten .dinLen { s with dinLen := v })
  | .din i b =>
    if i < s.params.bufBytes then .next { s with din := s.din.write i b } else .fault (.noSuchByte i)
  | .kind v => .next (writeFinHeader .kind (fun h => { h with kind := v }) s)
  | .id v => .next (writeFinHeader .id (fun h => { h with id := v }) s)
  | .dlc v => .next (writeFinHeader .dlc (fun h => { h with dlc := v }) s)
  | .rtr v => .next (writeFinHeader .rtr (fun h => { h with rtr := v }) s)
  | .fdf v => .next (writeFinHeader .fdf (fun h => { h with fdf := v }) s)
  | .brs v => .next (writeFinHeader .brs (fun h => { h with brs := v }) s)
  | .esi v => .next (writeFinHeader .esi (fun h => { h with esi := v }) s)
  | .payload i b => .next { s with fin := { s.fin with payload := s.fin.payload.write i.toNat b } }
  | .plen v => .next (markWritten .plen { s with fin := { s.fin with plen := v } })

/-- The value of an output register, if it holds one (R31, R34, R190). -/
def outputValue (r : OutputRead) (s : State) : Option HostValue :=
  match r with
  | .statusFlags => some (.flags s.status.flags)
  | .status => s.status.word.map .half
  | .doutLen => s.out.dout.map (fun d => .half d.len)
  | .dout i =>
    match s.out.dout with
    | some d => (d.bytes[i]?).map .byte
    | none => none
  | .foutHeader => s.out.fout.map (fun f => .header f.hdr)
  | .foutPlen => s.out.fout.map (fun f => .plen f.plen)
  | .foutPayload i =>
    match s.out.fout with
    | some f => (f.payload[i.toNat]?).map .byte
    | none => none
  | .vout => s.out.vout.map .half

/-- A host read delivers the value. Where there is none it delivers nothing, since the model "never supplies a value", and it is
a fault (R34, R40, I9, I10): the run is not final from then on (log entry 25). -/
def readOutput (r : OutputRead) (s : State) : State :=
  { s with hostData := outputValue r s, runFinal := s.runFinal && (outputValue r s).isSome }

/-- REQ is raised. It stays pending until FCF accepts it, and FCF has no request queue: a second REQ while one is pending
adds nothing (R29, R264). -/
def raiseReq (s : State) : State := { s with req := true }

/-- What an event does. `fcf` is no event: `step` gives FCF the move. -/
def deliver (e : Event) (s : State) : Host.Outcome State Fault Refusal :=
  match e with
  | .fcf => .next s
  | .write w => writeInput w s
  | .req => .next (raiseReq s)
  | .read r => .next (readOutput r s)
  | .writeOutput _ _ => .next s
  | .answer a => .next (takeAnswer a s)
  | .reset => .next (resetFcf s)

/-- The instruction a Busy FCF carries out: the operation the latched OP selects (R29), or the wire command of the header
it has built; a header that is no command FCF has (R85) comes back as it is. -/
def fetch (q : Request) (stage : Stage) : Except Half Instr :=
  match stage with
  | .operation => .ok (decodeOp q.op)
  | .command h =>
    match decodeHeader h with
    | .ok i => .ok i
    | .error _ => .error h

/-- `s` with a table word where FCF fetches: the latched OP, for an OPSEL word, or the header of the command stage, for a
bus header. FCF is Busy with it, no Exchange is outstanding, and the next move is FCF's (log entry 9). -/
def placeWord (s : State) (nbits w : Nat) : State :=
  { s with
    phase :=
      if nbits ≤ 8 then .busy { s.request with op := BitVec.ofNat 4 w } .operation
      else .busy s.request (.command (BitVec.ofNat 16 w))
    status := { s.status with busy := true, done := false }
    link := { s.link with outstanding := none, reply := none }
    inbox := .fcf :: s.inbox }

end Sys2Proof.Machine
end

