-- ==== Sys2Proof/Machine/Step.lean ====
section
/-! DEFINITION. One step. The head of the queue of events from outside says who moves: an event lands, or FCF makes its
move; with the queue empty only FCF moves. So every interleaving of the host, the transport, reset and FCF is a queue. -/

namespace Sys2Proof.Machine

/-- FCF's own move. Idle: accept the pending REQ (R29), or nothing. Busy: carry out the instruction. -/
def fcfMove (s : State) : Host.Outcome State Fault Refusal :=
  match s.phase with
  | .idle => .next (if s.req then accept s else s)
  | .busy q stage =>
    match fetch q stage with
    | .ok i => exec i s
    | .error h => .fault (.noSuchCommand h)

def step (s : State) : Host.Outcome State Fault Refusal :=
  match s.inbox with
  | [] => fcfMove s
  | e :: es =>
    match e with
    | .fcf => fcfMove { s with inbox := es }
    | e => deliver e { s with inbox := es }

/-- `s` with a word of the opcode table placed so that the next step runs it (log entry 9). -/
def State.withFetchWord (s : State) (nbits w : Nat) : State := placeWord s nbits w

end Sys2Proof.Machine
end

