-- ==== Sys2Proof/Machine/HostLines.lean ====
section
/-! DEFINITION. The host's notation: one line is one request (30_encoding.md R97), and the macros that expand into requests
(R98). Neither is an FCF operation; a line is the host events that load the input registers it names and raise REQ. -/

namespace Sys2Proof.Machine

/-- A line of R97. Flags that are absent are 0, so a header is written out in full. -/
inductive HostLine where
  | encode (h : FrameHeader) (data : Bytes)
  | decode (data : Bytes)
  | dlcToLen (dlc : BitVec 4)
  | crc16 (data : Bytes)
  | read (a : Addr) (n : Half)
  | write (a : Addr) (data : Bytes)
  | readCrc (a : Addr) (n : Half)
  | writeCrc (a : Addr) (data : Bytes)
  | safeReadCrc (a : Addr) (n : Half)
deriving DecidableEq, Repr

/-- Writes of DIN from index `i` on. -/
def dinWrites (i : Nat) : Bytes → List Event
  | [] => []
  | b :: bs => .write (.din i b) :: dinWrites (i + 1) bs

/-- `[<hex bytes>]` sets DIN and DIN_LEN. -/
def loadDin (data : Bytes) : List Event := dinWrites 0 data ++ [.write (.dinLen (BitVec.ofNat 16 data.length))]

/-- Writes of FIN.PAYLOAD from index `i` on; the register has 64 bytes. -/
def payloadWrites (i : Nat) : Bytes → List Event
  | [] => []
  | b :: bs => if i < Config.maxPayload then .write (.payload (BitVec.ofNat 6 i) b) :: payloadWrites (i + 1) bs else []

/-- The header fields of FIN, and `data=[...]`, which sets FIN.PAYLOAD and FIN.PLEN. -/
def loadFin (h : FrameHeader) (data : Bytes) : List Event :=
  [.write (.kind h.kind), .write (.id h.id), .write (.dlc h.dlc), .write (.rtr h.rtr), .write (.fdf h.fdf),
   .write (.brs h.brs), .write (.esi h.esi)] ++ payloadWrites 0 data ++ [.write (.plen (BitVec.ofNat 7 data.length))]

/-- The events of a line: OP (R81), the operands, REQ. -/
def HostLine.events : HostLine → List Event
  | .encode h data => .write (.op 0x1#4) :: loadFin h data ++ [.req]
  | .decode data => .write (.op 0x2#4) :: loadDin data ++ [.req]
  | .dlcToLen dlc => [.write (.op 0x3#4), .write (.dlc dlc), .req]
  | .crc16 data => .write (.op 0x4#4) :: loadDin data ++ [.req]
  | .read a n => [.write (.op 0x8#4), .write (.addr a), .write (.len n), .req]
  | .write a data => .write (.op 0x9#4) :: .write (.addr a) :: loadDin data ++ [.req]
  | .readCrc a n => [.write (.op 0xA#4), .write (.addr a), .write (.len n), .req]
  | .writeCrc a data => .write (.op 0xB#4) :: .write (.addr a) :: loadDin data ++ [.req]
  | .safeReadCrc a n => [.write (.op 0xC#4), .write (.addr a), .write (.len n), .req]

/-! ## The macros (R98) -/

/-- What a macro does next: issue a request, or end with a RESULT other than OK. -/
inductive MacroStep where
  | issue (l : HostLine)
  | ended (c : Completion)
deriving DecidableEq, Repr

/-- `pad4len(n)`: `n` rounded up to a multiple of 4. -/
def pad4len (n : Nat) : Nat := (n + 3) / 4 * 4

/-- `WRITE_FRAME_CRC a, f`, its first request. -/
def writeFrameCrcFirst (h : FrameHeader) (data : Bytes) : HostLine := .encode h data

/-- `WRITE_FRAME_CRC a, f` after ENCODE completed with `c` and `$DOUT` = `dout`. -/
def writeFrameCrcNext (a : Addr) (c : Completion) (dout : Bytes) : MacroStep :=
  match c with
  | .ok => .issue (.writeCrc a (pad4 dout))
  | .error e => .ended (.error e)

/-- `READ_FRAME_CRC a`, its first request: the header. -/
def readFrameCrcFirst (a : Addr) : HostLine := .readCrc a 8#16

/-- The payload count the host computes: DLC_LEN(header byte 4 bits 3:0). -/
def macroPayloadLen (hdr : Bytes) : Nat :=
  match hdr[4]? with
  | some b => dlcLen (b.extractLsb' 0 4)
  | none => 0

/-- `READ_FRAME_CRC a` after the header read completed with `c` and `$DOUT` = `hdr`: the payload read, or, for an empty
payload, DECODE at once. R98 does not say what the macro does where `a + 8` is no 12-bit address: the model takes it modulo 2^12
(DESIGN CHOICE, log entry 23). -/
def readFrameCrcNext (a : Addr) (c : Completion) (hdr : Bytes) : MacroStep :=
  match c with
  | .ok =>
    if macroPayloadLen hdr > 0 then .issue (.readCrc (a + 8#12) (BitVec.ofNat 16 (pad4len (macroPayloadLen hdr))))
    else .issue (.decode hdr)
  | .error e => .ended (.error e)

/-- `READ_FRAME_CRC a` after the payload read completed with `c` and `$DOUT` = `p`: DECODE header ++ payload[0..n). -/
def readFrameCrcLast (hdr : Bytes) (c : Completion) (p : Bytes) : MacroStep :=
  match c with
  | .ok => .issue (.decode (hdr ++ p.take (macroPayloadLen hdr)))
  | .error e => .ended (.error e)

end Sys2Proof.Machine
end

