-- ==== Sys2Proof/Safety.lean ====
section
/-! DEFINITION. The terms the claims use: what a completion leaves and what it leaves alone, the results an operation may
have (60_exceptions.md R233), and the invariants of the machine. -/

namespace Sys2Proof

open Machine

/-! ## Frames and completions -/

/-- Everything of the state that only the host or the builder of FCF sets, and the outside's events, is the same. -/
structure SameInputs (s t : State) : Prop where
  params : t.params = s.params
  op : t.op = s.op
  addr : t.addr = s.addr
  len : t.len = s.len
  fin : t.fin = s.fin
  din : t.din = s.din
  dinLen : t.dinLen = s.dinLen
  req : t.req = s.req
  written : t.written = s.written
  inbox : t.inbox = s.inbox
  hostData : t.hostData = s.hostData

/-- `t` is `s` after the completion of its operation with `c` and the outputs `o` (R29, R34, R235): STATUS carries `c`,
DONE = 1, BUSY = 0, PHASE = Idle, every output is as `o` says, no Exchange is outstanding, none was started by it, the run
stays final unless R243 has a model treat `c` as a fault (R143, log entry 1), and nothing else changed. -/
structure CompletedAs (c : Completion) (o : Outputs) (s t : State) : Prop where
  last : t.status.last = some c
  done : t.status.done = true
  notBusy : t.status.busy = false
  idle : t.phase = .idle
  out : t.out = o
  outstanding : t.link.outstanding = none
  reply : t.link.reply = none
  sent : t.link.sent = s.link.sent
  runFinal : t.runFinal = (s.runFinal && treatment c != .fault)
  inputs : SameInputs s t

/-- Instruction `i` completes from `s` with `c` and the outputs `o`. -/
def Completes (i : Instr) (s : State) (c : Completion) (o : Outputs) : Prop :=
  ∃ t, exec i s = .next t ∧ CompletedAs c o s t

/-- `t` is `s` with the wire command of header `h` to be carried out for the request `q`: the operation goes on, nothing has
been sent, and no output, result or input changed. -/
structure IssuedAs (q : Request) (h : Half) (s t : State) : Prop where
  phase : t.phase = .busy q (.command h)
  busy : t.status.busy = true
  notDone : t.status.done = false
  last : t.status.last = s.status.last
  out : t.out = s.out
  link : t.link = s.link
  runFinal : t.runFinal = s.runFinal
  inputs : SameInputs s t

/-- `t` is `s` with the transaction `tx` handed to the transport, and nothing else changed. -/
structure SentAs (tx : Bytes) (s t : State) : Prop where
  outstanding : t.link.outstanding = some tx
  reply : t.link.reply = none
  sent : t.link.sent = tx :: s.link.sent
  phase : t.phase = s.phase
  status : t.status = s.status
  out : t.out = s.out
  runFinal : t.runFinal = s.runFinal
  inputs : SameInputs s t

/-- `d` is the slice `[0..n)` of a buffer as an operation reads it: `n` bytes, each the one the host has written, where it has
written one. A byte never written is a free value (log entry 24). -/
structure IsSlice (m : Memory) (n : Nat) (d : Bytes) : Prop where
  length : d.length = n
  written : ∀ j b, j < n → m.read j = some b → d[j]? = some b

/-! ## A whole bus operation -/

/-- The events of a bus operation whose Exchange is answered with `a`: FCF makes its two moves up to the Exchange, the
answer comes, FCF makes its last move; `es` is what comes after. -/
def answeredWith (a : Answer) (es : List Event) (s : State) : State :=
  { s with inbox := .fcf :: .fcf :: .answer a :: .fcf :: es }

/-- `s` as the one Exchange of `tx` leaves the record of transactions, with the events `es` still to come. -/
def afterExchange (tx : Bytes) (es : List Event) (s : State) : State :=
  { s with inbox := es, link := { s.link with sent := tx :: s.link.sent } }

/-- From `s`, where FCF is Busy with an operation, the four steps of that schedule make exactly the one Exchange of `tx` and
complete with `c` and the outputs `o`. (That these are four steps is the model's choice: log entries 6 and 8.) -/
def RunsTo (s : State) (tx : Bytes) (a : Answer) (c : Completion) (o : Outputs) : Prop :=
  ∀ es, ∃ t, Host.Core.run core 4 (answeredWith a es s) = .next t ∧ CompletedAs c o (afterExchange tx es s) t

/-! ## The results of an operation (R233) -/

/-- R233's table, for the operations. The wire commands have no row: they end the operation that issued them. -/
def mayEndWith : Instr → Completion → Bool
  | _, .ok => true
  | .frameEncode, .error (.invalidFrame _) => true
  | .frameEncode, .error (.contractViolation r) => r == .bufRange
  | .frameDecode, .error (.invalidFrame _) => true
  | .frameDecode, .error (.contractViolation r) => r == .bufRange
  | .crc16, .error (.contractViolation r) => r == .bufRange
  | .read, .error (.contractViolation _) => true
  | .read, .error (.busError _) => true
  | .write, .error (.contractViolation _) => true
  | .write, .error (.busError _) => true
  | .readCrc, .error (.contractViolation _) => true
  | .readCrc, .error (.busError _) => true
  | .readCrc, .error .integrityError => true
  | .writeCrc, .error (.contractViolation _) => true
  | .writeCrc, .error (.busError _) => true
  | .safeReadCrc, .error (.unsupported r) => r == .safeCmdUnbound
  | .safeReadCrc, .error (.contractViolation _) => true
  | .safeReadCrc, .error (.busError r) => r == .transport
  | .safeReadCrc, .error .lengthMismatch => true
  | .safeReadCrc, .error .integrityError => true
  | _, _ => false

/-- A reserved OP ends with UNSUPPORTED(RESERVED_OP) and with nothing else, OK included (R233, R82). -/
def isReserved : Instr → Bool
  | .reservedOp0 | .reservedOp5 | .reservedOp6 | .reservedOp7 | .reservedOpD | .reservedOpE | .reservedOpF => true
  | _ => false

/-- The results an operation can produce (R233). -/
def possibleResult (i : Instr) (c : Completion) : Bool :=
  if isReserved i then c == .error (.unsupported .reservedOp) else mayEndWith i c

/-! ## Single-bit errors (R115) -/

/-- Byte string `s` with bit `k` of byte `i` flipped. -/
def flipBit (s : Bytes) (i k : Nat) : Bytes := s.modify i (fun b => b ^^^ (1#8 <<< k))

/-! ## Invariants -/

/-- STATUS.BUSY mirrors PHASE (R31, R35), BUSY and DONE are never both 1, an Exchange is outstanding only while a wire
command is being carried out, and an answer is there only while its Exchange is. -/
structure StatusMirrorsPhase (s : State) : Prop where
  busy : s.status.busy = true ↔ s.phase ≠ .idle
  notBoth : ¬(s.status.busy = true ∧ s.status.done = true)
  outstanding : s.link.outstanding.isSome = true → ∃ q h, s.phase = .busy q (.command h)
  reply : s.link.reply.isSome = true → s.link.outstanding.isSome = true

/-- Every listed index is below `n`. -/
def Below (n : Nat) (m : Memory) : Prop := ∀ c ∈ m, c.1 < n

/-- DIN and FIN.PAYLOAD, and the latched copies of them, are in canonical form and within their capacities, `P_BUF_BYTES`
(R28) and 64 bytes (R27). -/
structure BuffersCanonical (s : State) : Prop where
  din : s.din.wf = true
  dinBelow : Below s.params.bufBytes s.din
  payload : s.fin.payload.wf = true
  payloadBelow : Below Config.maxPayload s.fin.payload
  latched : ∀ q st, s.phase = .busy q st →
    q.din.wf = true ∧ Below s.params.bufBytes q.din ∧ q.fin.payload.wf = true ∧ Below Config.maxPayload q.fin.payload

/-- The code of the wire command an operation emits (R84), once `P_SAFE_CMD` is bound for the safe variant. -/
def emittedBy (p : Config.Params) : Instr → Option Cmd
  | .read => some Config.cmdRead
  | .write => some Config.cmdWrite
  | .readCrc => some Config.cmdReadCrc
  | .writeCrc => some Config.cmdWriteCrc
  | .safeReadCrc => p.safeCmd
  | _ => none

/-- The contract check the operation has to pass before its wire command (R131). -/
def contractCheck (p : Config.Params) (i : Instr) (q : Request) : Option ContractReason :=
  match i with
  | .read => checkXact p q.addr q.readCount false
  | .write => checkWrite p q.addr q.dataCount false
  | .readCrc => checkXact p q.addr q.readCount true
  | .writeCrc => checkWrite p q.addr q.dataCount true
  | .safeReadCrc => checkXact p q.addr q.readCount true
  | _ => none

/-- The first three checks of CheckXact pass (R131): the count is from 1 to P_MAX_BURST (R58), and every address of the
transaction is in the address space and in P_ADDR_VALID (R52). -/
def CountAndRangePass (p : Config.Params) (a : Addr) (n : Nat) : Prop :=
  1 ≤ n ∧ n ≤ p.maxBurst ∧ a.toNat + n ≤ 0x1000 ∧
    ∀ i, i < n → ∃ r ∈ p.addrValid, r.lo.toNat ≤ a.toNat + i ∧ a.toNat + i ≤ r.hi.toNat

/-- The transaction a wire command hands to the transport for the request `q` (R86, R87, R88, R90). The operations and reserved codes hand over none themselves. -/
def transactionOf (q : Request) : Instr → Option Bytes
  | .wireRead a => some (plainRd a q.readCount)
  | .wireWrite a => some (plainWr a q.data)
  | .wireReadCrc a => some (crcRd Config.cmdReadCrc a q.readCount)
  | .wireWriteCrc a => some (crcWr a q.data)
  | .wireSafeReadCrc c a => some (crcRd c a q.readCount)
  | _ => none

/-- The five codes of R84. -/
def EmittedCode (p : Config.Params) (c : Cmd) : Prop :=
  c = Config.cmdRead ∨ c = Config.cmdWrite ∨ c = Config.cmdReadCrc ∨ c = Config.cmdWriteCrc ∨ p.safeCmd = some c

/-- FCF emits only the five command codes (R85), each for the operation that has it, with the latched address unmodified
(R62) and only after the contract check has passed (R130); the transaction outstanding is the one the command's layout gives
for the latched request; and every transaction ever handed to the transport begins with
a header of one of the five codes. -/
structure EmitsOnlyItsCommands (s : State) : Prop where
  command : ∀ q h, s.phase = .busy q (.command h) →
    ∃ c, emittedBy s.params (decodeOp q.op) = some c ∧ h = header c q.addr ∧
      contractCheck s.params (decodeOp q.op) q = none
  outstanding : ∀ q h tx, s.phase = .busy q (.command h) → s.link.outstanding = some tx →
    ∃ i, decodeHeader h = .ok i ∧ transactionOf q i = some tx
  sent : ∀ tx ∈ s.link.sent, ∃ c a rest, EmittedCode s.params c ∧ tx = be16 (header c a) ++ rest

/-- The outputs agree with RESULT (R34, R141): with no result or a result other than OK none holds a value, and at most one
does; DOUT_LEN is the number of bytes in DOUT, which is within its capacity (R30); FOUT holds a valid frame with
PLEN = DLC_LEN(DLC) (R32, R37); and in a run that is final the last result is no contract violation (R143). -/
structure OutputsMatchResult (s : State) : Prop where
  noValue : s.status.last ≠ some .ok → s.out = Outputs.noValue
  oneOnly : (s.out.dout.isSome = true → s.out.fout = none ∧ s.out.vout = none) ∧
    (s.out.fout.isSome = true → s.out.vout = none)
  dout : ∀ d, s.out.dout = some d → d.len.toNat = d.bytes.length ∧ d.bytes.length ≤ s.params.bufBytes
  fout : ∀ f, s.out.fout = some f →
    checkFrame f.hdr = none ∧ f.payload.length = dlcLen f.hdr.dlc ∧ f.plen.toNat = dlcLen f.hdr.dlc
  noViolation : s.runFinal = true → ∀ r, s.status.last ≠ some (.error (.contractViolation r))

end Sys2Proof
end

