-- ==== Sys2Proof/Certificates/Slice0/Obligations.lean ====
section
/-! DEFINITION. The statements for the provers. Each docstring says which rule of the spec it formalises, or that it rests on
a choice of the model and names the log entry. -/

open Sys2Proof Sys2Proof.Machine

/-! ## Encoding (30_encoding.md) -/

/-- Decoding the bytes of a well-formed instruction, whatever follows them, gives it back, with every operand at every value
(R81 to R84). -/
def Obligations.DecodeOfEncodeIsTheInstruction : Prop :=
  ∀ (i : Instr) (rest : Bytes), i.wellFormed = true → decode (encode i).1 ((encode i).2 ++ rest) = .ok (i, rest)

/-- The other direction: bytes that decode are the encoding of the instruction they decode to, which is well formed, so each
word has one meaning (R81 to R84). -/
def Obligations.EncodeOfDecodeIsTheBytes : Prop :=
  ∀ (f : Format) (bs rest : Bytes) (i : Instr), decode f bs = .ok (i, rest) →
    i.wellFormed = true ∧ (encode i).1 = f ∧ (encode i).2 ++ rest = bs

/-- Words written out from R81's table and R83's layout decode to their rows: every OP value, one header of each fixed code
(95_test_vectors.md section 3.6), the test binding 0xD of the safe variant, and the RESET code, which is no command (R85). -/
def Obligations.SpecWordsDecode : Prop :=
  (List.range 16).map (fun k => decode .opsel [BitVec.ofNat 8 k]) =
    [.ok (.reservedOp0, []), .ok (.frameEncode, []), .ok (.frameDecode, []), .ok (.dlcToLen, []), .ok (.crc16, []),
     .ok (.reservedOp5, []), .ok (.reservedOp6, []), .ok (.reservedOp7, []), .ok (.read, []), .ok (.write, []),
     .ok (.readCrc, []), .ok (.writeCrc, []), .ok (.safeReadCrc, []), .ok (.reservedOpD, []), .ok (.reservedOpE, []),
     .ok (.reservedOpF, [])] ∧
  decode .hdr [0x3E#8, 0x00#8] = .ok (.wireRead 0xE00#12, []) ∧
  decode .hdr [0x21#8, 0x23#8, 0xFF#8] = .ok (.wireWrite 0x123#12, [0xFF#8]) ∧
  decode .hdr [0xBE#8, 0x14#8] = .ok (.wireReadCrc 0xE14#12, []) ∧
  decode .hdr [0xA0#8, 0x10#8] = .ok (.wireWriteCrc 0x010#12, []) ∧
  decode .hdr [0xD4#8, 0x00#8] = .ok (.wireSafeReadCrc 0xD#4 0x400#12, []) ∧
  decode .hdr [0x00#8, 0x00#8] = .error .resetCommand

/-- R83: the fields of the header, and its two bytes on the wire, `(C << 4) | A[11:8]` first. -/
def Obligations.HeaderCarriesCodeAndAddress : Prop :=
  ∀ (c : Cmd) (a : Addr),
    header c a = c ++ a ∧
    (header c a).extractLsb' 12 4 = c ∧ (header c a).extractLsb' 0 12 = a ∧
    be16 (header c a) = [c ++ a.extractLsb' 8 4, a.extractLsb' 0 8]

/-! ## The step -/

/-- While FCF is Busy with an operation, its move is exactly `exec` of the instruction the latched OP decodes to: with the
queue of events empty, or with FCF's turn at its head, which the step takes (R29, R36, R81). The queue of events is the model's
(log entry 6). -/
def Obligations.StepRunsTheLatchedOperation : Prop :=
  ∀ (s : State) (q : Request) (i : Instr), s.phase = .busy q .operation → decode .opsel [q.op.setWidth 8] = .ok (i, []) →
    (s.inbox = [] → step s = exec i s) ∧
    ∀ es, s.inbox = .fcf :: es → step s = exec i { s with inbox := es }

/-- While FCF is Busy with a wire command, its move is exactly `exec` of the instruction the header's two bytes decode to
(R83, R84). That a bus operation and its wire command are two steps is the model's choice (log entry 8). -/
def Obligations.StepRunsTheWireCommand : Prop :=
  ∀ (s : State) (q : Request) (h : Half) (i : Instr), s.phase = .busy q (.command h) → decode .hdr (be16 h) = .ok (i, []) →
    (s.inbox = [] → step s = exec i s) ∧
    ∀ es, s.inbox = .fcf :: es → step s = exec i { s with inbox := es }

/-- Acceptance (R29, R36): Idle with REQ pending, FCF's move, with the queue of events empty or with FCF's turn at its head (log
entry 6), latches OP, ADDR, LEN, FIN, DIN and DIN_LEN, PHASE becomes Busy, BUSY 1 and DONE 0, and REQ is no longer pending; no
input register changes and nothing is sent; where every input the operation reads has been written, the run stays as final as it
was (log entry 7). That the outputs and RESULT keep their values is log entry 13. Idle with no REQ pending, FCF's move changes
nothing (R29, R60): there is no operation, and so no Exchange, that the host has not requested. -/
def Obligations.IdleAcceptsExactlyAPendingRequest : Prop :=
  ∀ (s : State) (es : List Event), s.phase = .idle → (s.inbox = [] ∧ es = []) ∨ s.inbox = .fcf :: es →
    (s.req = false → step s = .next { s with inbox := es }) ∧
    (s.req = true → ∃ t, step s = .next t ∧
      t.phase = .busy { op := s.op, addr := s.addr, len := s.len, fin := s.fin, din := s.din, dinLen := s.dinLen } .operation ∧
      t.status.busy = true ∧ t.status.done = false ∧ t.status.last = s.status.last ∧ t.req = false ∧
      t.out = s.out ∧ t.link = s.link ∧ (missingInput (decodeOp s.op) s = none → t.runFinal = s.runFinal) ∧
      SameInputs { s with req := false, inbox := es } t)

/-- R263, I11: a request that reads an input the host has not written since reset is a fault, in the sense of
93_implementation_defined.md: it is accepted, and the run is not final from then on (log entry 7). Such an input is OP or a
register the operation reads, a byte of DIN below DIN_LEN, or a byte of FIN.PAYLOAD below PLEN, in buffers long enough for the
operation to read them; which bytes of a buffer count as read is the model's reading (log entries 5 and 7). Where every such
input has been written, the run stays as final as it was. FCF's move comes with the queue of events empty or with its turn at
the head (log entry 6). -/
def Obligations.UnwrittenInputMakesTheRunNotFinal : Prop :=
  ∀ s : State, s.phase = .idle → (s.inbox = [] ∨ ∃ es, s.inbox = .fcf :: es) → s.req = true →
    ∃ t q, step s = .next t ∧ t.phase = .busy q .operation ∧ q.op = s.op ∧
      (∀ r, (r = .op ∨ r ∈ registersRead (decodeOp s.op)) → r ∉ s.written → t.runFinal = false) ∧
      (∀ j, readsDin (decodeOp s.op) = true → s.dinLen.toNat ≤ s.params.bufBytes → j < s.dinLen.toNat →
        s.din.read j = none → t.runFinal = false) ∧
      (∀ j, readsPayload (decodeOp s.op) = true → s.fin.plen.toNat ≤ 64 → j < s.fin.plen.toNat →
        s.fin.payload.read j = none → t.runFinal = false) ∧
      ((∀ r, (r = .op ∨ r ∈ registersRead (decodeOp s.op)) → r ∈ s.written) →
        (readsDin (decodeOp s.op) = true → s.dinLen.toNat ≤ s.params.bufBytes → ∀ j, j < s.dinLen.toNat →
          s.din.read j ≠ none) →
        (readsPayload (decodeOp s.op) = true → s.fin.plen.toNat ≤ 64 → ∀ j, j < s.fin.plen.toNat →
          s.fin.payload.read j ≠ none) →
        t.runFinal = s.runFinal)

/-- R29, R264: in any phase, Idle as Busy, a REQ becomes pending and changes nothing else; and in every step but a reset a
pending REQ stays pending for as long as the step began Busy: the operation goes on with the same latched request, or ends in
Idle. That a REQ while one is pending already adds nothing is the model's reading (log entry 22). -/
def Obligations.RequestBecomesPendingAndIsHeldWhileBusy : Prop :=
  (∀ (s : State) (es : List Event), s.inbox = .req :: es → step s = .next { s with inbox := es, req := true }) ∧
  ∀ (s t : State) (q : Request) (st : Stage), s.phase = .busy q st → s.req = true → (∀ es, s.inbox ≠ .reset :: es) →
    step s = .next t → t.req = true ∧ (t.phase = .idle ∨ ∃ st', t.phase = .busy q st')

/-- R36: the operation reads only the latched copy. While FCF is Busy every instruction answers a next state, and the same one
whatever the input registers are changed to, which keep the values they were given. That a request which violates a contract
answers a next state too, in a run no longer final, is the model's choice (log entry 1), and so is that an instruction reads a
free value where a latched byte was never written (log entry 24). -/
def Obligations.ExecReadsOnlyTheLatchedRequest : Prop :=
  ∀ (i : Instr) (s : State) (q : Request) (st : Stage) (op : BitVec 4) (addr : Addr) (len : Half) (fin : FinReg)
    (din : Memory) (dinLen : Half) (written : List InputReg), s.phase = .busy q st →
    ∃ t, exec i s = .next t ∧
      exec i { s with op := op, addr := addr, len := len, fin := fin, din := din, dinLen := dinLen, written := written } =
        .next { t with op := op, addr := addr, len := len, fin := fin, din := din, dinLen := dinLen, written := written }

/-! ## The host's port -/

/-- R36, R38, R27: a host write to an input register, in any phase, completes (but for a byte of DIN, which
HostWriteChangesOneByte is about) and leaves PHASE with the latched request, STATUS, the outputs, REQ, the parameters and the
Exchange alone. A write of OP, ADDR, LEN or DIN_LEN sets that register, counts it as written and leaves FIN alone; a write of a
field of FIN sets that field, counts it as written and leaves FIN's other fields and its payload alone; a write of a byte of DIN
leaves FIN alone, one of FIN.PAYLOAD FIN's other fields. Only a write of DIN changes DIN, and only the write of a register
changes whether it counts as written. That one write is of one register or field is log entry 20. -/
def Obligations.HostWriteTouchesOnlyInputs : Prop :=
  ∀ (s : State) (w : InputWrite) (es : List Event), s.inbox = .write w :: es →
    ((∀ i b, w ≠ .din i b) → ∃ t, step s = .next t) ∧
    ∀ t, step s = .next t →
      (t.phase = s.phase ∧ t.status = s.status ∧ t.out = s.out ∧ t.req = s.req ∧ t.params = s.params ∧ t.link = s.link ∧
        t.hostData = s.hostData ∧ t.runFinal = s.runFinal ∧ t.inbox = es) ∧
      (∀ v, w = .op v → t.op = v ∧ t.fin = s.fin ∧ ∀ r, r ∈ t.written ↔ r = .op ∨ r ∈ s.written) ∧
      ((∀ v, w ≠ .op v) → t.op = s.op) ∧
      (∀ v, w = .addr v → t.addr = v ∧ t.fin = s.fin ∧ ∀ r, r ∈ t.written ↔ r = .addr ∨ r ∈ s.written) ∧
      ((∀ v, w ≠ .addr v) → t.addr = s.addr) ∧
      (∀ v, w = .len v → t.len = v ∧ t.fin = s.fin ∧ ∀ r, r ∈ t.written ↔ r = .len ∨ r ∈ s.written) ∧
      ((∀ v, w ≠ .len v) → t.len = s.len) ∧
      (∀ v, w = .dinLen v → t.dinLen = v ∧ t.fin = s.fin ∧ ∀ r, r ∈ t.written ↔ r = .dinLen ∨ r ∈ s.written) ∧
      ((∀ v, w ≠ .dinLen v) → t.dinLen = s.dinLen) ∧
      (∀ v, w = .kind v → t.fin = { s.fin with hdr := { s.fin.hdr with kind := v } } ∧
        ∀ r, r ∈ t.written ↔ r = .kind ∨ r ∈ s.written) ∧
      (∀ v, w = .id v → t.fin = { s.fin with hdr := { s.fin.hdr with id := v } } ∧
        ∀ r, r ∈ t.written ↔ r = .id ∨ r ∈ s.written) ∧
      (∀ v, w = .dlc v → t.fin = { s.fin with hdr := { s.fin.hdr with dlc := v } } ∧
        ∀ r, r ∈ t.written ↔ r = .dlc ∨ r ∈ s.written) ∧
      (∀ v, w = .rtr v → t.fin = { s.fin with hdr := { s.fin.hdr with rtr := v } } ∧
        ∀ r, r ∈ t.written ↔ r = .rtr ∨ r ∈ s.written) ∧
      (∀ v, w = .fdf v → t.fin = { s.fin with hdr := { s.fin.hdr with fdf := v } } ∧
        ∀ r, r ∈ t.written ↔ r = .fdf ∨ r ∈ s.written) ∧
      (∀ v, w = .brs v → t.fin = { s.fin with hdr := { s.fin.hdr with brs := v } } ∧
        ∀ r, r ∈ t.written ↔ r = .brs ∨ r ∈ s.written) ∧
      (∀ v, w = .esi v → t.fin = { s.fin with hdr := { s.fin.hdr with esi := v } } ∧
        ∀ r, r ∈ t.written ↔ r = .esi ∨ r ∈ s.written) ∧
      (∀ v, w = .plen v → t.fin = { s.fin with plen := v } ∧
        ∀ r, r ∈ t.written ↔ r = .plen ∨ r ∈ s.written) ∧
      ((∃ i b, w = .din i b) → t.fin = s.fin ∧ t.written = s.written) ∧
      ((∃ i b, w = .payload i b) → t.fin.hdr = s.fin.hdr ∧ t.fin.plen = s.fin.plen ∧ t.written = s.written) ∧
      ((∀ i b, w ≠ .din i b) → t.din = s.din)

/-- The bytes of the buffers (R27, R28): a host write of a byte of DIN below its capacity, or of FIN.PAYLOAD, completes, that
byte reads as written, and every other byte of both buffers reads as before. That a write at or above DIN's capacity stops is
the model's reading (log entry 14), and so is the byte as the unit of a write (log entry 20). -/
def Obligations.HostWriteChangesOneByte : Prop :=
  ∀ (s : State) (es : List Event),
    (∀ i b, s.inbox = .write (.din i b) :: es → i < s.params.bufBytes →
      ∃ t, step s = .next t ∧ t.din.read i = some b ∧ (∀ j, j ≠ i → t.din.read j = s.din.read j) ∧ t.fin = s.fin) ∧
    (∀ i b, s.inbox = .write (.din i b) :: es → s.params.bufBytes ≤ i → step s = .fault (.noSuchByte i)) ∧
    (∀ i b, s.inbox = .write (.payload i b) :: es →
      ∃ t, step s = .next t ∧ t.fin.payload.read i.toNat = some b ∧
        (∀ j, j ≠ i.toNat → t.fin.payload.read j = s.fin.payload.read j) ∧ t.fin.hdr = s.fin.hdr ∧
        t.fin.plen = s.fin.plen ∧ t.din = s.din)

/-- R38, R31, I22: a host write to an output register is ignored. -/
def Obligations.HostWriteToAnOutputIsIgnored : Prop :=
  ∀ (s : State) (r : OutputReg) (v : Half) (es : List Event), s.inbox = .writeOutput r v :: es →
    step s = .next { s with inbox := es }

/-- R34, R190, I9, I10: a host read of an output that holds no value, of a payload byte of FOUT at or beyond PLEN, or of the
STATUS word before the first completion, is a fault, in the sense of 93_implementation_defined.md: no value is supplied, and the
run is not final from then on; that FCF goes on after it is the model's reading (log entry 25). A read of an output that holds a
value delivers it and changes nothing else. That a byte of DOUT at or beyond the bytes it holds (their number is DOUT_LEN,
StepKeepsOutputsMatchResult) holds no value is the model's reading (log entry 14). That the seven header fields of FOUT are one read, and DOUT and FOUT.PAYLOAD are
read a byte at a time, is the model's choice (log entry 20), and so is that BUSY and DONE can be read by themselves in every
state (log entry 16). -/
def Obligations.HostReadDeliversTheValueIfThereIsOne : Prop :=
  ∀ (s : State) (es : List Event),
    (s.inbox = .read .vout :: es →
      (s.out.vout = none → step s = .next { s with inbox := es, hostData := none, runFinal := false }) ∧
      ∀ v, s.out.vout = some v → step s = .next { s with inbox := es, hostData := some (.half v) }) ∧
    (s.inbox = .read .doutLen :: es →
      (s.out.dout = none → step s = .next { s with inbox := es, hostData := none, runFinal := false }) ∧
      ∀ d, s.out.dout = some d → step s = .next { s with inbox := es, hostData := some (.half d.len) }) ∧
    (∀ i, s.inbox = .read (.dout i) :: es →
      (s.out.dout = none → step s = .next { s with inbox := es, hostData := none, runFinal := false }) ∧
      ∀ d, s.out.dout = some d →
        (d.bytes.length ≤ i → step s = .next { s with inbox := es, hostData := none, runFinal := false }) ∧
        ∀ b, d.bytes[i]? = some b → step s = .next { s with inbox := es, hostData := some (.byte b) }) ∧
    (s.inbox = .read .foutHeader :: es →
      (s.out.fout = none → step s = .next { s with inbox := es, hostData := none, runFinal := false }) ∧
      ∀ f, s.out.fout = some f → step s = .next { s with inbox := es, hostData := some (.header f.hdr) }) ∧
    (s.inbox = .read .foutPlen :: es →
      (s.out.fout = none → step s = .next { s with inbox := es, hostData := none, runFinal := false }) ∧
      ∀ f, s.out.fout = some f → step s = .next { s with inbox := es, hostData := some (.plen f.plen) }) ∧
    (∀ i, s.inbox = .read (.foutPayload i) :: es →
      (s.out.fout = none → step s = .next { s with inbox := es, hostData := none, runFinal := false }) ∧
      ∀ f, s.out.fout = some f →
        (f.payload.length ≤ i.toNat → step s = .next { s with inbox := es, hostData := none, runFinal := false }) ∧
        ∀ b, f.payload[i.toNat]? = some b → step s = .next { s with inbox := es, hostData := some (.byte b) }) ∧
    (s.inbox = .read .status :: es →
      (s.status.last = none → step s = .next { s with inbox := es, hostData := none, runFinal := false }) ∧
      ∀ c, s.status.last = some c →
        step s = .next { s with inbox := es, hostData := some (.half (statusWord s.status.flags c)) }) ∧
    (s.inbox = .read .statusFlags :: es → step s = .next { s with inbox := es, hostData := some (.flags s.status.flags) })

/-! ## STATUS (R31, R231, R232) -/

/-- R31: BUSY in bit 0, DONE in bit 1, RESULT in bits 7:4, REASON in bits 11:8, the reserved bits reading 0. -/
def Obligations.StatusWordLayout : Prop :=
  ∀ (st : Status) (c : Completion), st.last = some c →
    ∃ w, st.word = some w ∧ w.getLsbD 0 = st.busy ∧ w.getLsbD 1 = st.done ∧ w.extractLsb' 2 2 = 0#2 ∧
      w.extractLsb' 4 4 = resultCode c ∧ w.extractLsb' 8 4 = reasonCode c ∧ w.extractLsb' 12 4 = 0#4

/-- R231, R232: the RESULT and REASON codes of every pair, as the STATUS words of 95_test_vectors.md section 1.2 after the
completion (DONE = 1, BUSY = 0); there is no other pair. -/
def Obligations.ResultAndReasonCodes : Prop :=
  ∃ pairs : List (Completion × Half),
    pairs =
      [(.ok, 0x0002#16), (.error (.busError .transport), 0x0112#16), (.error (.busError .rxLength), 0x0212#16),
       (.error .integrityError, 0x0122#16), (.error (.invalidFrame .tooShort), 0x0132#16),
       (.error (.invalidFrame .sid11Set), 0x0232#16), (.error (.invalidFrame .stdIdRange), 0x0332#16),
       (.error (.invalidFrame .rtrWithFdf), 0x0432#16), (.error (.invalidFrame .classicBrsEsi), 0x0532#16),
       (.error (.invalidFrame .classicDlcGt8), 0x0632#16), (.error (.invalidFrame .length), 0x0732#16),
       (.error (.contractViolation .bufRange), 0x0142#16), (.error (.contractViolation .lenZero), 0x0242#16),
       (.error (.contractViolation .lenBurst), 0x0342#16), (.error (.contractViolation .addrRange), 0x0442#16),
       (.error (.contractViolation .regionStraddle), 0x0542#16), (.error (.contractViolation .ramAlign), 0x0642#16),
       (.error (.contractViolation .nRange), 0x0742#16), (.error .lengthMismatch, 0x0252#16),
       (.error (.unsupported .reservedOp), 0x0162#16), (.error (.unsupported .safeCmdUnbound), 0x0262#16)] ∧
    ∀ c : Completion, ∃ w, (c, w) ∈ pairs ∧ Status.word { busy := false, done := true, last := some c } = some w

/-! ## Reset (R260, R261) -/

/-- R260: after reset PHASE is Idle, BUSY and DONE are 0, RESULT, REASON and every output hold no value, no request is
latched, and no Exchange has been made. -/
def Obligations.ResetLeavesIdleAndNoValue : Prop :=
  State.reset.phase = .idle ∧ State.reset.status.busy = false ∧ State.reset.status.done = false ∧
    State.reset.status.last = none ∧ State.reset.out.dout = none ∧ State.reset.out.fout = none ∧
    State.reset.out.vout = none ∧ State.reset.link.sent = [] ∧ State.reset.link.outstanding = none

/-- R260: a reset in any state, Busy or not, leaves PHASE Idle, so nothing latched, BUSY and DONE 0, no RESULT and no REASON, no
output with a value, and makes no Exchange. -/
def Obligations.ResetAbandonsTheOperation : Prop :=
  ∀ (s : State) (es : List Event), s.inbox = .reset :: es →
    ∃ t, step s = .next t ∧ t.phase = .idle ∧ t.status.busy = false ∧ t.status.done = false ∧ t.status.last = none ∧
      t.out.dout = none ∧ t.out.fout = none ∧ t.out.vout = none ∧ t.link.sent = s.link.sent

/-! ## CRC-16 (40_crc.md) -/

/-- The check values of R114, which the spec infers from R110 and R111 ("computed, not from a run"). -/
def Obligations.CrcCheckValues : Prop :=
  crc16 [0x31#8, 0x32#8, 0x33#8, 0x34#8, 0x35#8, 0x36#8, 0x37#8, 0x38#8, 0x39#8] = 0xAEE7#16 ∧
    crc16 [] = 0xFFFF#16 ∧ crc16 [0x00#8] = 0xFD02#16

/-- R113: CRC16, which OP 0x4 selects, completes with VOUT = the CRC of DIN[0..DIN_LEN), 0xFFFF for no bytes, and with
CONTRACT_VIOLATION(BUF_RANGE) when DIN_LEN exceeds the capacity; no Exchange, and nothing else changes. That the violation
answers a next state, in a run no longer final, is the model's choice (log entry 1). A byte never written is a free value (log
entry 24). -/
def Obligations.Crc16PutsTheCrcInVout : Prop :=
  decodeOp 0x4#4 = .crc16 ∧ ∀ s : State,
    (s.request.dinLen.toNat > s.params.bufBytes →
      Completes .crc16 s (.error (.contractViolation .bufRange)) Outputs.noValue) ∧
    (s.request.dinLen.toNat ≤ s.params.bufBytes → ∃ bs, IsSlice s.request.din s.request.dinLen.toNat bs ∧
      Completes .crc16 s .ok { dout := none, fout := none, vout := some (crc16 bs) } ∧
      (bs = [] → crc16 bs = 0xFFFF#16))

/-- A change of one bit of a string changes its CRC, and by how much it changes depends only on the position flipped and the
length: the spec's own inference from R110 (R115). -/
def Obligations.CrcDetectsEverySingleBitError : Prop :=
  (∀ (s : Bytes) (i k : Nat), i < s.length → k < 8 → crc16 (flipBit s i k) ≠ crc16 s) ∧
  (∀ (s s' : Bytes) (i k : Nat), s.length = s'.length →
    crc16 (flipBit s i k) ^^^ crc16 s = crc16 (flipBit s' i k) ^^^ crc16 s')

/-- R117: the table method gives the value of R110 for every input; and the table begins as the spec computes ("T begins"). -/
def Obligations.CrcByTableIsTheCrc : Prop :=
  (∀ s : Bytes, crc16ByTable s = crc16 s) ∧
    (List.range 6).map (fun k => crcTable (BitVec.ofNat 8 k)) =
      [0x0000#16, 0x8005#16, 0x800F#16, 0x000A#16, 0x801B#16, 0x001E#16]

/-! ## The frame codec (42_frame_codec.md) -/

/-- R180, R181: DLC_TO_LEN, which OP 0x3 selects, completes OK with VOUT = the table's byte count of FIN.DLC, whatever FIN's other fields are. -/
def Obligations.DlcToLenLooksUpTheTable : Prop :=
  decodeOp 0x3#4 = .dlcToLen ∧ ∀ s : State, Completes .dlcToLen s .ok
    { dout := none, fout := none,
      vout := some (BitVec.ofNat 16 (([0, 1, 2, 3, 4, 5, 6, 7, 8, 12, 16, 20, 24, 32, 48, 64] : List Nat).getD
        s.request.fin.hdr.dlc.toNat 0)) }

/-- R182: the four checks of CheckFrame in their order, each reported exactly when it fails and none before it does. -/
def Obligations.FrameChecksInOrder : Prop :=
  ∀ h : FrameHeader,
    (checkFrame h = some .stdIdRange ↔ h.kind = .std ∧ 2048 ≤ h.id.toNat) ∧
    (checkFrame h = some .rtrWithFdf ↔ ¬(h.kind = .std ∧ 2048 ≤ h.id.toNat) ∧ h.fdf = true ∧ h.rtr = true) ∧
    (checkFrame h = some .classicBrsEsi ↔
      ¬(h.kind = .std ∧ 2048 ≤ h.id.toNat) ∧ h.fdf = false ∧ (h.brs = true ∨ h.esi = true)) ∧
    (checkFrame h = some .classicDlcGt8 ↔
      ¬(h.kind = .std ∧ 2048 ≤ h.id.toNat) ∧ h.fdf = false ∧ h.brs = false ∧ h.esi = false ∧ 8 < h.dlc.toNat) ∧
    (checkFrame h = none ↔
      (h.kind = .ext ∨ h.id.toNat < 2048) ∧ (h.fdf = true → h.rtr = false) ∧
      (h.fdf = false → h.brs = false ∧ h.esi = false ∧ h.dlc.toNat ≤ 8))

/-- R183: where the bits of the identifier go in T0, and that T0[31:29] is 0. -/
def Obligations.IdentifierPacking : Prop :=
  ∀ id : BitVec 29,
    ((packId .std id).extractLsb' 0 11 = id.extractLsb' 0 11 ∧ (packId .std id).extractLsb' 11 21 = 0#21) ∧
    ((packId .ext id).extractLsb' 0 11 = id.extractLsb' 18 11 ∧ (packId .ext id).extractLsb' 11 18 = id.extractLsb' 0 18 ∧
      (packId .ext id).extractLsb' 29 3 = 0#3)

/-- R184: UnpackId inverts PackId on every identifier that passes CheckFrame, which is the spec's own inference; it ignores T0[28:11] of a standard frame and
T0[31:29] of every frame. -/
def Obligations.UnpackIdInvertsPackId : Prop :=
  (∀ id : BitVec 29, id.toNat < 2048 → unpackId .std (packId .std id) = id) ∧
  (∀ id : BitVec 29, unpackId .ext (packId .ext id) = id) ∧
  (∀ t0 t0' : Word, t0.extractLsb' 0 11 = t0'.extractLsb' 0 11 → unpackId .std t0 = unpackId .std t0') ∧
  (∀ t0 t0' : Word, t0.extractLsb' 0 29 = t0'.extractLsb' 0 29 → unpackId .ext t0 = unpackId .ext t0')

/-- R185, R93: the bits of T1 that PackCtl writes; UnpackCtl inverts it for every tuple of fields, which is the spec's own
inference; it ignores T1[31:9]. -/
def Obligations.ControlWordPacking : Prop :=
  (∀ h : FrameHeader, (packCtl h).extractLsb' 0 4 = h.dlc ∧ ((packCtl h).getLsbD 4 = true ↔ h.kind = .ext) ∧
    (packCtl h).getLsbD 5 = h.rtr ∧ (packCtl h).getLsbD 6 = h.brs ∧ (packCtl h).getLsbD 7 = h.fdf ∧
    (packCtl h).getLsbD 8 = h.esi ∧ (packCtl h).extractLsb' 9 23 = 0#23) ∧
  (∀ (h : FrameHeader) (t0 : Word), unpackHeader t0 (packCtl h) = { h with id := unpackId h.kind t0 }) ∧
  (∀ t0 t1 t1' : Word, t1.extractLsb' 0 9 = t1'.extractLsb' 0 9 → unpackHeader t0 t1 = unpackHeader t0 t1')

/-- R189, with R188: ENCODE, which OP 0x1 selects. PLEN above 64 is CONTRACT_VIOLATION(BUF_RANGE), then a failed frame check is INVALID_FRAME, then
DOUT is le32(T0), le32(T1) and the payload cut or padded with 0x00 to DLC_LEN(dlc) bytes, and DOUT_LEN is 8 + DLC_LEN(dlc).
No Exchange; no input changes. That the contract violation answers a next state, in a run no longer final, is the model's choice
(log entry 1). A byte never written is a free value (log entry 24). -/
def Obligations.EncodeGivesTheFrameImage : Prop :=
  decodeOp 0x1#4 = .frameEncode ∧ ∀ s : State,
    (64 < s.request.fin.plen.toNat →
      Completes .frameEncode s (.error (.contractViolation .bufRange)) Outputs.noValue) ∧
    (s.request.fin.plen.toNat ≤ 64 → ∀ r, checkFrame s.request.fin.hdr = some r →
      Completes .frameEncode s (.error (.invalidFrame r)) Outputs.noValue) ∧
    (s.request.fin.plen.toNat ≤ 64 → checkFrame s.request.fin.hdr = none →
      ∃ (p : Bytes) (w0 w1 : Word) (body : Bytes), IsSlice s.request.fin.payload s.request.fin.plen.toNat p ∧
        w0 = packId s.request.fin.hdr.kind s.request.fin.hdr.id ∧ w1 = packCtl s.request.fin.hdr ∧
        body.length = dlcLen s.request.fin.hdr.dlc ∧
        (∀ j, j < dlcLen s.request.fin.hdr.dlc → body[j]? = some ((p[j]?).getD 0x00#8)) ∧
        Completes .frameEncode s .ok
          { dout := some
              { bytes := [w0.extractLsb' 0 8, w0.extractLsb' 8 8, w0.extractLsb' 16 8, w0.extractLsb' 24 8,
                  w1.extractLsb' 0 8, w1.extractLsb' 8 8, w1.extractLsb' 16 8, w1.extractLsb' 24 8] ++ body,
                len := BitVec.ofNat 16 (8 + dlcLen s.request.fin.hdr.dlc) },
            fout := none, vout := none })

/-- R190: DECODE, which OP 0x2 selects. DIN_LEN above the capacity is CONTRACT_VIOLATION(BUF_RANGE); fewer than 8 bytes TOO_SHORT; then, in this
order, T0[29] = 1 is SID11_SET, a failed frame check is reported, a payload of another length than DLC_LEN(dlc) is LENGTH;
otherwise FOUT is the frame, with PLEN = DLC_LEN(dlc) and the bytes after the header. No Exchange; no input changes. That the
contract violation answers a next state, in a run no longer final, is the model's choice (log entry 1). A byte
never written is a free value (log entry 24). -/
def Obligations.DecodeGivesTheFrame : Prop :=
  decodeOp 0x2#4 = .frameDecode ∧ ∀ s : State,
    (s.params.bufBytes < s.request.dinLen.toNat →
      Completes .frameDecode s (.error (.contractViolation .bufRange)) Outputs.noValue) ∧
    (s.request.dinLen.toNat ≤ s.params.bufBytes → ∃ b, IsSlice s.request.din s.request.dinLen.toNat b ∧
      (b.length < 8 → Completes .frameDecode s (.error (.invalidFrame .tooShort)) Outputs.noValue) ∧
      ∀ (b0 b1 b2 b3 b4 b5 b6 b7 : Byte) (p : Bytes), b = b0 :: b1 :: b2 :: b3 :: b4 :: b5 :: b6 :: b7 :: p →
        ∀ (t0 t1 : Word), t0 = b3 ++ b2 ++ b1 ++ b0 → t1 = b7 ++ b6 ++ b5 ++ b4 →
        (t0.getLsbD 29 = true → Completes .frameDecode s (.error (.invalidFrame .sid11Set)) Outputs.noValue) ∧
        (t0.getLsbD 29 = false → ∀ r, checkFrame (unpackHeader t0 t1) = some r →
          Completes .frameDecode s (.error (.invalidFrame r)) Outputs.noValue) ∧
        (t0.getLsbD 29 = false → checkFrame (unpackHeader t0 t1) = none → p.length ≠ dlcLen (unpackHeader t0 t1).dlc →
          Completes .frameDecode s (.error (.invalidFrame .length)) Outputs.noValue) ∧
        (t0.getLsbD 29 = false → checkFrame (unpackHeader t0 t1) = none → p.length = dlcLen (unpackHeader t0 t1).dlc →
          Completes .frameDecode s .ok
            { dout := none,
              fout := some
                { hdr := unpackHeader t0 t1, payload := p, plen := BitVec.ofNat 7 (dlcLen (unpackHeader t0 t1).dlc) },
              vout := none }))

/-- STD_ID_RANGE cannot arise in DECODE, whatever the image: "UnpackId of a standard frame yields 11 bits" (R190). -/
def Obligations.DecodeNeverReportsStdIdRange : Prop :=
  ∀ (s t : State), exec .frameDecode s = .next t → t.status.last ≠ some (.error (.invalidFrame .stdIdRange))

/-- The round-trip law, the spec's own inference (R192): ENCODE of a valid frame with PLEN = its payload's length completes OK, and DECODE of the DOUT it leaves
completes OK with that frame in FOUT. -/
def Obligations.DecodeOfEncodeIsTheFrame : Prop :=
  ∀ (s : State) (p : Bytes), s.request.fin.plen.toNat ≤ 64 → checkFrame s.request.fin.hdr = none →
    s.request.fin.payload.bytes s.request.fin.plen.toNat = some p → p.length = dlcLen s.request.fin.hdr.dlc →
    ∃ t d, exec .frameEncode s = .next t ∧ t.status.last = some .ok ∧ t.out.dout = some d ∧ d.len.toNat = d.bytes.length ∧
      ∀ u : State, u.request.dinLen = d.len → u.request.din.bytes u.request.dinLen.toNat = some d.bytes →
        u.request.dinLen.toNat ≤ u.params.bufBytes →
        ∃ v, exec .frameDecode u = .next v ∧ v.status.last = some .ok ∧
          v.out.fout = some { hdr := s.request.fin.hdr, payload := p, plen := s.request.fin.plen }

/-- The converse of the round-trip law (R192, the spec's own inference): the image of the frame DECODE finds in a string is that string exactly when the string is canonical:
T0[31:29] = 0, T1[31:9] = 0, and T0[28:11] = 0 when IDE = 0. -/
def Obligations.EncodeOfDecodeIsTheCanonicalImage : Prop :=
  ∀ (b0 b1 b2 b3 b4 b5 b6 b7 : Byte) (p : Bytes) (f : FoutReg) (t0 t1 : Word),
    t0 = b3 ++ b2 ++ b1 ++ b0 → t1 = b7 ++ b6 ++ b5 ++ b4 →
    decodeImage (b0 :: b1 :: b2 :: b3 :: b4 :: b5 :: b6 :: b7 :: p) = .ok f →
    (frameImage f.hdr f.payload = b0 :: b1 :: b2 :: b3 :: b4 :: b5 :: b6 :: b7 :: p ↔
      t0.extractLsb' 29 3 = 0#3 ∧ t1.extractLsb' 9 23 = 0#23 ∧ (t1.getLsbD 4 = false → t0.extractLsb' 11 18 = 0#18))

/-- The length law, the spec's own inference (R193): for every code there is a header with valid flags, an FD header for the codes above 8; and with any header whose
flags are valid and SID11 clear, DECODE completes OK for a string of 8 + DLC_LEN(dlc) bytes, and with INVALID_FRAME for every
other length: LENGTH at 8 bytes or more. (Below 8 bytes there is TOO_SHORT.) -/
def Obligations.DecodeAcceptsExactlyTheTableLength : Prop :=
  (∀ (dlc : BitVec 4) (id : BitVec 29) (fdf : Bool), (8 < dlc.toNat → fdf = true) →
    checkFrame { kind := .ext, id := id, dlc := dlc, rtr := false, fdf := fdf, brs := false, esi := false } = none) ∧
  ∀ (s : State) (t0 t1 : Word) (b : Bytes), s.request.dinLen.toNat ≤ s.params.bufBytes →
    s.request.din.bytes s.request.dinLen.toNat = some b → t0.getLsbD 29 = false → checkFrame (unpackHeader t0 t1) = none →
    (b.length < 8 → Completes .frameDecode s (.error (.invalidFrame .tooShort)) Outputs.noValue) ∧
    (b.take 8 = le32 t0 ++ le32 t1 → b.length ≠ 8 + dlcLen (unpackHeader t0 t1).dlc →
      Completes .frameDecode s (.error (.invalidFrame .length)) Outputs.noValue) ∧
    (b.take 8 = le32 t0 ++ le32 t1 → b.length = 8 + dlcLen (unpackHeader t0 t1).dlc →
      ∃ f, Completes .frameDecode s .ok { dout := none, fout := some f, vout := none })

/-- The spec's own inference (R196): two valid frames with one image are one frame; and what ENCODE leaves depends only on FIN's fields and on the first
min(PLEN, n) payload bytes. Where one of those bytes was written in neither state, that both encode it alike is the model's
choice (log entry 24: one free value for each index). -/
def Obligations.EncodeIsInjective : Prop :=
  (∀ (h h' : FrameHeader) (p p' : Bytes), checkFrame h = none → checkFrame h' = none → p.length = dlcLen h.dlc →
    p'.length = dlcLen h'.dlc → frameImage h p = frameImage h' p' → h = h' ∧ p = p') ∧
  (∀ (s s' t t' : State), s'.request.fin.hdr = s.request.fin.hdr → s'.request.fin.plen = s.request.fin.plen →
    (∀ j, j < s.request.fin.plen.toNat → j < dlcLen s.request.fin.hdr.dlc →
      s'.request.fin.payload.read j = s.request.fin.payload.read j) →
    exec .frameEncode s = .next t → exec .frameEncode s' = .next t' → t'.out = t.out ∧ t'.status.last = t.status.last)

/-! ## Bus transactions (41_bus_transactions.md, 20_memory.md) -/

/-- R131, with R52, R53, R57, R58 and R89: CheckXact passes exactly when the count is from 1 to P_MAX_BURST, every address of
the transaction is in the address space and in P_ADDR_VALID, the transaction lies in one region, a RAM transaction is of
whole words, and, with N, it is at most 255 words in RAM and 255 bytes in SFR. -/
def Obligations.ContractCheckPassesExactlyWhen : Prop :=
  ∀ (p : Config.Params) (a : Addr) (n : Nat) (withN : Bool),
    checkXact p a n withN = none ↔
      1 ≤ n ∧ n ≤ p.maxBurst ∧ a.toNat + n ≤ 0x1000 ∧
      (∀ i, i < n → ∃ r ∈ p.addrValid, r.lo.toNat ≤ a.toNat + i ∧ a.toNat + i ≤ r.hi.toNat) ∧
      ((0x400 ≤ a.toNat ∧ a.toNat + n ≤ 0xC00 ∧ a.toNat % 4 = 0 ∧ n % 4 = 0 ∧ (withN = true → n ≤ 1020)) ∨
       ((a.toNat + n ≤ 0x400 ∨ 0xC00 ≤ a.toNat) ∧ (withN = true → n ≤ 255)))

/-- R131, with R52, R53, R57 and R89: the first failing check is the one reported, in the order LEN_ZERO, LEN_BURST, ADDR_RANGE,
REGION_STRADDLE, RAM_ALIGN, N_RANGE: each exactly when it fails and none before it does; and for a write BUF_RANGE comes before
all of them. The RAM region is 0x400 to 0xBFF. -/
def Obligations.ContractChecksInOrder : Prop :=
  ∀ (p : Config.Params) (a : Addr) (n : Nat) (withN : Bool),
    (checkXact p a n withN = some .lenZero ↔ n = 0) ∧
    (checkXact p a n withN = some .lenBurst ↔ 1 ≤ n ∧ p.maxBurst < n) ∧
    (checkXact p a n withN = some .addrRange ↔ 1 ≤ n ∧ n ≤ p.maxBurst ∧
      (0x1000 < a.toNat + n ∨ ∃ i, i < n ∧ ∀ r ∈ p.addrValid, ¬(r.lo.toNat ≤ a.toNat + i ∧ a.toNat + i ≤ r.hi.toNat))) ∧
    (checkXact p a n withN = some .regionStraddle ↔ CountAndRangePass p a n ∧
      ¬(0x400 ≤ a.toNat ∧ a.toNat + n ≤ 0xC00) ∧ ¬(a.toNat + n ≤ 0x400 ∨ 0xC00 ≤ a.toNat)) ∧
    (checkXact p a n withN = some .ramAlign ↔ CountAndRangePass p a n ∧
      0x400 ≤ a.toNat ∧ a.toNat + n ≤ 0xC00 ∧ (a.toNat % 4 ≠ 0 ∨ n % 4 ≠ 0)) ∧
    (checkXact p a n withN = some .nRange ↔ CountAndRangePass p a n ∧ withN = true ∧
      ((0x400 ≤ a.toNat ∧ a.toNat + n ≤ 0xC00 ∧ a.toNat % 4 = 0 ∧ n % 4 = 0 ∧ 1020 < n) ∨
       ((a.toNat + n ≤ 0x400 ∨ 0xC00 ≤ a.toNat) ∧ 255 < n))) ∧
    (checkXact p a n withN ≠ some .bufRange) ∧
    (p.bufBytes < n → checkWrite p a n withN = some .bufRange) ∧
    (n ≤ p.bufBytes → checkWrite p a n withN = checkXact p a n withN)

/-- R89: for a CRC transaction that has passed its checks, N counts words in the RAM region and bytes in the SFR region, and
is from 1 to 255. -/
def Obligations.LengthByteCountsUnits : Prop :=
  ∀ (p : Config.Params) (a : Addr) (n : Nat), checkXact p a n true = none →
    1 ≤ (lengthField a n).toNat ∧
    (region a.toNat n = .ram → 4 * (lengthField a n).toNat = n) ∧
    (region a.toNat n = .sfr → (lengthField a n).toNat = n) ∧ region a.toNat n ≠ .straddle

/-- R130 phases 1 and 2, R131, R143, R235, R243: a bus operation whose contract check fails completes with CONTRACT_VIOLATION and
that reason, without an Exchange, and the run is not final from then on; a run becomes not final only by a completion with
CONTRACT_VIOLATION, by the acceptance of a request that reads an unwritten input (log entry 7) or by a host read of what holds
no value (log entry 25). That the machine goes on after it is the model's reading (log entry 1). -/
def Obligations.ContractViolationMakesNoExchange : Prop :=
  (∀ (s : State) (i : Instr) (r : ContractReason),
    i = .read ∨ i = .write ∨ i = .readCrc ∨ i = .writeCrc ∨ (i = .safeReadCrc ∧ s.params.safeCmd ≠ none) →
    contractCheck s.params i s.request = some r →
    ∃ t, exec i s = .next t ∧ CompletedAs (.error (.contractViolation r)) Outputs.noValue s t ∧ t.runFinal = false) ∧
  ∀ s t : State, step s = .next t →
    (s.runFinal = false → t.runFinal = false) ∧
    (s.runFinal = true → t.runFinal = false →
      (s.phase ≠ .idle ∧ t.phase = .idle ∧ ∃ r, t.status.last = some (.error (.contractViolation r))) ∨
      (s.phase = .idle ∧ t.phase ≠ .idle ∧ missingInput (decodeOp s.op) s ≠ none) ∨
      (t.phase = s.phase ∧ ∃ r es, s.inbox = .read r :: es ∧ outputValue r s = none))

/-- R130 phases 1 to 3, R84, R62: a bus operation whose checks pass goes on to its own wire command, whose header carries its
code and the latched address; nothing has been sent yet, and no output, result or input has changed (the two stages are the
model's choice, log entry 8). -/
def Obligations.BusOperationIssuesItsCommand : Prop :=
  ∀ (s : State) (i : Instr) (c : Cmd),
    (i = .read ∧ c = 0x3#4) ∨ (i = .write ∧ c = 0x2#4) ∨ (i = .readCrc ∧ c = 0xB#4) ∨ (i = .writeCrc ∧ c = 0xA#4) ∨
      (i = .safeReadCrc ∧ s.params.safeCmd = some c) →
    contractCheck s.params i s.request = none →
    ∃ t, exec i s = .next t ∧ IssuedAs s.request (c ++ s.request.addr) s t

/-- R82: each reserved OP selects a reserved row, which completes with UNSUPPORTED(RESERVED_OP); every output holds no value; no Exchange. -/
def Obligations.ReservedOpIsUnsupported : Prop :=
  ([0x0#4, 0x5#4, 0x6#4, 0x7#4, 0xD#4, 0xE#4, 0xF#4] : List (BitVec 4)).map decodeOp =
    [.reservedOp0, .reservedOp5, .reservedOp6, .reservedOp7, .reservedOpD, .reservedOpE, .reservedOpF] ∧
  ∀ (s : State) (i : Instr),
    i ∈ [Instr.reservedOp0, .reservedOp5, .reservedOp6, .reservedOp7, .reservedOpD, .reservedOpE, .reservedOpF] →
    Completes i s (.error (.unsupported .reservedOp)) Outputs.noValue

/-- R86, R87, R88, R90, R91, R112: a wire command with no Exchange outstanding hands the transport exactly the bytes of its
layout for the latched count or data, and changes nothing else. A byte of DIN never written is a free value (log entry 24). -/
def Obligations.WireCommandSendsItsLayout : Prop :=
  ∀ (s : State) (a : Addr) (c : Cmd), s.link.outstanding = none →
    (∃ t, exec (.wireRead a) s = .next t ∧
      SentAs (be16 (0x3#4 ++ a) ++ List.replicate s.request.len.toNat 0x00#8) s t) ∧
    (∃ t, exec (.wireReadCrc a) s = .next t ∧
      SentAs (be16 (0xB#4 ++ a) ++ [lengthField a s.request.len.toNat] ++
        List.replicate (s.request.len.toNat + 2) 0x00#8) s t) ∧
    (∃ t, exec (.wireSafeReadCrc c a) s = .next t ∧
      SentAs (be16 (c ++ a) ++ [lengthField a s.request.len.toNat] ++
        List.replicate (s.request.len.toNat + 2) 0x00#8) s t) ∧
    ∃ d, IsSlice s.request.din s.request.dinLen.toNat d ∧
      (∃ t, exec (.wireWrite a) s = .next t ∧ SentAs (be16 (0x2#4 ++ a) ++ d) s t) ∧
      (∃ t, exec (.wireWriteCrc a) s = .next t ∧
        SentAs (be16 (0xA#4 ++ a) ++ [lengthField a d.length] ++ d ++
          be16 (crc16 (be16 (0xA#4 ++ a) ++ [lengthField a d.length] ++ d))) s t)

/-- R132, R133, R135 to R139: a wire command whose Exchange has been answered completes: with BUS_ERROR(TRANSPORT) on Err;
with BUS_ERROR(RX_LENGTH), or LENGTH_MISMATCH(RX_LENGTH) for the safe variant, on a response of another length than tx; a
write with OK on any response of that length. -/
def Obligations.WireCommandChecksTheResponse : Prop :=
  ∀ (s : State) (tx : Bytes) (i : Instr) (a : Addr) (c : Cmd), s.link.outstanding = some tx →
    i ∈ [Instr.wireRead a, .wireWrite a, .wireReadCrc a, .wireWriteCrc a, .wireSafeReadCrc c a] →
    (s.link.reply = some .err → Completes i s (.error (.busError .transport)) Outputs.noValue) ∧
    (∀ rx, s.link.reply = some (.ok rx) → rx.length ≠ tx.length →
      (i ≠ .wireSafeReadCrc c a → Completes i s (.error (.busError .rxLength)) Outputs.noValue) ∧
      (i = .wireSafeReadCrc c a → Completes i s (.error .lengthMismatch) Outputs.noValue)) ∧
    (∀ rx, s.link.reply = some (.ok rx) → rx.length = tx.length → i = .wireWrite a ∨ i = .wireWriteCrc a →
      Completes i s .ok Outputs.noValue)

/-- R135, R137, R139: the wire command of a read whose Exchange has been answered with a response as long as tx completes:
the plain one with the bytes after the header; the CRC-protected ones with the data when the CRC received equals the CRC of
the three bytes sent and the data, in all 16 bits (R112, R116), and with INTEGRITY_ERROR otherwise, delivering nothing. -/
def Obligations.WireReadDeliversTheData : Prop :=
  ∀ (s : State) (tx rx : Bytes) (a : Addr), s.link.outstanding = some tx → s.link.reply = some (.ok rx) →
    rx.length = tx.length →
    (tx.length = 2 + s.request.len.toNat →
      Completes (.wireRead a) s .ok
        { dout := some { bytes := rx.drop 2, len := s.request.len }, fout := none, vout := none }) ∧
    (∀ (i : Instr) (data : Bytes) (hi lo : Byte), i = .wireReadCrc a ∨ (∃ c, i = .wireSafeReadCrc c a) →
      data.length = s.request.len.toNat → rx.drop 3 = data ++ [hi, lo] →
      (hi ++ lo = crc16 (tx.take 3 ++ data) →
        Completes i s .ok { dout := some { bytes := data, len := s.request.len }, fout := none, vout := none }) ∧
      (hi ++ lo ≠ crc16 (tx.take 3 ++ data) → Completes i s (.error .integrityError) Outputs.noValue))

/-- R135: READ as a whole. Its contract checks come first, without an Exchange (whether they pass is
ContractCheckPassesExactlyWhen); then exactly one Exchange, of PLAIN_RD, whatever comes back; then BUS_ERROR, or OK with
DOUT = rx[2..2+n) and DOUT_LEN = n. That a contract violation
answers a next state, in a run no longer final, is the model's choice (log entry 1), and so is the schedule of `RunsTo`, four
steps in which the events land (log entries 6 and 8). -/
def Obligations.ReadRuns : Prop :=
  ∀ (s : State) (q : Request), s.phase = .busy q .operation → q.op = 0x8#4 → s.link.outstanding = none →
    (∀ r, checkXact s.params q.addr q.len.toNat false = some r →
      Completes .read s (.error (.contractViolation r)) Outputs.noValue) ∧
    (checkXact s.params q.addr q.len.toNat false = none →
      ∀ tx, tx = be16 (0x3#4 ++ q.addr) ++ List.replicate q.len.toNat 0x00#8 →
      RunsTo s tx .err (.error (.busError .transport)) Outputs.noValue ∧
      ∀ rx, (rx.length ≠ tx.length → RunsTo s tx (.ok rx) (.error (.busError .rxLength)) Outputs.noValue) ∧
        (rx.length = tx.length → RunsTo s tx (.ok rx) .ok
          { dout := some { bytes := rx.drop 2, len := q.len }, fout := none, vout := none }))

/-- R136: WRITE as a whole: contract checks, BUF_RANGE first; then one Exchange, of PLAIN_WR with the bytes
DIN[0..DIN_LEN); BUS_ERROR, or OK whatever the bytes received, with no output holding a value. That a contract violation
answers a next state, in a run no longer final, is the model's choice (log entry 1), and so is the schedule of `RunsTo`, four
steps in which the events land (log entries 6 and 8). A byte of DIN never written is a free value (log entry 24). -/
def Obligations.WriteRuns : Prop :=
  ∀ (s : State) (q : Request), s.phase = .busy q .operation → q.op = 0x9#4 → s.link.outstanding = none →
    (s.params.bufBytes < q.dinLen.toNat →
      Completes .write s (.error (.contractViolation .bufRange)) Outputs.noValue) ∧
    (q.dinLen.toNat ≤ s.params.bufBytes →
      (∀ r, checkXact s.params q.addr q.dinLen.toNat false = some r →
        Completes .write s (.error (.contractViolation r)) Outputs.noValue) ∧
      (checkXact s.params q.addr q.dinLen.toNat false = none → ∃ d, IsSlice q.din q.dinLen.toNat d ∧
        ∀ tx, tx = be16 (0x2#4 ++ q.addr) ++ d →
        RunsTo s tx .err (.error (.busError .transport)) Outputs.noValue ∧
        ∀ rx, (rx.length ≠ tx.length → RunsTo s tx (.ok rx) (.error (.busError .rxLength)) Outputs.noValue) ∧
          (rx.length = tx.length → RunsTo s tx (.ok rx) .ok Outputs.noValue)))

/-- R137: READ_CRC as a whole: contract checks with N; one Exchange, of CRC_RD; BUS_ERROR; INTEGRITY_ERROR when the CRC received
is not that of tx[0..3) and the data; otherwise OK with DOUT = the data and DOUT_LEN = n. That a contract violation
answers a next state, in a run no longer final, is the model's choice (log entry 1), and so is the schedule of `RunsTo`, four
steps in which the events land (log entries 6 and 8). -/
def Obligations.ReadCrcRuns : Prop :=
  ∀ (s : State) (q : Request), s.phase = .busy q .operation → q.op = 0xA#4 → s.link.outstanding = none →
    (∀ r, checkXact s.params q.addr q.len.toNat true = some r →
      Completes .readCrc s (.error (.contractViolation r)) Outputs.noValue) ∧
    (checkXact s.params q.addr q.len.toNat true = none →
      ∀ tx, tx = be16 (0xB#4 ++ q.addr) ++ [lengthField q.addr q.len.toNat] ++ List.replicate q.len.toNat 0x00#8 ++
          [0x00#8, 0x00#8] →
      RunsTo s tx .err (.error (.busError .transport)) Outputs.noValue ∧
      (∀ rx, rx.length ≠ tx.length → RunsTo s tx (.ok rx) (.error (.busError .rxLength)) Outputs.noValue) ∧
      ∀ (x0 x1 x2 hi lo : Byte) (data : Bytes), data.length = q.len.toNat →
        (hi ++ lo ≠ crc16 (tx.take 3 ++ data) →
          RunsTo s tx (.ok ([x0, x1, x2] ++ data ++ [hi, lo])) (.error .integrityError) Outputs.noValue) ∧
        (hi ++ lo = crc16 (tx.take 3 ++ data) →
          RunsTo s tx (.ok ([x0, x1, x2] ++ data ++ [hi, lo])) .ok
            { dout := some { bytes := data, len := q.len }, fout := none, vout := none }))

/-- R138: WRITE_CRC as a whole: contract checks with N, BUF_RANGE first; then one Exchange, of CRC_WR with the bytes
DIN[0..DIN_LEN), whose CRC covers the header, N and the data; BUS_ERROR, or OK whatever the bytes received. That a contract violation
answers a next state, in a run no longer final, is the model's choice (log entry 1), and so is the schedule of `RunsTo`, four
steps in which the events land (log entries 6 and 8). A byte of DIN never written is a free value (log entry 24). -/
def Obligations.WriteCrcRuns : Prop :=
  ∀ (s : State) (q : Request), s.phase = .busy q .operation → q.op = 0xB#4 → s.link.outstanding = none →
    (s.params.bufBytes < q.dinLen.toNat →
      Completes .writeCrc s (.error (.contractViolation .bufRange)) Outputs.noValue) ∧
    (q.dinLen.toNat ≤ s.params.bufBytes →
      (∀ r, checkXact s.params q.addr q.dinLen.toNat true = some r →
        Completes .writeCrc s (.error (.contractViolation r)) Outputs.noValue) ∧
      (checkXact s.params q.addr q.dinLen.toNat true = none → ∃ d, IsSlice q.din q.dinLen.toNat d ∧
        ∀ pre tx, pre = be16 (0xA#4 ++ q.addr) ++ [lengthField q.addr q.dinLen.toNat] ++ d → tx = pre ++ be16 (crc16 pre) →
        RunsTo s tx .err (.error (.busError .transport)) Outputs.noValue ∧
        ∀ rx, (rx.length ≠ tx.length → RunsTo s tx (.ok rx) (.error (.busError .rxLength)) Outputs.noValue) ∧
          (rx.length = tx.length → RunsTo s tx (.ok rx) .ok Outputs.noValue)))

/-- R139: SAFE_READ_CRC as a whole: UNSUPPORTED(SAFE_CMD_UNBOUND) while P_SAFE_CMD is unbound; otherwise as READ_CRC with that
command code, but a response of the wrong length is LENGTH_MISMATCH(RX_LENGTH). That a contract violation
answers a next state, in a run no longer final, is the model's choice (log entry 1), and so is the schedule of `RunsTo`, four
steps in which the events land (log entries 6 and 8). -/
def Obligations.SafeReadCrcRuns : Prop :=
  ∀ (s : State) (q : Request), s.phase = .busy q .operation → q.op = 0xC#4 → s.link.outstanding = none →
    (s.params.safeCmd = none → Completes .safeReadCrc s (.error (.unsupported .safeCmdUnbound)) Outputs.noValue) ∧
    ∀ c, s.params.safeCmd = some c → isSafeCode c = true →
    (∀ r, checkXact s.params q.addr q.len.toNat true = some r →
      Completes .safeReadCrc s (.error (.contractViolation r)) Outputs.noValue) ∧
    (checkXact s.params q.addr q.len.toNat true = none →
      ∀ tx, tx = be16 (c ++ q.addr) ++ [lengthField q.addr q.len.toNat] ++ List.replicate q.len.toNat 0x00#8 ++
          [0x00#8, 0x00#8] →
      RunsTo s tx .err (.error (.busError .transport)) Outputs.noValue ∧
      (∀ rx, rx.length ≠ tx.length → RunsTo s tx (.ok rx) (.error .lengthMismatch) Outputs.noValue) ∧
      ∀ (x0 x1 x2 hi lo : Byte) (data : Bytes), data.length = q.len.toNat →
        (hi ++ lo ≠ crc16 (tx.take 3 ++ data) →
          RunsTo s tx (.ok ([x0, x1, x2] ++ data ++ [hi, lo])) (.error .integrityError) Outputs.noValue) ∧
        (hi ++ lo = crc16 (tx.take 3 ++ data) →
          RunsTo s tx (.ok ([x0, x1, x2] ++ data ++ [hi, lo])) .ok
            { dout := some { bytes := data, len := q.len }, fout := none, vout := none }))

/-- The spec's own inference (R115): where a CRC-protected read would complete OK on a response, it completes INTEGRITY_ERROR, delivering
nothing, on that response with any one bit of its data or CRC bytes flipped. -/
def Obligations.FlippedBitFailsTheIntegrityCheck : Prop :=
  ∀ (s t : State) (i : Instr) (a : Addr) (tx rx : Bytes) (j k : Nat), i = .wireReadCrc a ∨ (∃ c, i = .wireSafeReadCrc c a) →
    s.link.outstanding = some tx → s.link.reply = some (.ok rx) → exec i s = .next t → t.status.last = some .ok →
    3 ≤ j → j < 5 + s.request.len.toNat → k < 8 →
    Completes i { s with link := { s.link with reply := some (.ok (flipBit rx j k)) } } (.error .integrityError)
      Outputs.noValue

/-- R134: the bytes received while FCF sends a header or a length field, and every byte of a write's response, change
nothing. -/
def Obligations.HeaderTimeBytesAreIgnored : Prop :=
  ∀ (s : State) (a : Addr) (c : Cmd) (rx rx' : Bytes), rx.length = rx'.length → s.link.reply = some (.ok rx) →
    (rx.drop 2 = rx'.drop 2 →
      exec (.wireRead a) { s with link := { s.link with reply := some (.ok rx') } } = exec (.wireRead a) s ∨
        s.link.outstanding = none) ∧
    (rx.drop 3 = rx'.drop 3 → ∀ i, i = .wireReadCrc a ∨ i = .wireSafeReadCrc c a →
      exec i { s with link := { s.link with reply := some (.ok rx') } } = exec i s ∨ s.link.outstanding = none) ∧
    (∀ i, i = .wireWrite a ∨ i = .wireWriteCrc a →
      exec i { s with link := { s.link with reply := some (.ok rx') } } = exec i s ∨ s.link.outstanding = none)

/-- R269, R270: with an Exchange outstanding and no answer, no step but the answer or a reset ends the operation: PHASE,
STATUS, the outputs and the Exchange stay as they are. -/
def Obligations.OnlyAnAnswerOrResetEndsTheWait : Prop :=
  ∀ (s t : State) (q : Request) (h : Half) (tx : Bytes), s.phase = .busy q (.command h) → s.link.outstanding = some tx →
    s.link.reply = none → (∀ a es, s.inbox ≠ .answer a :: es) → (∀ es, s.inbox ≠ .reset :: es) → step s = .next t →
    t.phase = s.phase ∧ t.status = s.status ∧ t.out = s.out ∧ t.link = s.link

/-- R132: the transport's answer to the outstanding Exchange is taken, whatever it is, and changes nothing else. (That an answer
with none outstanding is dropped is log entry 10, and not stated here.) -/
def Obligations.AnyAnswerIsTaken : Prop :=
  ∀ (s : State) (a : Answer) (tx : Bytes) (es : List Event), s.inbox = .answer a :: es → s.link.outstanding = some tx →
    s.link.reply = none → step s = .next { s with inbox := es, link := { s.link with reply := some a } }

/-- R59, R142: no step hands over more than one transaction, and none while an Exchange is outstanding; and an Exchange
stays outstanding until the operation it belongs to is over (PHASE = Idle), so Exchanges never overlap and FCF never repeats,
splits or merges one. -/
def Obligations.ExchangesNeverOverlap : Prop :=
  ∀ s t : State, step s = .next t →
    (t.link.sent = s.link.sent ∧
      (t.link.outstanding = s.link.outstanding ∨ (t.link.outstanding = none ∧ t.phase = .idle))) ∨
    ∃ tx, s.link.outstanding = none ∧ t.link.sent = tx :: s.link.sent ∧ t.link.outstanding = some tx

/-! ## Whole-machine rules -/

/-- When the step of a Busy FCF ends the operation, its result is one of its row of R233, a table the spec infers; and the run is
final after it exactly when it was before and the result is not one R243 has a model treat as a fault (log entry 1). The premise
is an invariant of its own (StepEmitsOnlyItsCommands): it rules out a Busy state whose header is not the operation's. -/
def Obligations.OperationEndsWithAResultOfItsRow : Prop :=
  ∀ (s t : State) (q : Request) (st : Stage), EmitsOnlyItsCommands s → s.params.wellFormed = true → s.phase = .busy q st →
    (∀ es, s.inbox ≠ .reset :: es) → step s = .next t → t.phase = .idle →
    ∃ c, t.status.last = some c ∧ t.status.done = true ∧ possibleResult (decodeOp q.op) c = true ∧
      (t.runFinal = true ↔ s.runFinal = true ∧ treatment c ≠ .fault)

/-- R262: no step changes the parameters. -/
def Obligations.ParametersNeverChange : Prop :=
  ∀ s t : State, step s = .next t → t.params = s.params

/-- R29, R31, R35: every step keeps that BUSY mirrors PHASE, that BUSY and DONE are never both 1, and that an Exchange is
outstanding only while a wire command is being carried out. -/
def Obligations.StepKeepsStatusMirrorsPhase : Prop :=
  ∀ s t : State, StatusMirrorsPhase s → step s = .next t → StatusMirrorsPhase t

/-- R27, R28: every step keeps DIN, FIN.PAYLOAD and their latched copies in canonical form and within their capacities. -/
def Obligations.StepKeepsBuffersCanonical : Prop :=
  ∀ s t : State, BuffersCanonical s → step s = .next t → BuffersCanonical t

/-- R62, R130, and the spec's own inference R85: every step keeps that FCF emits only the five command codes, each for its operation, with the latched
address, after its contract check, in its layout; under the invariant that an Exchange is outstanding only in a wire command. -/
def Obligations.StepEmitsOnlyItsCommands : Prop :=
  ∀ s t : State, StatusMirrorsPhase s → EmitsOnlyItsCommands s → step s = .next t → EmitsOnlyItsCommands t

/-- R34, R141, R30, R32, R143: every step keeps that the outputs agree with RESULT, DOUT is within its capacity, FOUT holds a
valid frame, and in a run that is final the last result is no contract violation (log entry 1); under the invariant that a wire
command has passed its contract check, with the parameters in their bounds. -/
def Obligations.StepKeepsOutputsMatchResult : Prop :=
  ∀ s t : State, OutputsMatchResult s → EmitsOnlyItsCommands s → BuffersCanonical s → s.params.wellFormed = true →
    step s = .next t → OutputsMatchResult t

/-- The four invariants and the bounds of the parameters hold at reset (R260; the parameters at reset are log entry 3). -/
def Obligations.ResetMeetsTheInvariants : Prop :=
  StatusMirrorsPhase State.reset ∧ BuffersCanonical State.reset ∧ EmitsOnlyItsCommands State.reset ∧
    OutputsMatchResult State.reset ∧ State.reset.params.wellFormed = true
end

