-- ==== Sys2Proof/Laws/State.lean ====
section
/-! SUPPORT. What each shared update of the state leaves in each field: one lemma per field per update, true by rfl. -/

namespace Sys2Proof.Machine

/-! ## accept -/

@[simp] theorem accept_params (s : State) : (accept s).params = s.params := rfl
@[simp] theorem accept_op (s : State) : (accept s).op = s.op := rfl
@[simp] theorem accept_addr (s : State) : (accept s).addr = s.addr := rfl
@[simp] theorem accept_len (s : State) : (accept s).len = s.len := rfl
@[simp] theorem accept_fin (s : State) : (accept s).fin = s.fin := rfl
@[simp] theorem accept_din (s : State) : (accept s).din = s.din := rfl
@[simp] theorem accept_dinLen (s : State) : (accept s).dinLen = s.dinLen := rfl
@[simp] theorem accept_req (s : State) : (accept s).req = false := rfl
@[simp] theorem accept_written (s : State) : (accept s).written = s.written := rfl
@[simp] theorem accept_phase (s : State) : (accept s).phase = .busy s.snapshot .operation := rfl
@[simp] theorem accept_status (s : State) : (accept s).status = { s.status with busy := true, done := false } := rfl
@[simp] theorem accept_out (s : State) : (accept s).out = s.out := rfl
@[simp] theorem accept_link (s : State) : (accept s).link = s.link := rfl
@[simp] theorem accept_inbox (s : State) : (accept s).inbox = s.inbox := rfl
@[simp] theorem accept_hostData (s : State) : (accept s).hostData = s.hostData := rfl
@[simp] theorem accept_runFinal (s : State) :
    (accept s).runFinal = (s.runFinal && (missingInput (decodeOp s.op) s).isNone) := rfl

/-! ## complete -/

@[simp] theorem complete_params (c : Completion) (o : Outputs) (s : State) : (complete c o s).params = s.params := rfl
@[simp] theorem complete_op (c : Completion) (o : Outputs) (s : State) : (complete c o s).op = s.op := rfl
@[simp] theorem complete_addr (c : Completion) (o : Outputs) (s : State) : (complete c o s).addr = s.addr := rfl
@[simp] theorem complete_len (c : Completion) (o : Outputs) (s : State) : (complete c o s).len = s.len := rfl
@[simp] theorem complete_fin (c : Completion) (o : Outputs) (s : State) : (complete c o s).fin = s.fin := rfl
@[simp] theorem complete_din (c : Completion) (o : Outputs) (s : State) : (complete c o s).din = s.din := rfl
@[simp] theorem complete_dinLen (c : Completion) (o : Outputs) (s : State) : (complete c o s).dinLen = s.dinLen := rfl
@[simp] theorem complete_req (c : Completion) (o : Outputs) (s : State) : (complete c o s).req = s.req := rfl
@[simp] theorem complete_written (c : Completion) (o : Outputs) (s : State) : (complete c o s).written = s.written := rfl
@[simp] theorem complete_phase (c : Completion) (o : Outputs) (s : State) : (complete c o s).phase = .idle := rfl
@[simp] theorem complete_status (c : Completion) (o : Outputs) (s : State) : (complete c o s).status = { busy := false, done := true, last := some c } := rfl
@[simp] theorem complete_out (c : Completion) (o : Outputs) (s : State) : (complete c o s).out = o := rfl
@[simp] theorem complete_link (c : Completion) (o : Outputs) (s : State) : (complete c o s).link = { s.link with outstanding := none, reply := none } := rfl
@[simp] theorem complete_inbox (c : Completion) (o : Outputs) (s : State) : (complete c o s).inbox = s.inbox := rfl
@[simp] theorem complete_hostData (c : Completion) (o : Outputs) (s : State) : (complete c o s).hostData = s.hostData := rfl
@[simp] theorem complete_runFinal (c : Completion) (o : Outputs) (s : State) : (complete c o s).runFinal = (s.runFinal && treatment c != .fault) := rfl

/-! ## completeOk -/

@[simp] theorem completeOk_params (o : Outputs) (s : State) : (completeOk o s).params = s.params := rfl
@[simp] theorem completeOk_op (o : Outputs) (s : State) : (completeOk o s).op = s.op := rfl
@[simp] theorem completeOk_addr (o : Outputs) (s : State) : (completeOk o s).addr = s.addr := rfl
@[simp] theorem completeOk_len (o : Outputs) (s : State) : (completeOk o s).len = s.len := rfl
@[simp] theorem completeOk_fin (o : Outputs) (s : State) : (completeOk o s).fin = s.fin := rfl
@[simp] theorem completeOk_din (o : Outputs) (s : State) : (completeOk o s).din = s.din := rfl
@[simp] theorem completeOk_dinLen (o : Outputs) (s : State) : (completeOk o s).dinLen = s.dinLen := rfl
@[simp] theorem completeOk_req (o : Outputs) (s : State) : (completeOk o s).req = s.req := rfl
@[simp] theorem completeOk_written (o : Outputs) (s : State) : (completeOk o s).written = s.written := rfl
@[simp] theorem completeOk_phase (o : Outputs) (s : State) : (completeOk o s).phase = .idle := rfl
@[simp] theorem completeOk_status (o : Outputs) (s : State) : (completeOk o s).status = { busy := false, done := true, last := some .ok } := rfl
@[simp] theorem completeOk_out (o : Outputs) (s : State) : (completeOk o s).out = o := rfl
@[simp] theorem completeOk_link (o : Outputs) (s : State) : (completeOk o s).link = { s.link with outstanding := none, reply := none } := rfl
@[simp] theorem completeOk_inbox (o : Outputs) (s : State) : (completeOk o s).inbox = s.inbox := rfl
@[simp] theorem completeOk_hostData (o : Outputs) (s : State) : (completeOk o s).hostData = s.hostData := rfl
@[simp] theorem completeOk_runFinal (o : Outputs) (s : State) : (completeOk o s).runFinal = s.runFinal := by simp [completeOk, complete, treatment]

/-! ## raise -/

@[simp] theorem raise_params (e : ErrorCode) (s : State) : (raise e s).params = s.params := rfl
@[simp] theorem raise_op (e : ErrorCode) (s : State) : (raise e s).op = s.op := rfl
@[simp] theorem raise_addr (e : ErrorCode) (s : State) : (raise e s).addr = s.addr := rfl
@[simp] theorem raise_len (e : ErrorCode) (s : State) : (raise e s).len = s.len := rfl
@[simp] theorem raise_fin (e : ErrorCode) (s : State) : (raise e s).fin = s.fin := rfl
@[simp] theorem raise_din (e : ErrorCode) (s : State) : (raise e s).din = s.din := rfl
@[simp] theorem raise_dinLen (e : ErrorCode) (s : State) : (raise e s).dinLen = s.dinLen := rfl
@[simp] theorem raise_req (e : ErrorCode) (s : State) : (raise e s).req = s.req := rfl
@[simp] theorem raise_written (e : ErrorCode) (s : State) : (raise e s).written = s.written := rfl
@[simp] theorem raise_phase (e : ErrorCode) (s : State) : (raise e s).phase = .idle := rfl
@[simp] theorem raise_status (e : ErrorCode) (s : State) : (raise e s).status = { busy := false, done := true, last := some (.error e) } := rfl
@[simp] theorem raise_out (e : ErrorCode) (s : State) : (raise e s).out = Outputs.noValue := rfl
@[simp] theorem raise_link (e : ErrorCode) (s : State) : (raise e s).link = { s.link with outstanding := none, reply := none } := rfl
@[simp] theorem raise_inbox (e : ErrorCode) (s : State) : (raise e s).inbox = s.inbox := rfl
@[simp] theorem raise_hostData (e : ErrorCode) (s : State) : (raise e s).hostData = s.hostData := rfl
@[simp] theorem raise_runFinal (e : ErrorCode) (s : State) : (raise e s).runFinal = (s.runFinal && treatment (.error e) != .fault) := rfl

/-! ## issue -/

@[simp] theorem issue_params (c : Cmd) (s : State) : (issue c s).params = s.params := rfl
@[simp] theorem issue_op (c : Cmd) (s : State) : (issue c s).op = s.op := rfl
@[simp] theorem issue_addr (c : Cmd) (s : State) : (issue c s).addr = s.addr := rfl
@[simp] theorem issue_len (c : Cmd) (s : State) : (issue c s).len = s.len := rfl
@[simp] theorem issue_fin (c : Cmd) (s : State) : (issue c s).fin = s.fin := rfl
@[simp] theorem issue_din (c : Cmd) (s : State) : (issue c s).din = s.din := rfl
@[simp] theorem issue_dinLen (c : Cmd) (s : State) : (issue c s).dinLen = s.dinLen := rfl
@[simp] theorem issue_req (c : Cmd) (s : State) : (issue c s).req = s.req := rfl
@[simp] theorem issue_written (c : Cmd) (s : State) : (issue c s).written = s.written := rfl
@[simp] theorem issue_phase (c : Cmd) (s : State) : (issue c s).phase = .busy s.request (.command (header c s.request.addr)) := rfl
@[simp] theorem issue_status (c : Cmd) (s : State) : (issue c s).status = { s.status with busy := true, done := false } := rfl
@[simp] theorem issue_out (c : Cmd) (s : State) : (issue c s).out = s.out := rfl
@[simp] theorem issue_link (c : Cmd) (s : State) : (issue c s).link = s.link := rfl
@[simp] theorem issue_inbox (c : Cmd) (s : State) : (issue c s).inbox = s.inbox := rfl
@[simp] theorem issue_hostData (c : Cmd) (s : State) : (issue c s).hostData = s.hostData := rfl
@[simp] theorem issue_runFinal (c : Cmd) (s : State) : (issue c s).runFinal = s.runFinal := rfl

/-! ## emit -/

@[simp] theorem emit_params (tx : Bytes) (s : State) : (emit tx s).params = s.params := rfl
@[simp] theorem emit_op (tx : Bytes) (s : State) : (emit tx s).op = s.op := rfl
@[simp] theorem emit_addr (tx : Bytes) (s : State) : (emit tx s).addr = s.addr := rfl
@[simp] theorem emit_len (tx : Bytes) (s : State) : (emit tx s).len = s.len := rfl
@[simp] theorem emit_fin (tx : Bytes) (s : State) : (emit tx s).fin = s.fin := rfl
@[simp] theorem emit_din (tx : Bytes) (s : State) : (emit tx s).din = s.din := rfl
@[simp] theorem emit_dinLen (tx : Bytes) (s : State) : (emit tx s).dinLen = s.dinLen := rfl
@[simp] theorem emit_req (tx : Bytes) (s : State) : (emit tx s).req = s.req := rfl
@[simp] theorem emit_written (tx : Bytes) (s : State) : (emit tx s).written = s.written := rfl
@[simp] theorem emit_phase (tx : Bytes) (s : State) : (emit tx s).phase = s.phase := rfl
@[simp] theorem emit_status (tx : Bytes) (s : State) : (emit tx s).status = s.status := rfl
@[simp] theorem emit_out (tx : Bytes) (s : State) : (emit tx s).out = s.out := rfl
@[simp] theorem emit_link (tx : Bytes) (s : State) : (emit tx s).link = { outstanding := some tx, reply := none, sent := tx :: s.link.sent } := rfl
@[simp] theorem emit_inbox (tx : Bytes) (s : State) : (emit tx s).inbox = s.inbox := rfl
@[simp] theorem emit_hostData (tx : Bytes) (s : State) : (emit tx s).hostData = s.hostData := rfl
@[simp] theorem emit_runFinal (tx : Bytes) (s : State) : (emit tx s).runFinal = s.runFinal := rfl

/-! ## resetFcf -/

@[simp] theorem resetFcf_params (s : State) : (resetFcf s).params = s.params := rfl
@[simp] theorem resetFcf_op (s : State) : (resetFcf s).op = 0#4 := rfl
@[simp] theorem resetFcf_addr (s : State) : (resetFcf s).addr = 0#12 := rfl
@[simp] theorem resetFcf_len (s : State) : (resetFcf s).len = 0#16 := rfl
@[simp] theorem resetFcf_fin (s : State) : (resetFcf s).fin = State.reset.fin := rfl
@[simp] theorem resetFcf_din (s : State) : (resetFcf s).din = [] := rfl
@[simp] theorem resetFcf_dinLen (s : State) : (resetFcf s).dinLen = 0#16 := rfl
@[simp] theorem resetFcf_req (s : State) : (resetFcf s).req = false := rfl
@[simp] theorem resetFcf_written (s : State) : (resetFcf s).written = [] := rfl
@[simp] theorem resetFcf_phase (s : State) : (resetFcf s).phase = .idle := rfl
@[simp] theorem resetFcf_status (s : State) : (resetFcf s).status = { busy := false, done := false, last := none } := rfl
@[simp] theorem resetFcf_out (s : State) : (resetFcf s).out = Outputs.noValue := rfl
@[simp] theorem resetFcf_link (s : State) : (resetFcf s).link = { outstanding := none, reply := none, sent := s.link.sent } := rfl
@[simp] theorem resetFcf_inbox (s : State) : (resetFcf s).inbox = s.inbox := rfl
@[simp] theorem resetFcf_hostData (s : State) : (resetFcf s).hostData = s.hostData := rfl
@[simp] theorem resetFcf_runFinal (s : State) : (resetFcf s).runFinal = s.runFinal := rfl

/-! ## markWritten -/

@[simp] theorem markWritten_params (r : InputReg) (s : State) : (markWritten r s).params = s.params := rfl
@[simp] theorem markWritten_op (r : InputReg) (s : State) : (markWritten r s).op = s.op := rfl
@[simp] theorem markWritten_addr (r : InputReg) (s : State) : (markWritten r s).addr = s.addr := rfl
@[simp] theorem markWritten_len (r : InputReg) (s : State) : (markWritten r s).len = s.len := rfl
@[simp] theorem markWritten_fin (r : InputReg) (s : State) : (markWritten r s).fin = s.fin := rfl
@[simp] theorem markWritten_din (r : InputReg) (s : State) : (markWritten r s).din = s.din := rfl
@[simp] theorem markWritten_dinLen (r : InputReg) (s : State) : (markWritten r s).dinLen = s.dinLen := rfl
@[simp] theorem markWritten_req (r : InputReg) (s : State) : (markWritten r s).req = s.req := rfl
@[simp] theorem markWritten_written (r : InputReg) (s : State) : (markWritten r s).written = if s.written.contains r then s.written else r :: s.written := rfl
@[simp] theorem markWritten_phase (r : InputReg) (s : State) : (markWritten r s).phase = s.phase := rfl
@[simp] theorem markWritten_status (r : InputReg) (s : State) : (markWritten r s).status = s.status := rfl
@[simp] theorem markWritten_out (r : InputReg) (s : State) : (markWritten r s).out = s.out := rfl
@[simp] theorem markWritten_link (r : InputReg) (s : State) : (markWritten r s).link = s.link := rfl
@[simp] theorem markWritten_inbox (r : InputReg) (s : State) : (markWritten r s).inbox = s.inbox := rfl
@[simp] theorem markWritten_hostData (r : InputReg) (s : State) : (markWritten r s).hostData = s.hostData := rfl
@[simp] theorem markWritten_runFinal (r : InputReg) (s : State) : (markWritten r s).runFinal = s.runFinal := rfl

/-! ## raiseReq -/

@[simp] theorem raiseReq_params (s : State) : (raiseReq s).params = s.params := rfl
@[simp] theorem raiseReq_op (s : State) : (raiseReq s).op = s.op := rfl
@[simp] theorem raiseReq_addr (s : State) : (raiseReq s).addr = s.addr := rfl
@[simp] theorem raiseReq_len (s : State) : (raiseReq s).len = s.len := rfl
@[simp] theorem raiseReq_fin (s : State) : (raiseReq s).fin = s.fin := rfl
@[simp] theorem raiseReq_din (s : State) : (raiseReq s).din = s.din := rfl
@[simp] theorem raiseReq_dinLen (s : State) : (raiseReq s).dinLen = s.dinLen := rfl
@[simp] theorem raiseReq_req (s : State) : (raiseReq s).req = true := rfl
@[simp] theorem raiseReq_written (s : State) : (raiseReq s).written = s.written := rfl
@[simp] theorem raiseReq_phase (s : State) : (raiseReq s).phase = s.phase := rfl
@[simp] theorem raiseReq_status (s : State) : (raiseReq s).status = s.status := rfl
@[simp] theorem raiseReq_out (s : State) : (raiseReq s).out = s.out := rfl
@[simp] theorem raiseReq_link (s : State) : (raiseReq s).link = s.link := rfl
@[simp] theorem raiseReq_inbox (s : State) : (raiseReq s).inbox = s.inbox := rfl
@[simp] theorem raiseReq_hostData (s : State) : (raiseReq s).hostData = s.hostData := rfl
@[simp] theorem raiseReq_runFinal (s : State) : (raiseReq s).runFinal = s.runFinal := rfl

/-! ## readOutput -/

@[simp] theorem readOutput_params (r : OutputRead) (s : State) : (readOutput r s).params = s.params := rfl
@[simp] theorem readOutput_op (r : OutputRead) (s : State) : (readOutput r s).op = s.op := rfl
@[simp] theorem readOutput_addr (r : OutputRead) (s : State) : (readOutput r s).addr = s.addr := rfl
@[simp] theorem readOutput_len (r : OutputRead) (s : State) : (readOutput r s).len = s.len := rfl
@[simp] theorem readOutput_fin (r : OutputRead) (s : State) : (readOutput r s).fin = s.fin := rfl
@[simp] theorem readOutput_din (r : OutputRead) (s : State) : (readOutput r s).din = s.din := rfl
@[simp] theorem readOutput_dinLen (r : OutputRead) (s : State) : (readOutput r s).dinLen = s.dinLen := rfl
@[simp] theorem readOutput_req (r : OutputRead) (s : State) : (readOutput r s).req = s.req := rfl
@[simp] theorem readOutput_written (r : OutputRead) (s : State) : (readOutput r s).written = s.written := rfl
@[simp] theorem readOutput_phase (r : OutputRead) (s : State) : (readOutput r s).phase = s.phase := rfl
@[simp] theorem readOutput_status (r : OutputRead) (s : State) : (readOutput r s).status = s.status := rfl
@[simp] theorem readOutput_out (r : OutputRead) (s : State) : (readOutput r s).out = s.out := rfl
@[simp] theorem readOutput_link (r : OutputRead) (s : State) : (readOutput r s).link = s.link := rfl
@[simp] theorem readOutput_inbox (r : OutputRead) (s : State) : (readOutput r s).inbox = s.inbox := rfl
@[simp] theorem readOutput_hostData (r : OutputRead) (s : State) : (readOutput r s).hostData = outputValue r s := rfl
@[simp] theorem readOutput_runFinal (r : OutputRead) (s : State) :
    (readOutput r s).runFinal = (s.runFinal && (outputValue r s).isSome) := rfl

/-! ## The latched request -/

theorem request_of_busy {s : State} {q : Request} {st : Stage} (h : s.phase = .busy q st) : s.request = q := by
  simp [State.request, h]

theorem request_of_idle {s : State} (h : s.phase = .idle) : s.request = s.snapshot := by
  simp [State.request, h]

@[simp] theorem request_with_inbox (s : State) (es : List Event) : { s with inbox := es }.request = s.request := rfl

@[simp] theorem emit_request (tx : Bytes) (s : State) : (emit tx s).request = s.request := rfl

@[simp] theorem issue_request (c : Cmd) (s : State) : (issue c s).request = s.request := rfl

end Sys2Proof.Machine
end

