-- ==== Sys2Proof/Laws/Memory.lean ====
section
/-! SUPPORT. The laws of byte buffers: read after write, the canonical form, and the bytes of a slice. -/

namespace Sys2Proof.Machine

@[simp] theorem Memory.read_nil (i : Nat) : Memory.read [] i = none := rfl

theorem Memory.read_write (m : Memory) (i j : Nat) (b : Byte) :
    (m.write i b).read j = if j = i then some b else m.read j := by
  induction m with
  | nil => simp [Memory.write, Memory.read]
  | cons c m ih =>
    obtain ⟨k, d⟩ := c
    unfold Memory.write
    split
    · simp [Memory.read]
    · split
      · rename_i h
        subst h
        simp only [Memory.read]
        split <;> rfl
      · simp only [Memory.read, ih]
        split
        · rename_i h1 h2 h3
          subst h3
          rw [if_neg (Ne.symm h2)]
        · rfl

theorem Memory.read_write_same (m : Memory) (i : Nat) (b : Byte) : (m.write i b).read i = some b := by
  simp [Memory.read_write]

theorem Memory.read_write_other (m : Memory) {i j : Nat} (b : Byte) (h : j ≠ i) : (m.write i b).read j = m.read j := by
  simp [Memory.read_write, h]

/-- The canonical form of a nonempty buffer: the rest is canonical and lies above the first index. -/
theorem Memory.wf_cons (k : Nat) (d : Byte) (m : Memory) :
    Memory.wf ((k, d) :: m) = true ↔ (∀ c ∈ m, k < c.1) ∧ Memory.wf m = true := by
  induction m generalizing k d with
  | nil => simp [Memory.wf]
  | cons c m ih =>
    obtain ⟨j, e⟩ := c
    simp only [Memory.wf, Bool.and_eq_true, decide_eq_true_eq, List.mem_cons, forall_eq_or_imp]
    constructor
    · rintro ⟨hkj, hw⟩
      exact ⟨⟨hkj, fun c hc => hkj.trans ((ih j e).1 hw |>.1 c hc)⟩, hw⟩
    · rintro ⟨⟨hkj, _⟩, hw⟩
      exact ⟨hkj, hw⟩

theorem Memory.mem_write {m : Memory} {i : Nat} {b : Byte} {c : Host.Cell} (h : c ∈ m.write i b) :
    c = (i, b) ∨ c ∈ m := by
  induction m with
  | nil => simpa [Memory.write] using h
  | cons d m ih =>
    obtain ⟨k, e⟩ := d
    unfold Memory.write at h
    split at h
    · simpa using h
    · split at h
      · rcases List.mem_cons.1 h with h | h
        · exact .inl h
        · exact .inr (List.mem_cons_of_mem _ h)
      · rcases List.mem_cons.1 h with h | h
        · exact .inr (h ▸ List.mem_cons_self)
        · exact (ih h).imp id (List.mem_cons_of_mem _)

/-- A write keeps the canonical form. -/
theorem Memory.write_wf {m : Memory} (i : Nat) (b : Byte) (h : Memory.wf m = true) : (m.write i b).wf = true := by
  induction m with
  | nil => rfl
  | cons c m ih =>
    obtain ⟨k, d⟩ := c
    have hk := (Memory.wf_cons k d m).1 h
    unfold Memory.write
    split
    · exact (Memory.wf_cons _ _ _).2 ⟨by
        intro c hc
        rcases List.mem_cons.1 hc with rfl | hc
        · assumption
        · exact lt_trans (by assumption) (hk.1 c hc), h⟩
    · split
      · rename_i heq
        subst heq
        exact (Memory.wf_cons _ _ _).2 hk
      · refine (Memory.wf_cons _ _ _).2 ⟨fun c hc => ?_, ih hk.2⟩
        rcases Memory.mem_write hc with rfl | hc
        · simp only; omega
        · exact hk.1 c hc

/-- A write within the capacity stays within it. -/
theorem Below.write {n : Nat} {m : Memory} {i : Nat} (b : Byte) (hi : i < n) (h : Below n m) : Below n (m.write i b) := by
  intro c hc
  rcases Memory.mem_write hc with rfl | hc
  · exact hi
  · exact h c hc

/-! ## Slices -/

theorem Memory.bytesFrom_length {m : Memory} {n i : Nat} {bs : Bytes} (h : m.bytesFrom i n = some bs) : bs.length = n := by
  induction n generalizing i bs with
  | zero => simp [Memory.bytesFrom] at h; simp [← h]
  | succ n ih =>
    unfold Memory.bytesFrom at h
    split at h
    · rename_i b cs _ hcs
      cases h
      simp [ih hcs]
    · cases h

/-- A slice has as many bytes as it is long. -/
theorem Memory.bytes_length {m : Memory} {n : Nat} {bs : Bytes} (h : m.bytes n = some bs) : bs.length = n :=
  Memory.bytesFrom_length h

theorem Memory.bytesFrom_getElem {m : Memory} {n i : Nat} {bs : Bytes} (h : m.bytesFrom i n = some bs) {j : Nat}
    (hj : j < n) : bs[j]? = m.read (i + j) := by
  induction n generalizing i bs j with
  | zero => omega
  | succ n ih =>
    unfold Memory.bytesFrom at h
    split at h
    · rename_i b cs hb hcs
      cases h
      cases j with
      | zero => simp [hb]
      | succ j => simpa [Nat.add_assoc, Nat.add_comm 1 j] using ih hcs (Nat.lt_of_succ_lt_succ hj)
    · cases h

/-- Byte `j` of a slice is the byte at index `j`. -/
theorem Memory.bytes_getElem {m : Memory} {n : Nat} {bs : Bytes} (h : m.bytes n = some bs) {j : Nat} (hj : j < n) :
    bs[j]? = m.read j := by
  simpa using Memory.bytesFrom_getElem h hj

theorem Memory.bytesFrom_isSome {m : Memory} {n i : Nat} :
    (m.bytesFrom i n).isSome = true ↔ ∀ j, j < n → (m.read (i + j)).isSome = true := by
  induction n generalizing i with
  | zero => simp [Memory.bytesFrom]
  | succ n ih =>
    have key : (m.bytesFrom i (n + 1)).isSome = true ↔
        (m.read i).isSome = true ∧ (m.bytesFrom (i + 1) n).isSome = true := by
      cases h1 : m.read i <;> cases h2 : m.bytesFrom (i + 1) n <;> simp [Memory.bytesFrom, h1, h2]
    rw [key, ih]
    constructor
    · rintro ⟨h0, h⟩ j hj
      cases j with
      | zero => simpa using h0
      | succ j => simpa [Nat.add_assoc, Nat.add_comm 1 j] using h j (by omega)
    · intro h
      exact ⟨by simpa using h 0 (by omega), fun j hj => by
        simpa [Nat.add_assoc, Nat.add_comm 1 j] using h (j + 1) (by omega)⟩

/-- A slice has a value exactly when every byte of it has been written. -/
theorem Memory.bytes_isSome {m : Memory} {n : Nat} :
    (m.bytes n).isSome = true ↔ ∀ j, j < n → (m.read j).isSome = true := by
  simpa [Memory.bytes] using Memory.bytesFrom_isSome (m := m) (n := n) (i := 0)

@[simp] theorem Memory.slice_length (free : Nat → Byte) (m : Memory) (n : Nat) : (m.slice free n).length = n := by
  simp [Memory.slice]

theorem Memory.byteAt_of_read {free : Nat → Byte} {m : Memory} {i : Nat} {b : Byte} (h : m.read i = some b) :
    m.byteAt free i = b := by
  simp [Memory.byteAt, h]

/-- Byte `j` of the slice an operation reads. -/
theorem Memory.slice_getElem (free : Nat → Byte) (m : Memory) {n j : Nat} (hj : j < n) :
    (m.slice free n)[j]? = some (m.byteAt free j) := by
  simp [Memory.slice, hj]

/-- What an operation reads is the slice: every byte written, and a free value for the rest. -/
theorem Memory.slice_isSlice (free : Nat → Byte) (m : Memory) (n : Nat) : IsSlice m n (m.slice free n) :=
  ⟨Memory.slice_length free m n, fun _ _ hj hr => by rw [Memory.slice_getElem free m hj, Memory.byteAt_of_read hr]⟩

theorem Request.data_isSlice (q : Request) : IsSlice q.din q.dinLen.toNat q.data := Memory.slice_isSlice _ _ _

theorem Request.payload_isSlice (q : Request) : IsSlice q.fin.payload q.fin.plen.toNat q.payload :=
  Memory.slice_isSlice _ _ _

/-- Where every byte has been written there is one slice: the bytes written. -/
theorem isSlice_eq_of_bytes {m : Memory} {n : Nat} {bs ds : Bytes} (hd : IsSlice m n ds) (h : m.bytes n = some bs) :
    ds = bs := by
  have hs : (m.bytes n).isSome = true := by rw [h]; rfl
  apply List.ext_getElem?
  intro j
  by_cases hj : j < n
  · obtain ⟨b, hr⟩ := Option.isSome_iff_exists.1 (Memory.bytes_isSome.1 hs j hj)
    rw [hd.written j b hj hr, Memory.bytes_getElem h hj, hr]
  · rw [List.getElem?_eq_none (by rw [hd.length]; omega), List.getElem?_eq_none (by rw [Memory.bytes_length h]; omega)]

theorem Request.data_of_bytes {q : Request} {bs : Bytes} (h : q.din.bytes q.dinLen.toNat = some bs) : q.data = bs :=
  isSlice_eq_of_bytes q.data_isSlice h

theorem Request.payload_of_bytes {q : Request} {bs : Bytes} (h : q.fin.payload.bytes q.fin.plen.toNat = some bs) :
    q.payload = bs := isSlice_eq_of_bytes q.payload_isSlice h

theorem reset_buffers_wf : State.reset.din.wf = true ∧ State.reset.fin.payload.wf = true := ⟨rfl, rfl⟩

end Sys2Proof.Machine
end

