-- ==== Sys2Proof/Laws/Ops.lean ====
section
/-! SUPPORT. What each shared operation can do, said once: the completion and its two forms, issuing a wire command, handing
over a transaction, the response check, the Exchange, the answer, the host's port; and the inversion of `exec`. -/

namespace Sys2Proof.Machine

open Sys2Proof

/-! ## Completion (R29, R34, R235) -/

/-- R243: the results a model treats as a fault are the contract violations. -/
theorem treatment_eq_fault {c : Completion} : treatment c = .fault ↔ ∃ r, c = .error (.contractViolation r) := by
  rcases c with _ | _ | _ | _ | _ | _ | _ <;> simp [treatment]

theorem complete_completedAs (c : Completion) (o : Outputs) (s : State) : CompletedAs c o s (complete c o s) :=
  ⟨rfl, rfl, rfl, rfl, rfl, rfl, rfl, rfl, rfl, ⟨rfl, rfl, rfl, rfl, rfl, rfl, rfl, rfl, rfl, rfl, rfl⟩⟩

theorem completeOk_completedAs (o : Outputs) (s : State) : CompletedAs .ok o s (completeOk o s) :=
  complete_completedAs .ok o s

theorem raise_completedAs (e : ErrorCode) (s : State) : CompletedAs (.error e) Outputs.noValue s (raise e s) :=
  complete_completedAs (.error e) Outputs.noValue s

theorem issue_issuedAs (c : Cmd) (s : State) : IssuedAs s.request (header c s.request.addr) s (issue c s) :=
  ⟨rfl, rfl, rfl, rfl, rfl, rfl, rfl, ⟨rfl, rfl, rfl, rfl, rfl, rfl, rfl, rfl, rfl, rfl, rfl⟩⟩

theorem emit_sentAs (tx : Bytes) (s : State) : SentAs tx s (emit tx s) :=
  ⟨rfl, rfl, rfl, rfl, rfl, rfl, rfl, ⟨rfl, rfl, rfl, rfl, rfl, rfl, rfl, rfl, rfl, rfl, rfl⟩⟩

/-! ## The response check (R132, R133) -/

@[simp] theorem checkReply_err (e : ErrorCode) (tx : Bytes) : checkReply e tx .err = .error (.busError .transport) := rfl

theorem checkReply_length {e : ErrorCode} {tx rx : Bytes} (h : rx.length = tx.length) : checkReply e tx (.ok rx) = .ok rx := by
  simp [checkReply, h]

theorem checkReply_wrongLength {e : ErrorCode} {tx rx : Bytes} (h : rx.length ≠ tx.length) :
    checkReply e tx (.ok rx) = .error e := by
  simp [checkReply, h]

/-- The response check answers Err, or the error of the operation for a wrong length, or the bytes of a response as long as
tx. -/
theorem checkReply_cases (e : ErrorCode) (tx : Bytes) (a : Answer) :
    checkReply e tx a = .error (.busError .transport) ∨ checkReply e tx a = .error e ∨
      ∃ rx, a = .ok rx ∧ rx.length = tx.length ∧ checkReply e tx a = .ok rx := by
  cases a with
  | err => exact .inl rfl
  | ok rx =>
    by_cases h : rx.length = tx.length
    · exact .inr (.inr ⟨rx, rfl, h, checkReply_length h⟩)
    · exact .inr (.inl (checkReply_wrongLength h))

/-! ## The Exchange (R130 phases 3 to 6, R270) -/

theorem exchange_emits {tx : Bytes} {f : Bytes → Answer → State} {s : State} (h : s.link.outstanding = none) :
    exchange tx f s = .next (emit tx s) := by
  simp [exchange, h]

theorem exchange_waits {tx : Bytes} {f : Bytes → Answer → State} {s : State} {bs : Bytes}
    (h : s.link.outstanding = some bs) (hr : s.link.reply = none) : exchange tx f s = .next s := by
  simp [exchange, h, hr]

theorem exchange_finishes {tx : Bytes} {f : Bytes → Answer → State} {s : State} {bs : Bytes} {a : Answer}
    (h : s.link.outstanding = some bs) (hr : s.link.reply = some a) : exchange tx f s = .next (f bs a) := by
  simp [exchange, h, hr]

/-- A move of the Exchange never stops. -/
theorem exchange_next (tx : Bytes) (f : Bytes → Answer → State) (s : State) : ∃ t, exchange tx f s = .next t := by
  unfold exchange
  split
  · exact ⟨_, rfl⟩
  · split <;> exact ⟨_, rfl⟩

/-- The five wire commands, with the Exchange answered. -/
theorem exec_wireRead_finishes {a : Addr} {s : State} {tx : Bytes} {ans : Answer} (h : s.link.outstanding = some tx)
    (hr : s.link.reply = some ans) : exec (.wireRead a) s = .next (finishRead s.request.readCount s tx ans) := by
  simp only [exec, execWireRead]; rw [exchange_finishes h hr]

theorem exec_wireWrite_finishes {a : Addr} {s : State} {tx : Bytes} {ans : Answer} (h : s.link.outstanding = some tx)
    (hr : s.link.reply = some ans) : exec (.wireWrite a) s = .next (finishWrite s tx ans) := by
  simp only [exec, execWireWrite]; rw [exchange_finishes h hr]

theorem exec_wireReadCrc_finishes {a : Addr} {s : State} {tx : Bytes} {ans : Answer} (h : s.link.outstanding = some tx)
    (hr : s.link.reply = some ans) :
    exec (.wireReadCrc a) s = .next (finishReadCrc (.busError .rxLength) s.request.readCount s tx ans) := by
  simp only [exec, execWireReadCrc]; rw [exchange_finishes h hr]

theorem exec_wireWriteCrc_finishes {a : Addr} {s : State} {tx : Bytes} {ans : Answer} (h : s.link.outstanding = some tx)
    (hr : s.link.reply = some ans) : exec (.wireWriteCrc a) s = .next (finishWrite s tx ans) := by
  simp only [exec, execWireWriteCrc]; rw [exchange_finishes h hr]

theorem exec_wireSafeReadCrc_finishes {c : Cmd} {a : Addr} {s : State} {tx : Bytes} {ans : Answer}
    (h : s.link.outstanding = some tx) (hr : s.link.reply = some ans) :
    exec (.wireSafeReadCrc c a) s = .next (finishReadCrc .lengthMismatch s.request.readCount s tx ans) := by
  simp only [exec, execWireSafeReadCrc]; rw [exchange_finishes h hr]

/-- One move of the Exchange hands the transaction over, or waits, or finishes. -/
theorem exchange_cases {tx : Bytes} {f : Bytes → Answer → State} {s t : State} (h : exchange tx f s = .next t) :
    (s.link.outstanding = none ∧ t = emit tx s) ∨
    (∃ bs, s.link.outstanding = some bs ∧ s.link.reply = none ∧ t = s) ∨
    (∃ bs a, s.link.outstanding = some bs ∧ s.link.reply = some a ∧ t = f bs a) := by
  unfold exchange at h
  split at h
  · rename_i ho
    cases h; exact .inl ⟨ho, rfl⟩
  · rename_i bs ho
    split at h
    · rename_i hr
      cases h; exact .inr (.inl ⟨bs, ho, hr, rfl⟩)
    · rename_i a hr
      cases h; exact .inr (.inr ⟨bs, a, ho, hr, rfl⟩)

/-! ## How an operation ends -/

/-- The operation a wire command ends. -/
def operationOf : Instr → Instr
  | .wireRead _ => .read
  | .wireWrite _ => .write
  | .wireReadCrc _ => .readCrc
  | .wireWriteCrc _ => .writeCrc
  | .wireSafeReadCrc _ _ => .safeReadCrc
  | i => i

/-- What the ends of all operations have in common: with an error, no output holds a value; with OK, at most one does, and
it is a frame image, a byte string no longer than the request's count (only from the wire command of a read),
a valid frame, or a 16-bit value. -/
inductive GoodEnd (i : Instr) (q : Request) : Completion → Outputs → Prop where
  | error (e : ErrorCode) : GoodEnd i q (.error e) Outputs.noValue
  | nothing : GoodEnd i q .ok Outputs.noValue
  | image {h : FrameHeader} {p : Bytes} : GoodEnd i q .ok (.ofDout (frameImage h p))
  | data {bs : Bytes} (hw : ∃ c a, i = .wireRead a ∨ i = .wireReadCrc a ∨ i = .wireSafeReadCrc c a)
      (h : bs.length ≤ q.readCount) : GoodEnd i q .ok (.ofDout bs)
  | frame {f : FoutReg} {b : Bytes} (h : decodeImage b = .ok f) : GoodEnd i q .ok (.ofFout f)
  | value (v : Half) : GoodEnd i q .ok (.ofVout v)

theorem finishRead_cases (n : Nat) (s : State) (tx : Bytes) (a : Answer) :
    (∃ r, finishRead n s tx a = raise (.busError r) s) ∨
    ∃ rx, a = .ok rx ∧ rx.length = tx.length ∧ finishRead n s tx a = completeOk (.ofDout ((rx.drop 2).take n)) s := by
  rcases checkReply_cases (.busError .rxLength) tx a with h | h | ⟨rx, ha, hl, h⟩
  · exact .inl ⟨.transport, by simp [finishRead, h]⟩
  · exact .inl ⟨.rxLength, by simp [finishRead, h]⟩
  · exact .inr ⟨rx, ha, hl, by simp [finishRead, h]⟩

theorem finishWrite_cases (s : State) (tx : Bytes) (a : Answer) :
    (∃ r, finishWrite s tx a = raise (.busError r) s) ∨
    ∃ rx, a = .ok rx ∧ rx.length = tx.length ∧ finishWrite s tx a = completeOk Outputs.noValue s := by
  rcases checkReply_cases (.busError .rxLength) tx a with h | h | ⟨rx, ha, hl, h⟩
  · exact .inl ⟨.transport, by simp [finishWrite, h]⟩
  · exact .inl ⟨.rxLength, by simp [finishWrite, h]⟩
  · exact .inr ⟨rx, ha, hl, by simp [finishWrite, h]⟩

theorem finishReadCrc_cases (e : ErrorCode) (n : Nat) (s : State) (tx : Bytes) (a : Answer) :
    finishReadCrc e n s tx a = raise (.busError .transport) s ∨ finishReadCrc e n s tx a = raise e s ∨
    finishReadCrc e n s tx a = raise .integrityError s ∨
    ∃ rx, a = .ok rx ∧ rx.length = tx.length ∧
      crcReceived n rx = some (crc16 (tx.take 3 ++ (rx.drop 3).take n)) ∧
      finishReadCrc e n s tx a = completeOk (.ofDout ((rx.drop 3).take n)) s := by
  rcases checkReply_cases e tx a with h | h | ⟨rx, ha, hl, h⟩
  · exact .inl (by simp [finishReadCrc, h])
  · exact .inr (.inl (by simp [finishReadCrc, h]))
  · by_cases hc : crcReceived n rx = some (crc16 (tx.take 3 ++ (rx.drop 3).take n))
    · exact .inr (.inr (.inr ⟨rx, ha, hl, hc, by simp [finishReadCrc, h, hc]⟩))
    · exact .inr (.inr (.inl (by simp [finishReadCrc, h, hc])))

/-! ## What one instruction can do -/

/-- The four moves of an instruction: it completes, it issues its wire command after its checks, it hands over the
transaction of the wire command, or it waits for the transport. -/
inductive Move (i : Instr) (s : State) : State → Prop where
  | ends (c : Completion) (o : Outputs) (hg : GoodEnd i s.request c o)
      (hc : possibleResult (operationOf i) c = true) : Move i s (complete c o s)
  | issues (c : Cmd) (hc : emittedBy s.params i = some c) (hx : contractCheck s.params i s.request = none) :
      Move i s (issue c s)
  | emits (tx : Bytes) (ht : transactionOf s.request i = some tx) (ho : s.link.outstanding = none) : Move i s (emit tx s)
  | waits (tx : Bytes) (ho : s.link.outstanding = some tx) (hr : s.link.reply = none) : Move i s s

theorem Move.raises {i : Instr} {s : State} (e : ErrorCode) (h : possibleResult (operationOf i) (.error e) = true) :
    Move i s (raise e s) := .ends _ _ (.error e) h

theorem exec_frameEncode_cases {s t : State} (h : execFrameEncode s = .next t) : Move .frameEncode s t := by
  unfold execFrameEncode at h
  split at h
  · cases h; exact .raises _ rfl
  · split at h
    · cases h; exact .raises _ rfl
    · cases h; exact .ends _ _ .image rfl

theorem exec_frameDecode_cases {s t : State} (h : execFrameDecode s = .next t) : Move .frameDecode s t := by
  unfold execFrameDecode at h
  split at h
  · cases h; exact .raises _ rfl
  · split at h
    · cases h; exact .raises _ rfl
    · rename_i hf
      cases h; exact .ends _ _ (.frame hf) rfl

theorem exec_crc16_cases {s t : State} (h : execCrc16 s = .next t) : Move .crc16 s t := by
  unfold execCrc16 at h
  split at h
  · cases h; exact .raises _ rfl
  · cases h; exact .ends _ _ (.value _) rfl

theorem exec_read_cases {s t : State} (h : execRead s = .next t) : Move .read s t := by
  unfold execRead at h
  split at h
  · cases h; exact .raises _ rfl
  · cases h; exact .issues _ rfl ‹_›

theorem exec_write_cases {s t : State} (h : execWrite s = .next t) : Move .write s t := by
  unfold execWrite at h
  split at h
  · cases h; exact .raises _ rfl
  · cases h; exact .issues _ rfl ‹_›

theorem exec_readCrc_cases {s t : State} (h : execReadCrc s = .next t) : Move .readCrc s t := by
  unfold execReadCrc at h
  split at h
  · cases h; exact .raises _ rfl
  · cases h; exact .issues _ rfl ‹_›

theorem exec_writeCrc_cases {s t : State} (h : execWriteCrc s = .next t) : Move .writeCrc s t := by
  unfold execWriteCrc at h
  split at h
  · cases h; exact .raises _ rfl
  · cases h; exact .issues _ rfl ‹_›

theorem exec_safeReadCrc_cases {s t : State} (h : execSafeReadCrc s = .next t) : Move .safeReadCrc s t := by
  unfold execSafeReadCrc at h
  split at h
  · cases h; exact .raises _ rfl
  · split at h
    · cases h; exact .raises _ rfl
    · cases h; exact .issues _ ‹_› ‹_›

theorem take_length_le {bs : Bytes} {n : Nat} : (bs.take n).length ≤ n := by
  simp [List.length_take]

theorem exec_wireRead_cases {a : Addr} {s t : State} (h : execWireRead a s = .next t) : Move (.wireRead a) s t := by
  rcases exchange_cases h with ⟨ho, rfl⟩ | ⟨tx, ho, hr, rfl⟩ | ⟨tx, ans, ho, hr, rfl⟩
  · exact .emits _ rfl ho
  · exact .waits _ ho hr
  · rcases finishRead_cases s.request.readCount s tx ans with ⟨r, e⟩ | ⟨rx, -, -, e⟩ <;> rw [e]
    · exact .raises _ rfl
    · exact .ends _ _ (.data ⟨0#4, a, .inl rfl⟩ take_length_le) rfl

theorem exec_wireWrite_cases {a : Addr} {s t : State} (h : execWireWrite a s = .next t) : Move (.wireWrite a) s t := by
  rcases exchange_cases h with ⟨ho, rfl⟩ | ⟨tx, ho, hr, rfl⟩ | ⟨tx, ans, ho, hr, rfl⟩
  · exact .emits _ rfl ho
  · exact .waits _ ho hr
  · rcases finishWrite_cases s tx ans with ⟨r, e⟩ | ⟨rx, -, -, e⟩ <;> rw [e]
    · exact .raises _ rfl
    · exact .ends _ _ .nothing rfl

theorem exec_wireReadCrc_cases {a : Addr} {s t : State} (h : execWireReadCrc a s = .next t) : Move (.wireReadCrc a) s t := by
  rcases exchange_cases h with ⟨ho, rfl⟩ | ⟨tx, ho, hr, rfl⟩ | ⟨tx, ans, ho, hr, rfl⟩
  · exact .emits _ rfl ho
  · exact .waits _ ho hr
  · rcases finishReadCrc_cases (.busError .rxLength) s.request.readCount s tx ans with e | e | e | ⟨rx, -, -, -, e⟩ <;> rw [e]
    · exact .raises _ rfl
    · exact .raises _ rfl
    · exact .raises _ rfl
    · exact .ends _ _ (.data ⟨0#4, a, .inr (.inl rfl)⟩ take_length_le) rfl

theorem exec_wireWriteCrc_cases {a : Addr} {s t : State} (h : execWireWriteCrc a s = .next t) :
    Move (.wireWriteCrc a) s t := by
  rcases exchange_cases h with ⟨ho, rfl⟩ | ⟨tx, ho, hr, rfl⟩ | ⟨tx, ans, ho, hr, rfl⟩
  · exact .emits _ rfl ho
  · exact .waits _ ho hr
  · rcases finishWrite_cases s tx ans with ⟨r, e⟩ | ⟨rx, -, -, e⟩ <;> rw [e]
    · exact .raises _ rfl
    · exact .ends _ _ .nothing rfl

theorem exec_wireSafeReadCrc_cases {c : Cmd} {a : Addr} {s t : State} (h : execWireSafeReadCrc c a s = .next t) :
    Move (.wireSafeReadCrc c a) s t := by
  rcases exchange_cases h with ⟨ho, rfl⟩ | ⟨tx, ho, hr, rfl⟩ | ⟨tx, ans, ho, hr, rfl⟩
  · exact .emits _ rfl ho
  · exact .waits _ ho hr
  · rcases finishReadCrc_cases .lengthMismatch s.request.readCount s tx ans with e | e | e | ⟨rx, -, -, -, e⟩ <;> rw [e]
    · exact .raises _ rfl
    · exact .raises _ rfl
    · exact .raises _ rfl
    · exact .ends _ _ (.data ⟨c, a, .inr (.inr rfl)⟩ take_length_le) rfl

/-- The inversion of `exec`: an instruction that answers a next state makes one of the four moves. -/
theorem exec_cases {i : Instr} {s t : State} (h : exec i s = .next t) : Move i s t := by
  cases i with
  | frameEncode => exact exec_frameEncode_cases h
  | frameDecode => exact exec_frameDecode_cases h
  | dlcToLen => cases h; exact .ends _ _ (.value _) rfl
  | crc16 => exact exec_crc16_cases h
  | read => exact exec_read_cases h
  | write => exact exec_write_cases h
  | readCrc => exact exec_readCrc_cases h
  | writeCrc => exact exec_writeCrc_cases h
  | safeReadCrc => exact exec_safeReadCrc_cases h
  | reservedOp0 => cases h; exact .raises _ rfl
  | reservedOp5 => cases h; exact .raises _ rfl
  | reservedOp6 => cases h; exact .raises _ rfl
  | reservedOp7 => cases h; exact .raises _ rfl
  | reservedOpD => cases h; exact .raises _ rfl
  | reservedOpE => cases h; exact .raises _ rfl
  | reservedOpF => cases h; exact .raises _ rfl
  | wireRead a => exact exec_wireRead_cases h
  | wireWrite a => exact exec_wireWrite_cases h
  | wireReadCrc a => exact exec_wireReadCrc_cases h
  | wireWriteCrc a => exact exec_wireWriteCrc_cases h
  | wireSafeReadCrc c a => exact exec_wireSafeReadCrc_cases h

/-! ## What one event can do -/

/-- A host write changes the input registers and the record of those written, and nothing else. -/
structure WroteInput (s t : State) : Prop where
  params : t.params = s.params
  req : t.req = s.req
  phase : t.phase = s.phase
  status : t.status = s.status
  out : t.out = s.out
  link : t.link = s.link
  inbox : t.inbox = s.inbox
  hostData : t.hostData = s.hostData
  runFinal : t.runFinal = s.runFinal

theorem writeInput_wrote {w : InputWrite} {s t : State} (h : writeInput w s = .next t) : WroteInput s t := by
  cases w
  case din i b =>
    simp only [writeInput] at h
    split at h
    · cases h; exact ⟨rfl, rfl, rfl, rfl, rfl, rfl, rfl, rfl, rfl⟩
    · cases h
  all_goals cases h; exact ⟨rfl, rfl, rfl, rfl, rfl, rfl, rfl, rfl, rfl⟩

/-- A host read delivers a value and changes nothing else, or there is none and the run is not final. -/
theorem readOutput_cases (r : OutputRead) (s : State) :
    (∃ v, outputValue r s = some v ∧ readOutput r s = { s with hostData := some v }) ∨
    (outputValue r s = none ∧ readOutput r s = { s with hostData := none, runFinal := false }) := by
  cases h : outputValue r s <;> simp [readOutput, h]

theorem takeAnswer_cases (a : Answer) (s : State) :
    takeAnswer a s = s ∨
    (s.link.outstanding.isSome = true ∧ s.link.reply = none ∧
      takeAnswer a s = { s with link := { s.link with reply := some a } }) := by
  unfold takeAnswer
  split
  · exact .inr ⟨by simp [*], ‹_›, rfl⟩
  · exact .inl rfl

/-! ## What one step can do -/

/-- FCF's own move: Idle it accepts the pending REQ or does nothing; Busy it carries out the instruction it fetches. -/
theorem fcfMove_cases {s t : State} (h : fcfMove s = .next t) :
    (s.phase = .idle ∧ s.req = true ∧ t = accept s) ∨
    (s.phase = .idle ∧ s.req = false ∧ t = s) ∨
    (∃ q st i, s.phase = .busy q st ∧ fetch q st = .ok i ∧ exec i s = .next t) := by
  unfold fcfMove at h
  split at h
  · rename_i hp
    split at h
    · rename_i hr
      cases h; exact .inl ⟨hp, hr, rfl⟩
    · rename_i hr
      cases h; exact .inr (.inl ⟨hp, by simpa using hr, rfl⟩)
  · rename_i q st hp
    split at h
    · rename_i i hi
      exact .inr (.inr ⟨q, st, i, hp, hi, h⟩)
    · cases h

/-- A step: FCF's move, or an event lands. -/
theorem step_cases {s t : State} (h : step s = .next t) :
    (s.inbox = [] ∧ fcfMove s = .next t) ∨
    (∃ es, s.inbox = .fcf :: es ∧ fcfMove { s with inbox := es } = .next t) ∨
    (∃ e es, s.inbox = e :: es ∧ e ≠ .fcf ∧ deliver e { s with inbox := es } = .next t) := by
  unfold step at h
  split at h
  · exact .inl ⟨‹_›, h⟩
  · rename_i e es hi
    split at h
    · exact .inr (.inl ⟨es, hi, h⟩)
    · exact .inr (.inr ⟨e, es, hi, by simpa using ‹_›, h⟩)

/-- The instruction FCF fetches in its command stage is the one the header decodes to. -/
theorem fetch_command {q : Request} {h : Half} {i : Instr} : fetch q (.command h) = .ok i ↔ decodeHeader h = .ok i := by
  simp only [fetch]
  split <;> simp [*]

end Sys2Proof.Machine
end

