-- ==== Sys2Proof/Laws/PerInstr.lean ====
section
/-! SUPPORT. Laws about every instruction, one lemma per constructor. `TableRow`: an instruction's encoding is the one its row
of spec/opcode_table.json gives it. -/

namespace Sys2Proof.Laws.TableRow

/-- A row of the table: its format, its length in bytes, and the 4-bit code its `match` gives, in bits 3:0 of an OPSEL
byte and in bits 15:12 of a bus header. -/
structure Row where
  format : Format
  bytes : Nat
  code : BitVec 4
deriving DecidableEq, Repr

/-- The rows of the table, in its order. The code of the safe variant is `P_SAFE_CMD`. -/
def row : Instr → Row
  | .frameEncode => ⟨.opsel, 1, 0x1#4⟩
  | .frameDecode => ⟨.opsel, 1, 0x2#4⟩
  | .dlcToLen => ⟨.opsel, 1, 0x3#4⟩
  | .crc16 => ⟨.opsel, 1, 0x4#4⟩
  | .read => ⟨.opsel, 1, 0x8#4⟩
  | .write => ⟨.opsel, 1, 0x9#4⟩
  | .readCrc => ⟨.opsel, 1, 0xA#4⟩
  | .writeCrc => ⟨.opsel, 1, 0xB#4⟩
  | .safeReadCrc => ⟨.opsel, 1, 0xC#4⟩
  | .reservedOp0 => ⟨.opsel, 1, 0x0#4⟩
  | .reservedOp5 => ⟨.opsel, 1, 0x5#4⟩
  | .reservedOp6 => ⟨.opsel, 1, 0x6#4⟩
  | .reservedOp7 => ⟨.opsel, 1, 0x7#4⟩
  | .reservedOpD => ⟨.opsel, 1, 0xD#4⟩
  | .reservedOpE => ⟨.opsel, 1, 0xE#4⟩
  | .reservedOpF => ⟨.opsel, 1, 0xF#4⟩
  | .wireRead _ => ⟨.hdr, 2, 0x3#4⟩
  | .wireWrite _ => ⟨.hdr, 2, 0x2#4⟩
  | .wireReadCrc _ => ⟨.hdr, 2, 0xB#4⟩
  | .wireWriteCrc _ => ⟨.hdr, 2, 0xA#4⟩
  | .wireSafeReadCrc c _ => ⟨.hdr, 2, c⟩

/-- The code in the first byte of an encoding. -/
def codeOf : Format → Byte → BitVec 4
  | .opsel, b => b.extractLsb' 0 4
  | .hdr, b => b.extractLsb' 4 4

def Statement (i : Instr) : Prop :=
  (encode i).1 = (row i).format ∧ (encode i).2.length = (row i).bytes ∧
    (encode i).2.head?.map (codeOf (row i).format) = some (row i).code

/-- The code of a header stands in the top nibble of its first byte on the wire (R83). -/
theorem codeOf_header (c : Cmd) (a : Addr) : codeOf .hdr ((header c a).extractLsb' 8 8) = c := by
  unfold codeOf header
  ext i hi
  have h1 : 8 + (4 + i) = 12 + i := by omega
  simp [h1, show 4 + i < 8 by omega, show 12 + i < 16 by omega, BitVec.getLsbD_eq_getElem hi]

theorem of_header {i : Instr} {c : Cmd} {a : Addr} (he : encode i = (.hdr, be16 (header c a))) (hr : row i = ⟨.hdr, 2, c⟩) :
    Statement i := by
  refine ⟨by rw [he, hr], by rw [he, hr]; rfl, ?_⟩
  rw [he, hr]
  exact congrArg some (codeOf_header c a)

theorem frameEncode : Statement .frameEncode := ⟨rfl, rfl, rfl⟩
theorem frameDecode : Statement .frameDecode := ⟨rfl, rfl, rfl⟩
theorem dlcToLen : Statement .dlcToLen := ⟨rfl, rfl, rfl⟩
theorem crc16 : Statement .crc16 := ⟨rfl, rfl, rfl⟩
theorem read : Statement .read := ⟨rfl, rfl, rfl⟩
theorem write : Statement .write := ⟨rfl, rfl, rfl⟩
theorem readCrc : Statement .readCrc := ⟨rfl, rfl, rfl⟩
theorem writeCrc : Statement .writeCrc := ⟨rfl, rfl, rfl⟩
theorem safeReadCrc : Statement .safeReadCrc := ⟨rfl, rfl, rfl⟩
theorem reservedOp0 : Statement .reservedOp0 := ⟨rfl, rfl, rfl⟩
theorem reservedOp5 : Statement .reservedOp5 := ⟨rfl, rfl, rfl⟩
theorem reservedOp6 : Statement .reservedOp6 := ⟨rfl, rfl, rfl⟩
theorem reservedOp7 : Statement .reservedOp7 := ⟨rfl, rfl, rfl⟩
theorem reservedOpD : Statement .reservedOpD := ⟨rfl, rfl, rfl⟩
theorem reservedOpE : Statement .reservedOpE := ⟨rfl, rfl, rfl⟩
theorem reservedOpF : Statement .reservedOpF := ⟨rfl, rfl, rfl⟩
theorem wireRead (a : Addr) : Statement (.wireRead a) := of_header (a := a) rfl rfl
theorem wireWrite (a : Addr) : Statement (.wireWrite a) := of_header (a := a) rfl rfl
theorem wireReadCrc (a : Addr) : Statement (.wireReadCrc a) := of_header (a := a) rfl rfl
theorem wireWriteCrc (a : Addr) : Statement (.wireWriteCrc a) := of_header (a := a) rfl rfl
theorem wireSafeReadCrc (c : Cmd) (a : Addr) : Statement (.wireSafeReadCrc c a) := of_header (a := a) rfl rfl

end Sys2Proof.Laws.TableRow
end

