-- ==== Sys2Proof/Tests/Slice0.lean ====
section
/-! SUPPORT. The model's own tests. The expected values come from spec/95_test_vectors.md (the section is named with each) or
from a rule of the spec; a `witness_` theorem shows a concrete state and operands that meet the hypotheses of the obligation
it is named after. -/

namespace Sys2Proof.Tests

open Sys2Proof Sys2Proof.Machine

/-! ## Helpers -/

def bytes (l : List Nat) : Bytes := l.map (BitVec.ofNat 8)

/-- A buffer that holds the bytes of a string from index 0 on. -/
def buffer (l : List Nat) : Memory := (List.range l.length).zip (bytes l)

/-- A latched request with nothing in it but what a test names. -/
def request (op : Nat) (addr : Nat := 0) (len : Nat := 0) (fin : FinReg := State.reset.fin) (din : List Nat := []) : Request :=
  { op := BitVec.ofNat 4 op, addr := BitVec.ofNat 12 addr, len := BitVec.ofNat 16 len, fin := fin, din := buffer din,
    dinLen := BitVec.ofNat 16 din.length }

/-- FCF Busy with an operation. -/
def busy (q : Request) : State :=
  { State.reset with phase := .busy q .operation, status := { busy := true, done := false, last := none } }

/-- FCF Busy with the wire command of header `h`, nothing sent yet. -/
def commanding (q : Request) (h : Nat) : State :=
  { busy q with phase := .busy q (.command (BitVec.ofNat 16 h)) }

/-- The same with `tx` outstanding and answered with `a`. -/
def answered (q : Request) (h : Nat) (tx : List Nat) (a : Option Answer) : State :=
  { commanding q h with link := { outstanding := some (bytes tx), reply := a, sent := [bytes tx] } }

def withSafe (c : Cmd) (s : State) : State := { s with params := { s.params with safeCmd := some c } }

/-- A frame input: kind, id, dlc, the flags RTR, FDF, BRS, ESI, the payload. -/
def frame (kind : Kind) (id dlc : Nat) (rtr fdf brs esi : Bool) (data : List Nat) : FinReg :=
  { hdr := { kind := kind, id := BitVec.ofNat 29 id, dlc := BitVec.ofNat 4 dlc, rtr := rtr, fdf := fdf, brs := brs, esi := esi }
    payload := buffer data
    plen := BitVec.ofNat 7 data.length }

/-- STATUS and the outputs after one instruction. -/
def after (i : Instr) (s : State) : Option (Option Half × Outputs) :=
  match exec i s with
  | .next t => some (t.status.word, t.out)
  | .fault _ => none
  | .refused _ => none

/-- The transaction outstanding after one instruction. -/
def sentAfter (i : Instr) (s : State) : Option Bytes :=
  match exec i s with
  | .next t => t.link.outstanding
  | .fault _ => none
  | .refused _ => none

def doutOf (l : List Nat) : Outputs := .ofDout (bytes l)

/-- Idle, with DLC_TO_LEN's inputs written and REQ pending. -/
def sIdle : State := { State.reset with op := 0x3#4, written := [.op, .dlc], req := true }

/-- One step from `s`, where it answers a next state. -/
def stepped (s : State) : Option State :=
  match step s with
  | .next t => some t
  | .fault _ => none
  | .refused _ => none

/-! ## WellFormed refuses ill-formed terms (R6, R84) -/

theorem test_wellFormed_refuses_reset_code : (Instr.wireSafeReadCrc 0x0#4 0x400#12).wellFormed = false := by decide
theorem test_wellFormed_refuses_read_code : (Instr.wireSafeReadCrc 0x3#4 0x400#12).wellFormed = false := by decide
theorem test_wellFormed_refuses_write_code : (Instr.wireSafeReadCrc 0x2#4 0x400#12).wellFormed = false := by decide
theorem test_wellFormed_refuses_readCrc_code : (Instr.wireSafeReadCrc 0xB#4 0x400#12).wellFormed = false := by decide
theorem test_wellFormed_refuses_writeCrc_code : (Instr.wireSafeReadCrc 0xA#4 0x400#12).wellFormed = false := by decide
theorem test_wellFormed_admits_test_code : (Instr.wireSafeReadCrc 0xD#4 0x400#12).wellFormed = true := by decide

theorem test_params_refuse_no_burst : { Config.testBinding with maxBurst := 0 }.wellFormed = false := by decide
theorem test_params_refuse_burst_above_buffer : { Config.testBinding with maxBurst := 1025 }.wellFormed = false := by decide
theorem test_params_refuse_small_buffer :
    { Config.testBinding with maxBurst := 1, bufBytes := 71 }.wellFormed = false := by decide
theorem test_params_refuse_safe_code_in_use : { Config.testBinding with safeCmd := some 0xB#4 }.wellFormed = false := by decide
theorem test_params_admit_smallest :
    { Config.testBinding with maxBurst := 1, bufBytes := 72, safeCmd := some 0xD#4 }.wellFormed = true := by decide

/-! ## Decoding, each row's word written out from R81's table and R83's layout -/

/-- Every OP value selects its row. -/
theorem test_decode_opsel_rows :
    (List.range 16).map (fun k => decodeTableWord 4 k) =
      [some .reservedOp0, some .frameEncode, some .frameDecode, some .dlcToLen, some .crc16, some .reservedOp5,
       some .reservedOp6, some .reservedOp7, some .read, some .write, some .readCrc, some .writeCrc, some .safeReadCrc,
       some .reservedOpD, some .reservedOpE, some .reservedOpF] := by decide

/-- `0011 AAAA AAAA AAAA`, A = 0xE00. -/
theorem test_decode_wireRead : decode .hdr [0b00111110#8, 0b00000000#8] = .ok (.wireRead 0xE00#12, []) := by decide
/-- `0010 AAAA AAAA AAAA`, A = 0x123. -/
theorem test_decode_wireWrite : decode .hdr [0b00100001#8, 0b00100011#8] = .ok (.wireWrite 0x123#12, []) := by decide
/-- `1011 AAAA AAAA AAAA`, A = 0xE14. -/
theorem test_decode_wireReadCrc : decode .hdr [0b10111110#8, 0b00010100#8] = .ok (.wireReadCrc 0xE14#12, []) := by decide
/-- `1010 AAAA AAAA AAAA`, A = 0xFFF. -/
theorem test_decode_wireWriteCrc : decode .hdr [0b10101111#8, 0b11111111#8] = .ok (.wireWriteCrc 0xFFF#12, []) := by decide
/-- `SSSS AAAA AAAA AAAA`, S = 0xD, A = 0x400. -/
theorem test_decode_wireSafeReadCrc :
    decode .hdr [0b11010100#8, 0b00000000#8] = .ok (.wireSafeReadCrc 0xD#4 0x400#12, []) := by decide
theorem test_decode_header_word : decodeTableWord 16 0xBE14 = some (.wireReadCrc 0xE14#12) := by decide
theorem test_decode_rejects_reset : decode .hdr [0x00#8, 0x10#8] = .error .resetCommand := by decide
theorem test_decode_rejects_wide_op : decode .opsel [0x10#8] = .error .opTooWide := by decide
theorem test_decode_rejects_short_header : decode .hdr [0x30#8] = .error .tooFewBytes := by decide
theorem test_decode_rejects_nothing : decode .opsel [] = .error .tooFewBytes := by decide

/-! ## A word placed where FCF fetches runs as the first instruction after reset -/

theorem test_fetchWord_operations :
    ((List.range 16).all fun k => (stepped (State.reset.withFetchWord 4 k)).isSome) = true := by decide
theorem test_fetchWord_headers :
    ([0x3000, 0x2000, 0xB000, 0xA000, 0xD400].all fun w => (stepped (State.reset.withFetchWord 16 w)).isSome) = true := by decide
/-- `READ 0xE00, ..`: the header placed is the one sent (section 3.6). -/
theorem test_fetchWord_sends :
    (stepped (State.reset.withFetchWord 16 0x3E00)).map (·.link.outstanding) = some (some (bytes [0x3E, 0x00])) := by decide

/-! ## CRC (section 3.1) -/

theorem test_crc_check_value :
    after .crc16 (busy (request 4 (din := [0x31, 0x32, 0x33, 0x34, 0x35, 0x36, 0x37, 0x38, 0x39]))) =
      some (some 0x0002#16, .ofVout 0xAEE7#16) := by decide +kernel
theorem test_crc_buf_range :
    after .crc16 (busy { request 4 with dinLen := 1025#16 }) = some (some 0x0142#16, Outputs.noValue) := by decide +kernel
/-- Table entries 6 and 7 of R117. -/
theorem test_crc_table : crcTable 6#8 = 0x0014#16 ∧ crcTable 7#8 = 0x8011#16 := by decide +kernel

/-! ## DLC_TO_LEN (section 3.2) -/

theorem test_dlcToLen_13 :
    after .dlcToLen (busy (request 3 (fin := frame .std 0 13 false false false false []))) =
      some (some 0x0002#16, .ofVout 32#16) := by decide +kernel
theorem test_dlcToLen_8 :
    after .dlcToLen (busy (request 3 (fin := frame .std 0 8 false false false false []))) =
      some (some 0x0002#16, .ofVout 8#16) := by decide +kernel

/-! ## ENCODE (section 3.4) and DECODE (section 3.5) -/

theorem test_encode_extended :
    after .frameEncode (busy (request 1 (fin := frame .ext 0x12345678 9 false true true false
        [0x00, 0x01, 0x02, 0x03, 0x04, 0x05, 0x06, 0x07, 0x08, 0x09, 0x0A, 0x0B]))) =
      some (some 0x0002#16, doutOf [0x8D, 0xC4, 0xB3, 0x02, 0xD9, 0x00, 0x00, 0x00, 0x00, 0x01, 0x02, 0x03, 0x04, 0x05, 0x06,
        0x07, 0x08, 0x09, 0x0A, 0x0B]) := by decide +kernel
theorem test_encode_pads :
    after .frameEncode (busy (request 1 (fin := frame .std 0x100 4 false false false false [0x09]))) =
      some (some 0x0002#16, doutOf [0x00, 0x01, 0x00, 0x00, 0x04, 0x00, 0x00, 0x00, 0x09, 0x00, 0x00, 0x00]) := by
  decide +kernel
/-- T0[31:30], T0[28:11] with IDE = 0 and T1[31:9] are ignored. -/
theorem test_decode_ignores_unused_bits :
    after .frameDecode (busy (request 2 (din := [0x23, 0x01, 0xF8, 0xDF, 0x03, 0xFE, 0xFF, 0xFF, 0x11, 0x22, 0x33]))) =
      some (some 0x0002#16, .ofFout ⟨⟨.std, 0x123#29, 3#4, false, false, false, false⟩, bytes [0x11, 0x22, 0x33], 3#7⟩) := by
  decide +kernel
/-- SID11 set and the length wrong: SID11 is checked first (section 3.9). -/
theorem test_decode_sid11_before_length :
    after .frameDecode (busy (request 2 (din := [0x23, 0x01, 0x00, 0x20, 0x03, 0x00, 0x00, 0x00]))) =
      some (some 0x0232#16, Outputs.noValue) := by decide +kernel
/-- `pad4` of the 11-byte image (program P2). -/
theorem test_pad4 :
    pad4 (bytes [0x23, 0x01, 0x00, 0x00, 0x03, 0x00, 0x00, 0x00, 0x11, 0x22, 0x33]) =
      bytes [0x23, 0x01, 0x00, 0x00, 0x03, 0x00, 0x00, 0x00, 0x11, 0x22, 0x33, 0x00] := by decide +kernel

/-! ## The bus operations: contract checks (section 3.7) and commands (section 3.6) -/

theorem test_read_straddles :
    after .read (busy (request 8 0x3FE 4)) = some (some 0x0542#16, Outputs.noValue) := by decide +kernel
theorem test_read_issues :
    (stepped (busy (request 8 0xFFF 1))).map (·.phase) = some (.busy (request 8 0xFFF 1) (.command 0x3FFF#16)) := by
  decide +kernel
/-- R263, I11: a request that reads an unwritten input is accepted, and the run is not final from then on. -/
theorem test_unwritten_input_ends_final_run :
    (stepped { State.reset with req := true }).map (fun t => (t.status.busy, t.req, t.runFinal)) = some (true, false, false) ∧
    (stepped sIdle).map (fun t => (t.status.busy, t.req, t.runFinal)) = some (true, false, true) := by decide +kernel
/-- R34: a read of no value supplies none and ends the final run; R33: a read of VOUT delivers it. -/
theorem test_read_of_no_value_ends_final_run :
    (stepped { State.reset with inbox := [.read .vout] }).map (fun t => (t.hostData, t.runFinal)) = some (none, false) ∧
    (stepped { completeOk (.ofVout 0x20#16) (busy (request 3)) with inbox := [.read .vout] }).map
      (fun t => (t.hostData, t.runFinal)) = some (some (.half 0x20#16), true) := by decide +kernel
/-- R143: the contract violation is reported, and the run is not final from then on. -/
theorem test_violation_ends_final_run :
    (stepped (busy (request 8 0x3FE 4))).map (fun t => (t.phase, t.status.done, t.runFinal)) = some (.idle, true, false) := by
  decide +kernel
/-- R243: UNSUPPORTED is a refusal result and no fault. -/
theorem test_unsupported_keeps_run_final :
    (stepped (busy (request 5))).map (fun t => (t.status.word, t.runFinal)) = some (some 0x0162#16, true) := by decide +kernel
theorem test_write_buf_range :
    after .write (busy { request 9 with dinLen := 1025#16 }) = some (some 0x0142#16, Outputs.noValue) := by decide +kernel
theorem test_write_issues :
    (stepped (busy (request 9 0x123 0 (din := [0xFF])))).map (·.phase) =
      some (.busy (request 9 0x123 0 (din := [0xFF])) (.command 0x2123#16)) := by decide +kernel
theorem test_readCrc_n_range :
    after .readCrc (busy (request 10 0x000 256)) = some (some 0x0742#16, Outputs.noValue) := by decide +kernel
theorem test_readCrc_burst_first :
    after .readCrc (busy (request 10 0x3FE 2000)) = some (some 0x0342#16, Outputs.noValue) := by decide +kernel
theorem test_writeCrc_unaligned :
    after .writeCrc (busy (request 11 0x401 0 (din := [0x01, 0x02, 0x03, 0x04]))) =
      some (some 0x0642#16, Outputs.noValue) := by decide +kernel
theorem test_writeCrc_issues :
    (stepped (busy (request 11 0x010 0 (din := [0xAA])))).map (·.phase) =
      some (.busy (request 11 0x010 0 (din := [0xAA])) (.command 0xA010#16)) := by decide +kernel
theorem test_safeReadCrc_unbound :
    after .safeReadCrc (busy (request 12 0x401 0)) = some (some 0x0262#16, Outputs.noValue) := by decide +kernel
theorem test_safeReadCrc_issues :
    (stepped (withSafe 0xD#4 (busy (request 12 0x400 8)))).map (·.phase) =
      some (.busy (request 12 0x400 8) (.command 0xD400#16)) := by decide +kernel

/-- The reserved codes (section 3.10). -/
theorem test_reserved_ops :
    ([Instr.reservedOp0, .reservedOp5, .reservedOp6, .reservedOp7, .reservedOpD, .reservedOpE, .reservedOpF].all fun i =>
      after i (busy (request 5)) = some (some 0x0162#16, Outputs.noValue)) = true := by decide +kernel

/-! ## The wire commands: the bytes sent (section 3.6) and the response checks (section 3.8) -/

theorem test_wireRead_sends :
    sentAfter (.wireRead 0xE00#12) (commanding (request 8 0xE00 4) 0x3E00) = some (bytes [0x3E, 0, 0, 0, 0, 0]) := by
  decide +kernel
theorem test_wireRead_delivers :
    after (.wireRead 0xE00#12) (answered (request 8 0xE00 4) 0x3E00 [0x3E, 0, 0, 0, 0, 0]
      (some (.ok (bytes [0x5A, 0xA5, 0x11, 0x22, 0x33, 0x44])))) =
      some (some 0x0002#16, doutOf [0x11, 0x22, 0x33, 0x44]) := by decide +kernel
theorem test_wireWrite_sends :
    sentAfter (.wireWrite 0x123#12) (commanding (request 9 0x123 0 (din := [0xFF])) 0x2123) =
      some (bytes [0x21, 0x23, 0xFF]) := by decide +kernel
theorem test_wireWrite_transport_error :
    after (.wireWrite 0x123#12) (answered (request 9 0x123 0 (din := [0xFF])) 0x2123 [0x21, 0x23, 0xFF] (some .err)) =
      some (some 0x0112#16, Outputs.noValue) := by decide +kernel
theorem test_wireReadCrc_sends_words :
    sentAfter (.wireReadCrc 0x400#12) (commanding (request 10 0x400 8) 0xB400) =
      some (bytes [0xB4, 0x00, 0x02, 0, 0, 0, 0, 0, 0, 0, 0, 0, 0]) := by decide +kernel
theorem test_wireReadCrc_flipped_bit :
    after (.wireReadCrc 0xE14#12) (answered (request 10 0xE14 4) 0xBE14 [0xBE, 0x14, 0x04, 0, 0, 0, 0, 0, 0]
      (some (.ok (bytes [0x00, 0x00, 0x00, 0xDE, 0xAD, 0xBE, 0xEE, 0x1A, 0x3C])))) =
      some (some 0x0122#16, Outputs.noValue) := by decide +kernel
theorem test_wireWriteCrc_sends :
    sentAfter (.wireWriteCrc 0x400#12) (commanding (request 11 0x400 0 (din := [0x01, 0x02, 0x03, 0x04])) 0xA400) =
      some (bytes [0xA4, 0x00, 0x01, 0x01, 0x02, 0x03, 0x04, 0xE8, 0x0B]) := by decide +kernel
theorem test_wireWriteCrc_wrong_length :
    after (.wireWriteCrc 0x010#12) (answered (request 11 0x010 0 (din := [0xAA])) 0xA010 [0xA0, 0x10, 0x01, 0xAA, 0x04, 0xAB]
      (some (.ok (bytes [0, 0, 0, 0, 0])))) = some (some 0x0212#16, Outputs.noValue) := by decide +kernel
theorem test_wireSafeReadCrc_short_response :
    after (.wireSafeReadCrc 0xD#4 0x400#12) (withSafe 0xD#4 (answered (request 12 0x400 8) 0xD400
      [0xD4, 0x00, 0x02, 0, 0, 0, 0, 0, 0, 0, 0, 0, 0] (some (.ok (bytes [0, 0, 0, 0x23, 0x01, 0, 0, 0x03, 0, 0, 0, 0x90]))))) =
      some (some 0x0252#16, Outputs.noValue) := by decide +kernel
theorem test_wireSafeReadCrc_delivers :
    after (.wireSafeReadCrc 0xD#4 0x400#12) (withSafe 0xD#4 (answered (request 12 0x400 8) 0xD400
      [0xD4, 0x00, 0x02, 0, 0, 0, 0, 0, 0, 0, 0, 0, 0]
      (some (.ok (bytes [0, 0, 0, 0x23, 0x01, 0, 0, 0x03, 0, 0, 0, 0x90, 0x15]))))) =
      some (some 0x0002#16, doutOf [0x23, 0x01, 0, 0, 0x03, 0, 0, 0]) := by decide +kernel

/-! ## The host's lines and macros (R97, R98) -/

/-- `DLC_TO_LEN dlc=13` is the events that load OP and FIN.DLC and raise REQ. -/
theorem test_line_dlcToLen :
    (HostLine.dlcToLen 13#4).events = [.write (.op 0x3#4), .write (.dlc 13#4), .req] := by decide
/-- Program P2: after the header `23 01 00 00 03 00 00 00` at 0x480 the macro reads 4 bytes at 0x488. -/
theorem test_macro_second_read :
    readFrameCrcNext 0x480#12 .ok (bytes [0x23, 0x01, 0, 0, 0x03, 0, 0, 0]) = .issue (.readCrc 0x488#12 4#16) := by
  decide +kernel

/-! ## Witnesses: states and operands that meet the hypotheses of each obligation -/

/-- READ 0xE00, 4, Busy with the operation; with its wire command; with the Exchange outstanding; and answered. -/
def qRead : Request := request 8 0xE00 4
def txRead : List Nat := [0x3E, 0, 0, 0, 0, 0]
/-- READ_CRC 0xE14, 4 of section 3.8. -/
def qReadCrc : Request := request 10 0xE14 4
def txReadCrc : List Nat := [0xBE, 0x14, 0x04, 0, 0, 0, 0, 0, 0]
def rxReadCrc : List Nat := [0x00, 0x00, 0x00, 0xDE, 0xAD, 0xBE, 0xEF, 0x1A, 0x3C]
/-- WRITE 0x123, [FF]. -/
def qWrite : Request := request 9 0x123 0 (din := [0xFF])

theorem witness_DecodeOfEncodeIsTheInstruction :
    ([Instr.frameEncode, .frameDecode, .dlcToLen, .crc16, .read, .write, .readCrc, .writeCrc, .safeReadCrc, .reservedOp0,
      .reservedOp5, .reservedOp6, .reservedOp7, .reservedOpD, .reservedOpE, .reservedOpF, .wireRead 0x000#12,
      .wireWrite 0xFFF#12, .wireReadCrc 0x400#12, .wireWriteCrc 0xBFF#12, .wireSafeReadCrc 0x1#4 0x000#12,
      .wireSafeReadCrc 0xF#4 0xFFF#12].all (·.wellFormed)) = true := by decide

theorem witness_EncodeOfDecodeIsTheBytes :
    decode .hdr (bytes [0xDF, 0xFF, 0x01]) = .ok (.wireSafeReadCrc 0xD#4 0xFFF#12, bytes [0x01]) ∧
    decode .opsel (bytes [0x0F]) = .ok (.reservedOpF, []) := by decide

theorem witness_StepRunsTheLatchedOperation :
    (busy qRead).phase = .busy qRead .operation ∧ decode .opsel [qRead.op.setWidth 8] = .ok (.read, []) ∧
    (busy qRead).inbox = [] ∧ { busy qRead with inbox := [.fcf, .req] }.inbox = .fcf :: [.req] := by decide

theorem witness_StepRunsTheWireCommand :
    (commanding qRead 0x3E00).phase = .busy qRead (.command 0x3E00#16) ∧
    decode .hdr (be16 0x3E00#16) = .ok (.wireRead 0xE00#12, []) ∧ (commanding qRead 0x3E00).inbox = [] ∧
    { commanding qRead 0x3E00 with inbox := [.fcf] }.inbox = .fcf :: [] := by decide

theorem witness_IdleAcceptsExactlyAPendingRequest :
    (State.reset.phase = .idle ∧ State.reset.inbox = [] ∧ State.reset.req = false) ∧
    (let s := { State.reset with inbox := [.fcf, .req] }
     s.phase = .idle ∧ s.inbox = .fcf :: [.req] ∧ s.req = false) ∧
    (sIdle.phase = .idle ∧ sIdle.inbox = [] ∧ sIdle.req = true ∧ missingInput (decodeOp sIdle.op) sIdle = none) ∧
    (let s := { sIdle with inbox := [.fcf, .req] }
     s.phase = .idle ∧ s.inbox = .fcf :: [.req] ∧ s.req = true ∧ missingInput (decodeOp s.op) s = none) := by decide

/-- Everything written; OP not written; a register the operation reads not written; a byte of DIN just below DIN_LEN at the capacity not written;
the 64th byte of FIN.PAYLOAD not written. -/
theorem witness_UnwrittenInputMakesTheRunNotFinal :
    (sIdle.phase = .idle ∧ sIdle.inbox = [] ∧ sIdle.req = true ∧
      (∀ r, (r = .op ∨ r ∈ registersRead (decodeOp sIdle.op)) → r ∈ sIdle.written) ∧
      readsDin (decodeOp sIdle.op) = false ∧ readsPayload (decodeOp sIdle.op) = false) ∧
    (let s := { sIdle with op := 0x4#4, written := [.op, .dinLen], din := buffer [7], dinLen := 1#16 }
     readsDin (decodeOp s.op) = true ∧ s.dinLen.toNat ≤ s.params.bufBytes ∧ s.dinLen.toNat = 1 ∧
       s.din.read 0 ≠ none) ∧
    (let s := { State.reset with req := true }
     s.phase = .idle ∧ s.inbox = [] ∧ s.req = true ∧ InputReg.op ∉ s.written) ∧
    (let s := { State.reset with req := true, inbox := [.fcf] }
     s.phase = .idle ∧ s.inbox = .fcf :: [] ∧ s.req = true ∧ InputReg.op ∉ s.written) ∧
    (let s := { sIdle with written := [.op] }
     s.phase = .idle ∧ s.inbox = [] ∧ s.req = true ∧ InputReg.dlc ∈ registersRead (decodeOp s.op) ∧
       InputReg.dlc ∉ s.written) ∧
    (let s := { sIdle with op := 0x4#4, written := [.op, .dinLen], dinLen := 1024#16 }
     s.phase = .idle ∧ readsDin (decodeOp s.op) = true ∧ s.dinLen.toNat ≤ s.params.bufBytes ∧ 1023 < s.dinLen.toNat ∧
       s.din.read 1023 = none) ∧
    (let s := { sIdle with op := 0x1#4, fin := { sIdle.fin with plen := 64#7 } }
     s.phase = .idle ∧ readsPayload (decodeOp s.op) = true ∧ s.fin.plen.toNat ≤ 64 ∧ 63 < s.fin.plen.toNat ∧
       s.fin.payload.read 63 = none) :=
  ⟨⟨rfl, rfl, rfl, fun r => (by cases r <;> decide), rfl, rfl⟩, by decide⟩

theorem witness_RequestBecomesPendingAndIsHeldWhileBusy :
    { State.reset with inbox := [.req] }.inbox = .req :: [] ∧ { sIdle with inbox := [.req] }.inbox = .req :: [] ∧
    (busy qRead).phase = .busy qRead .operation ∧ { busy qRead with inbox := [.req] }.inbox = .req :: [] ∧
    ∃ t, { busy qRead with req := true }.req = true ∧ (∀ es, { busy qRead with req := true }.inbox ≠ .reset :: es) ∧
      step { busy qRead with req := true } = .next t :=
  ⟨rfl, rfl, rfl, rfl, _, rfl, fun _ h => (by cases h), rfl⟩

theorem witness_ExecReadsOnlyTheLatchedRequest :
    (busy qRead).phase = .busy qRead .operation ∧ (commanding qRead 0x3E00).phase = .busy qRead (.command 0x3E00#16) :=
  ⟨rfl, rfl⟩

/-- A write of each input register at the top of its range, of the last byte of each buffer, while Busy: each is a step that
completes. -/
theorem witness_HostWriteTouchesOnlyInputs :
    (([.op 0xF#4, .addr 0xFFF#12, .len 0xFFFF#16, .dinLen 0xFFFF#16, .kind .ext, .id 0x1FFFFFFF#29, .dlc 0xF#4, .rtr true,
       .fdf true, .brs true, .esi true, .plen 0x7F#7, .payload 63#6 0xFF#8, .din 1023 0xFF#8] : List InputWrite).all fun w =>
      (stepped { busy qRead with inbox := [.write w] }).isSome) = true ∧
    (∀ w, { busy qRead with inbox := [.write w] }.inbox = .write w :: []) ∧
    ∀ i b, InputWrite.rtr true ≠ .din i b := ⟨by decide, fun _ => rfl, fun _ _ h => (by cases h)⟩

theorem witness_HostWriteChangesOneByte :
    1023 < State.reset.params.bufBytes ∧ State.reset.params.bufBytes ≤ 1024 ∧
    { State.reset with inbox := [.write (.din 1023 0x01#8)] }.inbox = .write (.din 1023 0x01#8) :: [] ∧
    { State.reset with inbox := [.write (.din 1024 0x01#8)] }.inbox = .write (.din 1024 0x01#8) :: [] ∧
    { State.reset with inbox := [.write (.payload 63#6 0x01#8)] }.inbox = .write (.payload 63#6 0x01#8) :: [] := by decide

theorem witness_HostWriteToAnOutputIsIgnored :
    { State.reset with inbox := [.writeOutput .vout 0xFFFF#16] }.inbox = .writeOutput .vout 0xFFFF#16 :: [] := rfl

/-- Each read once where there is no value and once where there is one: the last byte of DOUT and of FOUT's payload, and the
first byte beyond DOUT_LEN and beyond PLEN. -/
theorem witness_HostReadDeliversTheValueIfThereIsOne :
    (let s := { State.reset with inbox := [.read .vout] }
     s.inbox = .read .vout :: [] ∧ s.out.vout = none) ∧
    (let s := { completeOk (.ofVout 0x20#16) (busy (request 3)) with inbox := [.read .vout] }
     s.inbox = .read .vout :: [] ∧ s.out.vout = some 0x20#16) ∧
    (let s := { State.reset with inbox := [.read .doutLen] }
     s.inbox = .read .doutLen :: [] ∧ s.out.dout = none) ∧
    (let s := { completeOk (doutOf [1, 2]) (busy qRead) with inbox := [.read .doutLen] }
     s.inbox = .read .doutLen :: [] ∧ s.out.dout = some ⟨bytes [1, 2], 2#16⟩) ∧
    (let s := { State.reset with inbox := [.read (.dout 0)] }
     s.inbox = .read (.dout 0) :: [] ∧ s.out.dout = none) ∧
    (let s := { completeOk (doutOf [1, 2]) (busy qRead) with inbox := [.read (.dout 1)] }
     s.inbox = .read (.dout 1) :: [] ∧ s.out.dout = some ⟨bytes [1, 2], 2#16⟩ ∧ (bytes [1, 2])[1]? = some 2#8) ∧
    (let s := { completeOk (doutOf [1, 2]) (busy qRead) with inbox := [.read (.dout 2)] }
     s.inbox = .read (.dout 2) :: [] ∧ s.out.dout = some ⟨bytes [1, 2], 2#16⟩ ∧ (bytes [1, 2]).length ≤ 2) ∧
    (let s := { State.reset with inbox := [.read .foutHeader] }
     s.inbox = .read .foutHeader :: [] ∧ s.out.fout = none) ∧
    (let f : FoutReg := ⟨FrameHeader.zero, bytes [7], 1#7⟩
     let s := { completeOk (.ofFout f) (busy (request 2)) with inbox := [.read .foutHeader] }
     s.inbox = .read .foutHeader :: [] ∧ s.out.fout = some f) ∧
    (let s := { State.reset with inbox := [.read .foutPlen] }
     s.inbox = .read .foutPlen :: [] ∧ s.out.fout = none) ∧
    (let f : FoutReg := ⟨FrameHeader.zero, bytes [7], 1#7⟩
     let s := { completeOk (.ofFout f) (busy (request 2)) with inbox := [.read .foutPlen] }
     s.inbox = .read .foutPlen :: [] ∧ s.out.fout = some f) ∧
    (let s := { State.reset with inbox := [.read (.foutPayload 0#6)] }
     s.inbox = .read (.foutPayload 0#6) :: [] ∧ s.out.fout = none) ∧
    (let f : FoutReg := ⟨FrameHeader.zero, bytes [7], 1#7⟩
     let s := { completeOk (.ofFout f) (busy (request 2)) with inbox := [.read (.foutPayload 0#6)] }
     s.inbox = .read (.foutPayload 0#6) :: [] ∧ s.out.fout = some f ∧ f.payload[(0#6).toNat]? = some 7#8) ∧
    (let f : FoutReg := ⟨FrameHeader.zero, bytes [7], 1#7⟩
     let s := { completeOk (.ofFout f) (busy (request 2)) with inbox := [.read (.foutPayload 1#6)] }
     s.inbox = .read (.foutPayload 1#6) :: [] ∧ s.out.fout = some f ∧ f.payload.length ≤ (1#6).toNat) ∧
    (let s := { State.reset with inbox := [.read .status] }
     s.inbox = .read .status :: [] ∧ s.status.last = none) ∧
    (let s := { completeOk Outputs.noValue (busy qWrite) with inbox := [.read .status] }
     s.inbox = .read .status :: [] ∧ s.status.last = some .ok) ∧
    { State.reset with inbox := [.read .statusFlags] }.inbox = .read .statusFlags :: [] := by decide

theorem witness_StatusWordLayout :
    (Status.mk false true (some (.error (.contractViolation .nRange)))).last =
      some (.error (.contractViolation .nRange)) := rfl

theorem witness_ResetAbandonsTheOperation :
    { commanding qRead 0x3E00 with inbox := [.reset] }.inbox = .reset :: [] := rfl

/-- DIN_LEN one above the capacity; and zero and nine bytes. -/
theorem witness_Crc16PutsTheCrcInVout :
    (busy { request 4 with dinLen := 1025#16 }).request.dinLen.toNat > State.reset.params.bufBytes ∧
    (let s := busy (request 4)
     s.request.dinLen.toNat ≤ s.params.bufBytes ∧ s.request.din.bytes s.request.dinLen.toNat = some []) ∧
    (let s := busy (request 4 (din := [0x31, 0x32]))
     s.request.dinLen.toNat ≤ s.params.bufBytes ∧
       s.request.din.bytes s.request.dinLen.toNat = some (bytes [0x31, 0x32])) := by decide

theorem witness_CrcDetectsEverySingleBitError :
    1 < (bytes [0xA0, 0x10]).length ∧ 7 < 8 ∧ (bytes [0xA0, 0x10]).length = (bytes [0xFF, 0xFF]).length := by decide

theorem witness_UnpackIdInvertsPackId :
    (0x7FF#29).toNat < 2048 ∧ (0xC00007FF#32).extractLsb' 0 11 = (0x000007FF#32).extractLsb' 0 11 ∧
    (0xE2B3C48D#32).extractLsb' 0 29 = (0x02B3C48D#32).extractLsb' 0 29 := by decide

theorem witness_ControlWordPacking : (0xFFFFFE03#32).extractLsb' 0 9 = (0x3#32).extractLsb' 0 9 := by decide

/-- PLEN 65 and 64; a frame that fails its check; a valid one. -/
theorem witness_EncodeGivesTheFrameImage :
    64 < (busy (request 1 (fin := { State.reset.fin with plen := 65#7 }))).request.fin.plen.toNat ∧
    (let s := busy (request 1 (fin := frame .std 0x800 0 false true false false (List.replicate 64 0xA5)))
     s.request.fin.plen.toNat = 64 ∧ checkFrame s.request.fin.hdr = some .stdIdRange) ∧
    (let s := busy (request 1 (fin := frame .std 0x7FF 15 false true false true (List.replicate 64 0xA5)))
     s.request.fin.plen.toNat ≤ 64 ∧ checkFrame s.request.fin.hdr = none ∧
       s.request.fin.payload.bytes s.request.fin.plen.toNat = some (List.replicate 64 0xA5#8)) := by decide +kernel

/-- DIN_LEN 1025; 7 bytes; SID11 set; FDF with RTR; a length one short; the table's length (section 3.5). -/
theorem witness_DecodeGivesTheFrame :
    (let s := busy { request 2 with dinLen := 1025#16 }
     s.params.bufBytes < s.request.dinLen.toNat) ∧
    (let b := [0x23, 1, 0, 0, 3, 0, 0]
     let s := busy (request 2 (din := b))
     s.request.dinLen.toNat ≤ s.params.bufBytes ∧ s.request.din.bytes s.request.dinLen.toNat = some (bytes b) ∧
       (bytes b).length < 8) ∧
    (let b := [0x23, 1, 0, 0x20, 3, 0, 0, 0]
     let s := busy (request 2 (din := b))
     s.request.din.bytes s.request.dinLen.toNat = some (bytes b) ∧
       (0x20#8 ++ 0x00#8 ++ 0x01#8 ++ 0x23#8 : Word).getLsbD 29 = true) ∧
    (let b := [0x10, 0, 0, 0, 0xA0, 0, 0, 0]
     let s := busy (request 2 (din := b))
     s.request.din.bytes s.request.dinLen.toNat = some (bytes b) ∧ (0x010#32).getLsbD 29 = false ∧
       (0x00#8 ++ 0x00#8 ++ 0x00#8 ++ 0x10#8 : Word) = 0x010#32 ∧ (0x00#8 ++ 0x00#8 ++ 0x00#8 ++ 0xA0#8 : Word) = 0xA0#32 ∧
       checkFrame (unpackHeader 0x010#32 0xA0#32) = some .rtrWithFdf) ∧
    (let b := [0x23, 1, 0, 0, 3, 0, 0, 0, 0x11, 0x22]
     let s := busy (request 2 (din := b))
     s.request.din.bytes s.request.dinLen.toNat = some (bytes b) ∧ (0x123#32).getLsbD 29 = false ∧
       checkFrame (unpackHeader 0x123#32 3#32) = none ∧
       (bytes [0x11, 0x22]).length ≠ dlcLen (unpackHeader 0x123#32 3#32).dlc) ∧
    (let b := [0x23, 1, 0, 0, 3, 0, 0, 0, 0x11, 0x22, 0x33]
     let s := busy (request 2 (din := b))
     s.request.din.bytes s.request.dinLen.toNat = some (bytes b) ∧
       (0x00#8 ++ 0x00#8 ++ 0x01#8 ++ 0x23#8 : Word) = 0x123#32 ∧ (0x00#8 ++ 0x00#8 ++ 0x00#8 ++ 0x03#8 : Word) = 3#32 ∧
       (bytes [0x11, 0x22, 0x33]).length = dlcLen (unpackHeader 0x123#32 3#32).dlc) := by decide +kernel

theorem witness_DecodeNeverReportsStdIdRange :
    ∃ t, exec .frameDecode (busy (request 2 (din := [0x10, 0, 0, 0, 0xA0, 0, 0, 0]))) = .next t := ⟨_, rfl⟩

theorem witness_DecodeOfEncodeIsTheFrame :
    (let s := busy (request 1 (fin := frame .std 0x123 3 false false false false [0x11, 0x22, 0x33]))
     s.request.fin.plen.toNat ≤ 64 ∧ checkFrame s.request.fin.hdr = none ∧
       s.request.fin.payload.bytes s.request.fin.plen.toNat = some (bytes [0x11, 0x22, 0x33]) ∧
       (bytes [0x11, 0x22, 0x33]).length = dlcLen s.request.fin.hdr.dlc) ∧
    (let u := busy (request 2 (din := [0x23, 1, 0, 0, 3, 0, 0, 0, 0x11, 0x22, 0x33]))
     u.request.dinLen = 11#16 ∧ u.request.dinLen.toNat ≤ u.params.bufBytes ∧
       u.request.din.bytes u.request.dinLen.toNat = some (bytes [0x23, 1, 0, 0, 3, 0, 0, 0, 0x11, 0x22, 0x33])) := by
  decide +kernel

/-- A canonical string, and one that is not (section 3.5). -/
theorem witness_EncodeOfDecodeIsTheCanonicalImage :
    (∃ f, decodeImage (bytes [0x23, 0x01, 0x00, 0x00, 0x03, 0x00, 0x00, 0x00, 0x11, 0x22, 0x33]) = .ok f) ∧
    (∃ f, decodeImage (bytes [0x23, 0x01, 0xF8, 0xDF, 0x03, 0xFE, 0xFF, 0xFF, 0x11, 0x22, 0x33]) = .ok f) :=
  ⟨⟨_, rfl⟩, ⟨_, rfl⟩⟩

/-- Code 9 with FDF; 7 bytes; one byte short of and exactly 8 + 3 bytes. -/
theorem witness_DecodeAcceptsExactlyTheTableLength :
    8 < (9#4).toNat ∧ (0x123#32).getLsbD 29 = false ∧ checkFrame (unpackHeader 0x123#32 3#32) = none ∧
    (bytes [0x23, 1, 0, 0, 3, 0, 0]).length < 8 ∧
    (let b := [0x23, 1, 0, 0, 3, 0, 0, 0, 0x11, 0x22]
     let s := busy (request 2 (din := b))
     s.request.dinLen.toNat ≤ s.params.bufBytes ∧ s.request.din.bytes s.request.dinLen.toNat = some (bytes b) ∧
       (bytes b).take 8 = le32 0x123#32 ++ le32 3#32 ∧ (bytes b).length ≠ 8 + dlcLen (unpackHeader 0x123#32 3#32).dlc) ∧
    (let b := [0x23, 1, 0, 0, 3, 0, 0, 0, 0x11, 0x22, 0x33]
     let s := busy (request 2 (din := b))
     s.request.dinLen.toNat ≤ s.params.bufBytes ∧ s.request.din.bytes s.request.dinLen.toNat = some (bytes b) ∧
       (bytes b).take 8 = le32 0x123#32 ++ le32 3#32 ∧
       (bytes b).length = 8 + dlcLen (unpackHeader 0x123#32 3#32).dlc) := by decide +kernel

/-- Two requests that differ in a byte of FIN.PAYLOAD that is not in the frame (PLEN 4 above 2, section 3.4). -/
theorem witness_EncodeIsInjective :
    (let f := frame .std 0x100 2 false false false false [0x01, 0x02]
     checkFrame f.hdr = none ∧ (bytes [1, 2]).length = dlcLen f.hdr.dlc ∧
       frameImage f.hdr (bytes [1, 2]) = frameImage f.hdr (bytes [1, 2])) ∧
    (let s := busy (request 1 (fin := frame .std 0x100 2 false false false false [0x01, 0x02, 0x03, 0x04]))
     let s' := busy (request 1 (fin := frame .std 0x100 2 false false false false [0x01, 0x02, 0x07, 0x08]))
     s'.request.fin.hdr = s.request.fin.hdr ∧ s'.request.fin.plen = s.request.fin.plen ∧
       (∀ j, j < 4 → j < 2 → s'.request.fin.payload.read j = s.request.fin.payload.read j) ∧
       s.request.fin.plen.toNat = 4 ∧ dlcLen s.request.fin.hdr.dlc = 2 ∧ (after .frameEncode s).isSome = true ∧
       (after .frameEncode s').isSome = true) := by decide +kernel

/-- Each check at its boundary, with the checks before it passed (section 3.7); and 0x401 with 1024 bytes and N, where RAM_ALIGN
comes before N_RANGE. -/
theorem witness_ContractChecksInOrder :
    checkXact Config.testBinding 0x3FF#12 2 false = some .regionStraddle ∧
    checkXact Config.testBinding 0xBFC#12 8 false = some .regionStraddle ∧
    checkXact Config.testBinding 0xBFF#12 1 false = some .ramAlign ∧
    checkXact Config.testBinding 0x401#12 1024 true = some .ramAlign ∧
    checkXact Config.testBinding 0x400#12 1024 true = some .nRange ∧
    checkXact Config.testBinding 0x000#12 256 true = some .nRange ∧
    Config.testBinding.bufBytes < 1025 ∧ 1024 ≤ Config.testBinding.bufBytes := by decide +kernel

theorem witness_LengthByteCountsUnits :
    checkXact Config.testBinding 0x400#12 1020 true = none ∧ region 0x400 1020 = .ram ∧
    checkXact Config.testBinding 0xF01#12 255 true = none ∧ region 0xF01 255 = .sfr := by decide +kernel

theorem witness_ContractViolationMakesNoExchange :
    (let s := busy (request 8 0x3FF 2)
     contractCheck s.params .read s.request = some .regionStraddle) ∧
    (let s := busy { request 9 with dinLen := 1025#16 }
     contractCheck s.params .write s.request = some .bufRange) ∧
    (let s := busy (request 10 0x000 256)
     contractCheck s.params .readCrc s.request = some .nRange) ∧
    (let s := busy (request 11 0x401 0 (din := [1, 2, 3, 4]))
     contractCheck s.params .writeCrc s.request = some .ramAlign) ∧
    (let s := withSafe 0xD#4 (busy (request 12 0x400 0))
     s.params.safeCmd ≠ none ∧ contractCheck s.params .safeReadCrc s.request = some .lenZero) ∧
    (busy (request 8 0x3FF 2)).runFinal = true ∧
    (stepped (busy (request 8 0x3FF 2))).map (·.runFinal) = some false ∧
    (stepped { busy qRead with runFinal := false }).map (·.runFinal) = some false ∧
    (stepped { State.reset with req := true }).map (·.runFinal) = some false ∧
    (let s := { State.reset with inbox := [.read .vout] }
     s.inbox = .read .vout :: [] ∧ outputValue .vout s = none ∧ (stepped s).map (·.runFinal) = some false) := by decide +kernel

theorem witness_BusOperationIssuesItsCommand :
    contractCheck (busy qRead).params .read (busy qRead).request = none ∧
    contractCheck (busy qWrite).params .write (busy qWrite).request = none ∧
    contractCheck (busy qReadCrc).params .readCrc (busy qReadCrc).request = none ∧
    (let s := busy (request 11 0xFFF 0 (din := [0x5A]))
     contractCheck s.params .writeCrc s.request = none) ∧
    (let s := withSafe 0xD#4 (busy (request 12 0x400 8))
     s.params.safeCmd = some 0xD#4 ∧ contractCheck s.params .safeReadCrc s.request = none) := by decide +kernel

theorem witness_ReservedOpIsUnsupported :
    Instr.reservedOpF ∈ [Instr.reservedOp0, .reservedOp5, .reservedOp6, .reservedOp7, .reservedOpD, .reservedOpE,
      .reservedOpF] := by decide

theorem witness_WireCommandSendsItsLayout :
    (commanding qWrite 0x2123).link.outstanding = none ∧
    (commanding qWrite 0x2123).request.din.bytes (commanding qWrite 0x2123).request.dinLen.toNat = some (bytes [0xFF]) := by
  decide

theorem witness_WireCommandChecksTheResponse :
    (let s := answered qWrite 0x2123 [0x21, 0x23, 0xFF] (some .err)
     s.link.outstanding = some (bytes [0x21, 0x23, 0xFF]) ∧ s.link.reply = some .err) ∧
    (let s := answered qWrite 0x2123 [0x21, 0x23, 0xFF] (some (.ok (bytes [0, 0])))
     s.link.reply = some (.ok (bytes [0, 0])) ∧ (bytes [0, 0]).length ≠ (bytes [0x21, 0x23, 0xFF]).length) ∧
    (bytes [0x55, 0xAA, 0x00]).length = (bytes [0x21, 0x23, 0xFF]).length ∧
    Instr.wireWrite 0x123#12 ∈ [Instr.wireRead 0x123#12, .wireWrite 0x123#12, .wireReadCrc 0x123#12, .wireWriteCrc 0x123#12,
      .wireSafeReadCrc 0xD#4 0x123#12] ∧ Instr.wireWrite 0x123#12 ≠ .wireSafeReadCrc 0xD#4 0x123#12 := by decide

/-- The plain read of four bytes; and the CRC read with the CRC that fits and with one that does not (section 3.8). -/
theorem witness_WireReadDeliversTheData :
    (let s := answered qRead 0x3E00 txRead (some (.ok (bytes [0, 0, 0x11, 0x22, 0x33, 0x44])))
     s.link.outstanding = some (bytes txRead) ∧ (bytes [0, 0, 0x11, 0x22, 0x33, 0x44]).length = (bytes txRead).length ∧
       (bytes txRead).length = 2 + s.request.len.toNat) ∧
    (let s := answered qReadCrc 0xBE14 txReadCrc (some (.ok (bytes rxReadCrc)))
     s.link.outstanding = some (bytes txReadCrc) ∧ s.link.reply = some (.ok (bytes rxReadCrc)) ∧
       (bytes rxReadCrc).length = (bytes txReadCrc).length ∧
       (bytes [0xDE, 0xAD, 0xBE, 0xEF]).length = s.request.len.toNat ∧
       (bytes rxReadCrc).drop 3 = bytes [0xDE, 0xAD, 0xBE, 0xEF] ++ [0x1A#8, 0x3C#8] ∧
       0x1A#8 ++ 0x3C#8 = crc16 ((bytes txReadCrc).take 3 ++ bytes [0xDE, 0xAD, 0xBE, 0xEF]) ∧
       0x1A#8 ++ 0xBC#8 ≠ crc16 ((bytes txReadCrc).take 3 ++ bytes [0xDE, 0xAD, 0xBE, 0xEF])) := by decide +kernel

/-- A check that fails and one that passes; a response too short and one that fits. -/
theorem witness_ReadRuns :
    (busy qRead).phase = .busy qRead .operation ∧ qRead.op = 0x8#4 ∧ (busy qRead).link.outstanding = none ∧
    (busy qRead).params = Config.testBinding ∧ checkXact Config.testBinding qRead.addr qRead.len.toNat false = none ∧
    be16 (0x3#4 ++ qRead.addr) ++ List.replicate qRead.len.toNat 0x00#8 = bytes txRead ∧
    (bytes [0, 0, 1, 2, 3]).length ≠ (bytes txRead).length ∧ (bytes [0, 0, 1, 2, 3, 4]).length = (bytes txRead).length ∧
    (busy (request 8 0xFFF 2)).phase = .busy (request 8 0xFFF 2) .operation ∧
    checkXact Config.testBinding (request 8 0xFFF 2).addr (request 8 0xFFF 2).len.toNat false = some .addrRange := by
  decide +kernel

/-- A check that fails and one that passes; a response too short and one that fits. -/
theorem witness_WriteRuns :
    (busy qWrite).phase = .busy qWrite .operation ∧ qWrite.op = 0x9#4 ∧ (busy qWrite).link.outstanding = none ∧
    qWrite.din.bytes qWrite.dinLen.toNat = some (bytes [0xFF]) ∧ qWrite.dinLen.toNat ≤ (busy qWrite).params.bufBytes ∧
    checkXact (busy qWrite).params qWrite.addr qWrite.dinLen.toNat false = none ∧
    (bytes [0, 0]).length ≠ (be16 (0x2#4 ++ qWrite.addr) ++ bytes [0xFF]).length ∧
    (bytes [0, 0, 0]).length = (be16 (0x2#4 ++ qWrite.addr) ++ bytes [0xFF]).length ∧
    (let q := request 9 0x400 0 (din := [1])
     (busy q).phase = .busy q .operation ∧ q.op = 0x9#4 ∧ q.din.bytes q.dinLen.toNat = some (bytes [1]) ∧
       q.dinLen.toNat ≤ (busy q).params.bufBytes ∧
       checkXact (busy q).params q.addr q.dinLen.toNat false = some .ramAlign) := by decide +kernel

/-- DIN_LEN one above the capacity, in a state whose buffers are in canonical form (DIN holds no byte). -/
theorem witness_WriteRuns_bufRange :
    (let q := { request 9 with dinLen := 1025#16 }
     (busy q).phase = .busy q .operation ∧ q.op = 0x9#4 ∧ (busy q).link.outstanding = none ∧
       (busy q).params.bufBytes < q.dinLen.toNat) := by decide +kernel

theorem witness_ReadCrcRuns :
    (busy qReadCrc).phase = .busy qReadCrc .operation ∧ qReadCrc.op = 0xA#4 ∧ (busy qReadCrc).link.outstanding = none ∧
    checkXact Config.testBinding qReadCrc.addr qReadCrc.len.toNat true = none ∧
    be16 (0xB#4 ++ qReadCrc.addr) ++ [lengthField qReadCrc.addr qReadCrc.len.toNat] ++
      List.replicate qReadCrc.len.toNat 0x00#8 ++ [0x00#8, 0x00#8] = bytes txReadCrc ∧
    (let q := request 10 0x000 256
     (busy q).phase = .busy q .operation ∧ q.op = 0xA#4 ∧ checkXact (busy q).params q.addr q.len.toNat true = some .nRange) ∧
    (bytes [0, 0]).length ≠ (bytes txReadCrc).length ∧
    (bytes [0xDE, 0xAD, 0xBE, 0xEF]).length = qReadCrc.len.toNat ∧
    0x1A#8 ++ 0x3C#8 = crc16 ((bytes txReadCrc).take 3 ++ bytes [0xDE, 0xAD, 0xBE, 0xEF]) ∧
    0x1A#8 ++ 0x3C#8 ≠ crc16 ((bytes txReadCrc).take 3 ++ bytes [0xDE, 0xAD, 0xBE, 0xEE]) := by decide +kernel

theorem witness_WriteCrcRuns :
    (let q := request 11 0x400 0 (din := [1, 2, 3, 4])
     (busy q).phase = .busy q .operation ∧ q.op = 0xB#4 ∧ (busy q).link.outstanding = none ∧
       q.din.bytes q.dinLen.toNat = some (bytes [1, 2, 3, 4]) ∧ q.dinLen.toNat ≤ Config.testBinding.bufBytes ∧
       checkXact Config.testBinding q.addr q.dinLen.toNat true = none) ∧
    (let q := request 11 0x401 0 (din := [1, 2, 3, 4])
     (busy q).phase = .busy q .operation ∧ q.din.bytes q.dinLen.toNat = some (bytes [1, 2, 3, 4]) ∧
       q.dinLen.toNat ≤ (busy q).params.bufBytes ∧ checkXact (busy q).params q.addr q.dinLen.toNat true = some .ramAlign) ∧
    (let q := { request 11 with dinLen := 1025#16 }
     (busy q).phase = .busy q .operation ∧ q.op = 0xB#4 ∧ (busy q).link.outstanding = none ∧
       (busy q).params.bufBytes < q.dinLen.toNat) := by decide +kernel

theorem witness_SafeReadCrcRuns :
    (let q := request 12 0x400 8
     (busy q).phase = .busy q .operation ∧ q.op = 0xC#4 ∧ (busy q).link.outstanding = none ∧
       (busy q).params.safeCmd = none ∧ (withSafe 0xD#4 (busy q)).params.safeCmd = some 0xD#4 ∧ isSafeCode 0xD#4 = true ∧
       checkXact (withSafe 0xD#4 (busy q)).params q.addr q.len.toNat true = none ∧
       (let tx := be16 (0xD#4 ++ q.addr) ++ [lengthField q.addr q.len.toNat] ++ List.replicate q.len.toNat 0x00#8 ++
          [0x00#8, 0x00#8]
        (bytes (List.replicate 12 0)).length ≠ tx.length ∧
          (bytes [0x23, 0x01, 0, 0, 0x03, 0, 0, 0]).length = q.len.toNat ∧
          0x90#8 ++ 0x15#8 = crc16 (tx.take 3 ++ bytes [0x23, 0x01, 0, 0, 0x03, 0, 0, 0]) ∧
          0x90#8 ++ 0x14#8 ≠ crc16 (tx.take 3 ++ bytes [0x23, 0x01, 0, 0, 0x03, 0, 0, 0]))) ∧
    (let q := request 12 0x401 8
     let s := withSafe 0xD#4 (busy q)
     s.phase = .busy q .operation ∧ s.params.safeCmd = some 0xD#4 ∧
       checkXact s.params q.addr q.len.toNat true = some .ramAlign) := by decide +kernel

/-- The first byte and the last one of data and CRC, bits 0 and 7. -/
theorem witness_FlippedBitFailsTheIntegrityCheck :
    (let s := answered qReadCrc 0xBE14 txReadCrc (some (.ok (bytes rxReadCrc)))
     s.link.outstanding = some (bytes txReadCrc) ∧ s.link.reply = some (.ok (bytes rxReadCrc)) ∧
       after (.wireReadCrc 0xE14#12) s = some (some 0x0002#16, doutOf [0xDE, 0xAD, 0xBE, 0xEF]) ∧
       3 ≤ 3 ∧ 8 < 5 + s.request.len.toNat ∧ 7 < 8) := by decide +kernel

theorem witness_HeaderTimeBytesAreIgnored :
    (answered qReadCrc 0xBE14 txReadCrc (some (.ok (bytes rxReadCrc)))).link.reply = some (.ok (bytes rxReadCrc)) ∧
    (bytes rxReadCrc).length = (bytes [0xFF, 0xFF, 0xFF, 0xDE, 0xAD, 0xBE, 0xEF, 0x1A, 0x3C]).length ∧
    (bytes rxReadCrc).drop 3 = (bytes [0xFF, 0xFF, 0xFF, 0xDE, 0xAD, 0xBE, 0xEF, 0x1A, 0x3C]).drop 3 ∧
    (bytes [0, 0, 1]).drop 2 = (bytes [0xFF, 0xFF, 1]).drop 2 := by decide

theorem witness_OnlyAnAnswerOrResetEndsTheWait :
    (let s := answered qRead 0x3E00 txRead none
     s.phase = .busy qRead (.command 0x3E00#16) ∧ s.link.outstanding = some (bytes txRead) ∧ s.link.reply = none) ∧
    (∀ a es, (answered qRead 0x3E00 txRead none).inbox ≠ .answer a :: es) ∧
    (∀ es, (answered qRead 0x3E00 txRead none).inbox ≠ .reset :: es) ∧
    ∃ t, step (answered qRead 0x3E00 txRead none) = .next t :=
  ⟨by decide, fun _ _ h => (by cases h), fun _ h => (by cases h), _, rfl⟩

theorem witness_AnyAnswerIsTaken :
    (let s := { answered qRead 0x3E00 txRead none with inbox := [.answer .err] }
     s.inbox = .answer .err :: [] ∧ s.link.outstanding = some (bytes txRead) ∧ s.link.reply = none) := by decide

theorem witness_ExchangesNeverOverlap : ∃ t, step (commanding qRead 0x3E00) = .next t := ⟨_, rfl⟩

theorem witness_ParametersNeverChange : ∃ t, step (busy qRead) = .next t := ⟨_, rfl⟩

/-- FCF in the command stage of READ 0xE00, 4, before its Exchange, meets all four invariants. -/
theorem commanding_mirrors : StatusMirrorsPhase (commanding qRead 0x3E00) :=
  ⟨⟨fun _ h => (by cases h), fun _ => rfl⟩, by decide, fun h => (by cases h), fun h => (by cases h)⟩

theorem commanding_canonical : BuffersCanonical (commanding qRead 0x3E00) :=
  ⟨rfl, fun _ h => (by cases h), rfl, fun _ h => (by cases h), fun _ _ h => (by
    cases h; exact ⟨rfl, fun _ h => (by cases h), rfl, fun _ h => (by cases h)⟩)⟩

theorem commanding_emits : EmitsOnlyItsCommands (commanding qRead 0x3E00) :=
  ⟨fun _ _ h => (by cases h; exact ⟨0x3#4, rfl, rfl, rfl⟩), fun _ _ _ _ h => (by cases h), fun _ h => (by cases h)⟩

theorem commanding_outputs : OutputsMatchResult (commanding qRead 0x3E00) :=
  ⟨fun _ => rfl, ⟨fun h => (by cases h), fun h => (by cases h)⟩, fun _ h => (by cases h), fun _ h => (by cases h),
    fun _ _ h => (by cases h)⟩

theorem witness_StepKeepsStatusMirrorsPhase :
    ∃ t, StatusMirrorsPhase (commanding qRead 0x3E00) ∧ step (commanding qRead 0x3E00) = .next t :=
  ⟨_, commanding_mirrors, rfl⟩

theorem witness_StepKeepsBuffersCanonical :
    ∃ t, BuffersCanonical (commanding qRead 0x3E00) ∧ step (commanding qRead 0x3E00) = .next t :=
  ⟨_, commanding_canonical, rfl⟩

theorem witness_StepEmitsOnlyItsCommands :
    ∃ t, StatusMirrorsPhase (commanding qRead 0x3E00) ∧ EmitsOnlyItsCommands (commanding qRead 0x3E00) ∧
      step (commanding qRead 0x3E00) = .next t := ⟨_, commanding_mirrors, commanding_emits, rfl⟩

theorem witness_StepKeepsOutputsMatchResult :
    ∃ t, OutputsMatchResult (commanding qRead 0x3E00) ∧ EmitsOnlyItsCommands (commanding qRead 0x3E00) ∧
      BuffersCanonical (commanding qRead 0x3E00) ∧ (commanding qRead 0x3E00).params.wellFormed = true ∧
      step (commanding qRead 0x3E00) = .next t := ⟨_, commanding_outputs, commanding_emits, commanding_canonical, rfl, rfl⟩

/-- A Busy FCF whose step ends the operation: CRC16 of no bytes. -/
theorem witness_OperationEndsWithAResultOfItsRow :
    ∃ t, EmitsOnlyItsCommands (busy (request 4)) ∧ (busy (request 4)).params.wellFormed = true ∧
      (busy (request 4)).phase = .busy (request 4) .operation ∧ (∀ es, (busy (request 4)).inbox ≠ .reset :: es) ∧
      step (busy (request 4)) = .next t ∧ t.phase = .idle :=
  ⟨_, ⟨fun _ _ h => (by cases h), fun _ _ _ h => (by cases h), fun _ h => (by cases h)⟩, rfl, rfl, fun _ h => (by cases h), rfl, rfl⟩

end Sys2Proof.Tests
end

section
/-! PROOFS. What a step is: the rule for FCF's turn and the rule for an event, and what it can change, said once. -/

namespace Sys2Proof.Machine

/-! ## The two rules of `step` -/

/-- It is FCF's turn, with the events `es` still to come: the queue is empty, or FCF's turn stands at its head (log entry 6). -/
def FcfTurn (s : State) (es : List Event) : Prop := (s.inbox = [] ∧ es = []) ∨ s.inbox = .fcf :: es

theorem step_of_emptyInbox {s : State} (h : s.inbox = []) : step s = fcfMove s := by
  simp only [step, h]

theorem step_of_fcfTurn {s : State} {es : List Event} (h : FcfTurn s es) : step s = fcfMove { s with inbox := es } := by
  rcases h with ⟨h, rfl⟩ | h
  · rw [step_of_emptyInbox h, ← h]
  · simp only [step, h]

theorem step_of_event {s : State} {e : Event} {es : List Event} (h : s.inbox = e :: es) (he : e ≠ .fcf) :
    step s = deliver e { s with inbox := es } := by
  unfold step
  rw [h]
  cases e
  case fcf => exact absurd rfl he
  all_goals rfl

/-! ## FCF's move -/

theorem fcfMove_of_operation {s : State} {q : Request} (h : s.phase = .busy q .operation) :
    fcfMove s = exec (decodeOp q.op) s := by
  simp [fcfMove, h, fetch]

theorem fcfMove_of_request {s : State} (h : s.phase = .idle) (hr : s.req = true) : fcfMove s = .next (accept s) := by
  simp [fcfMove, h, hr]

theorem fcfMove_of_noRequest {s : State} (h : s.phase = .idle) (hr : s.req = false) : fcfMove s = .next s := by
  simp [fcfMove, h, hr]

/-! ## What a step can do -/

/-- What a step does to the state once the event it takes has left the queue: FCF accepts a request, carries out an
instruction or rests, or something from outside lands. An ignored write leaves the state as a rest does. -/
inductive Effect (s : State) : State → Prop where
  | accepts (hp : s.phase = .idle) (hr : s.req = true) : Effect s (accept s)
  | runs {q : Request} {st : Stage} {i : Instr} {t : State} (hp : s.phase = .busy q st) (hf : fetch q st = .ok i)
      (hm : Move i s t) : Effect s t
  | rests : Effect s s
  | writes {w : InputWrite} {t : State} (hw : writeInput w s = .next t) : Effect s t
  | requests : Effect s (raiseReq s)
  | reads (r : OutputRead) : Effect s (readOutput r s)
  | answers (a : Answer) : Effect s (takeAnswer a s)
  | resets : Effect s (resetFcf s)

theorem fcfMove_effect {s t : State} (h : fcfMove s = .next t) : Effect s t := by
  rcases fcfMove_cases h with ⟨hp, hr, rfl⟩ | ⟨-, -, rfl⟩ | ⟨q, st, i, hp, hf, hx⟩
  · exact .accepts hp hr
  · exact .rests
  · exact .runs hp hf (exec_cases hx)

theorem deliver_effect {e : Event} {s t : State} (h : deliver e s = .next t) : Effect s t := by
  cases e with
  | write w => exact .writes h
  | fcf => cases h; exact .rests
  | req => cases h; exact .requests
  | read r => cases h; exact .reads r
  | writeOutput r v => cases h; exact .rests
  | answer a => cases h; exact .answers a
  | reset => cases h; exact .resets

theorem step_effect {s t : State} (h : step s = .next t) : ∃ es, Effect { s with inbox := es } t := by
  rcases step_cases h with ⟨-, h⟩ | ⟨es, -, h⟩ | ⟨e, es, -, -, h⟩
  · exact ⟨s.inbox, fcfMove_effect h⟩
  · exact ⟨es, fcfMove_effect h⟩
  · exact ⟨es, deliver_effect h⟩

/-- A predicate that does not look at the queue and that every effect keeps is kept by every step. -/
theorem step_keeps {P : State → Prop} (hq : ∀ s es, P s → P { s with inbox := es })
    (he : ∀ s t, P s → Effect s t → P t) {s t : State} (hs : P s) (h : step s = .next t) : P t := by
  obtain ⟨es, he'⟩ := step_effect h
  exact he _ _ (hq s es hs) he'

end Sys2Proof.Machine
end

section
/-! PROOFS. The decoder and the commands: which instruction an OP selects and which a header carries. -/

namespace Sys2Proof

open Machine

/-- The OPSEL byte of a 4-bit code is decoded to the operation it selects (R81). -/
theorem decode_opsel_op (op : BitVec 4) : decode .opsel [op.setWidth 8] = .ok (decodeOp op, []) := by
  have hlt : (op.setWidth 8).toNat < 16 := by
    rw [BitVec.toNat_setWidth]; omega
  have hop : (op.setWidth 8).setWidth 4 = op := by simp
  simp only [decode, hlt, if_true, hop]

/-- An operation hands over no transaction itself: its wire command does. -/
theorem transactionOf_decodeOp (q : Request) (op : BitVec 4) : transactionOf q (decodeOp op) = none := by
  unfold decodeOp
  split <;> rfl

/-- Only a wire command hands over a transaction, so FCF is in its command stage (R130). -/
theorem command_of_transaction {q q' : Request} {st : Stage} {i : Instr} {tx : Bytes} (hf : fetch q st = .ok i)
    (ht : transactionOf q' i = some tx) : ∃ h, st = .command h := by
  cases st with
  | operation =>
    cases hf
    rw [transactionOf_decodeOp] at ht
    cases ht
  | command h => exact ⟨h, rfl⟩

end Sys2Proof
end

section
/-! PROOFS. What a host write does (R27, R28, R38). -/

namespace Sys2Proof.Machine

theorem step_write {s : State} {w : InputWrite} {es : List Event} (h : s.inbox = .write w :: es) :
    step s = writeInput w { s with inbox := es } := step_of_event h (by simp)

theorem mem_markWritten {r r' : InputReg} {s : State} : r' ∈ (markWritten r s).written ↔ r' = r ∨ r' ∈ s.written := by
  rw [markWritten_written]
  split
  · rename_i hr
    have hmem : r ∈ s.written := by simpa using hr
    exact ⟨.inr, fun h => h.elim (· ▸ hmem) id⟩
  · exact List.mem_cons

/-- A write of anything but a byte of DIN completes. -/
theorem writeInput_next_of_ne_din {w : InputWrite} (h : ∀ i b, w ≠ .din i b) (s : State) : ∃ t, writeInput w s = .next t := by
  cases w
  case din i b => exact absurd rfl (h i b)
  all_goals exact ⟨_, rfl⟩

theorem writeInput_din_of_lt {i : Nat} {s : State} (b : Byte) (h : i < s.params.bufBytes) :
    writeInput (.din i b) s = .next { s with din := s.din.write i b } := if_pos h

theorem writeInput_din_of_ge {i : Nat} {s : State} (b : Byte) (h : s.params.bufBytes ≤ i) :
    writeInput (.din i b) s = .fault (.noSuchByte i) := if_neg (by omega)

theorem writeInput_din_inv {i : Nat} {b : Byte} {s t : State} (h : writeInput (.din i b) s = .next t) :
    i < s.params.bufBytes ∧ t = { s with din := s.din.write i b } := by
  by_cases hi : i < s.params.bufBytes
  · rw [writeInput_din_of_lt b hi] at h
    cases h
    exact ⟨hi, rfl⟩
  · rw [writeInput_din_of_ge b (by omega)] at h
    cases h

/-- A host write changes one byte of DIN below its capacity, or one of the 64 bytes of FIN.PAYLOAD, or neither buffer. -/
theorem writeInput_buffers {w : InputWrite} {s t : State} (h : writeInput w s = .next t) :
    (∃ i b, i < s.params.bufBytes ∧ t.din = s.din.write i b ∧ t.fin.payload = s.fin.payload) ∨
    (∃ (i : BitVec 6) (b : Byte), t.din = s.din ∧ t.fin.payload = s.fin.payload.write i.toNat b) ∨
    (t.din = s.din ∧ t.fin.payload = s.fin.payload) := by
  cases w
  case din i b =>
    obtain ⟨hi, rfl⟩ := writeInput_din_inv h
    exact .inl ⟨i, b, hi, rfl, rfl⟩
  case payload i b => cases h; exact .inr (.inl ⟨i, b, rfl, rfl⟩)
  all_goals cases h; exact .inr (.inr ⟨rfl, rfl⟩)

end Sys2Proof.Machine
end

section
/-! PROOFS. STATUS mirrors PHASE (R29, R31, R35). -/

namespace Sys2Proof

open Machine

namespace StatusMirrorsPhase

theorem of_same {s t : State} (h : StatusMirrorsPhase s) (hp : t.phase = s.phase) (hs : t.status = s.status)
    (hl : t.link = s.link) : StatusMirrorsPhase t := by
  obtain ⟨hbusy, hboth, hout, hreply⟩ := h
  constructor <;> simpa only [hp, hs, hl]

/-- Idle, not BUSY and no Exchange: what a completion and reset leave. -/
theorem of_idle {t : State} (hp : t.phase = .idle) (hb : t.status.busy = false) (ho : t.link.outstanding = none)
    (hr : t.link.reply = none) : StatusMirrorsPhase t := by
  constructor <;> simp [hp, hb, ho, hr]

theorem after_accept {s : State} (h : StatusMirrorsPhase s) (hp : s.phase = .idle) : StatusMirrorsPhase (accept s) where
  busy := by simp
  notBoth := by simp
  outstanding ho := by
    obtain ⟨q, c, hc⟩ := h.outstanding ho
    rw [hp] at hc
    cases hc
  reply := h.reply

theorem after_move {s t : State} {q : Request} {st : Stage} {i : Instr} (h : StatusMirrorsPhase s) (hp : s.phase = .busy q st)
    (hf : fetch q st = .ok i) (hm : Move i s t) : StatusMirrorsPhase t := by
  cases hm with
  | ends c o hg hc => exact of_idle rfl rfl rfl rfl
  | issues c hc hx =>
    exact ⟨by simp, by simp, fun _ => ⟨_, _, issue_phase c s⟩, h.reply⟩
  | emits tx ht ho =>
    obtain ⟨hd, rfl⟩ := command_of_transaction hf ht
    exact ⟨h.busy, h.notBoth, fun _ => ⟨q, hd, hp⟩, fun hr => by cases hr⟩
  | waits tx ho hr => exact h

theorem after_takeAnswer {s : State} (h : StatusMirrorsPhase s) (a : Answer) : StatusMirrorsPhase (takeAnswer a s) := by
  rcases takeAnswer_cases a s with e | ⟨ho, -, e⟩ <;> rw [e]
  · exact h
  · exact ⟨h.busy, h.notBoth, h.outstanding, fun _ => ho⟩

theorem after_effect {s t : State} (h : StatusMirrorsPhase s) (he : Effect s t) : StatusMirrorsPhase t := by
  cases he with
  | accepts hp hr => exact h.after_accept hp
  | runs hp hf hm => exact h.after_move hp hf hm
  | rests => exact h
  | writes hw =>
    have hkeep := writeInput_wrote hw
    exact h.of_same hkeep.phase hkeep.status hkeep.link
  | requests => exact h.of_same rfl rfl rfl
  | reads r => exact h.of_same rfl rfl rfl
  | answers a => exact h.after_takeAnswer a
  | resets => exact of_idle rfl rfl rfl rfl

end StatusMirrorsPhase

/-- Settles O56: every effect of a step keeps it. An Exchange starts only from a wire command, because no OP decodes to
an instruction with a transaction of its own. -/
theorem stepKeepsStatusMirrorsPhase : Obligations.StepKeepsStatusMirrorsPhase := fun _ _ hs h =>
  step_keeps (fun _ _ hs => hs.of_same rfl rfl rfl) (fun _ _ => StatusMirrorsPhase.after_effect) hs h

end Sys2Proof
end

section
/-! PROOFS. The buffers stay in canonical form and within their capacities (R27, R28). -/

namespace Sys2Proof

open Machine

namespace BuffersCanonical

/-- The latched copies of `t` are among those of `s`. -/
theorem of_latched {s t : State} (h : BuffersCanonical s) (hparams : t.params = s.params) (hd : t.din = s.din)
    (hf : t.fin.payload = s.fin.payload) (hl : ∀ q st, t.phase = .busy q st → ∃ st', s.phase = .busy q st') :
    BuffersCanonical t where
  din := by rw [hd]; exact h.din
  dinBelow := by rw [hd, hparams]; exact h.dinBelow
  payload := by rw [hf]; exact h.payload
  payloadBelow := by rw [hf]; exact h.payloadBelow
  latched q st hp := by
    obtain ⟨st', hs⟩ := hl q st hp
    rw [hparams]
    exact h.latched q st' hs

theorem of_same {s t : State} (h : BuffersCanonical s) (hparams : t.params = s.params) (hd : t.din = s.din)
    (hf : t.fin.payload = s.fin.payload) (hp : t.phase = s.phase) : BuffersCanonical t :=
  h.of_latched hparams hd hf fun _ st hb => ⟨st, hp ▸ hb⟩

theorem after_accept {s : State} (h : BuffersCanonical s) : BuffersCanonical (accept s) where
  din := h.din
  dinBelow := h.dinBelow
  payload := h.payload
  payloadBelow := h.payloadBelow
  latched q st hp := by
    cases hp
    exact ⟨h.din, h.dinBelow, h.payload, h.payloadBelow⟩

theorem after_move {s t : State} {q : Request} {st : Stage} {i : Instr} (h : BuffersCanonical s)
    (hp : s.phase = .busy q st) (hm : Move i s t) : BuffersCanonical t := by
  cases hm with
  | ends c o hg hc => exact h.of_latched rfl rfl rfl fun _ _ hb => by cases hb
  | issues c hc hx =>
    refine h.of_latched rfl rfl rfl fun q' st' hb => ⟨st, ?_⟩
    rw [issue_phase, request_of_busy hp] at hb
    cases hb
    exact hp
  | emits tx ht ho => exact h.of_same rfl rfl rfl rfl
  | waits tx ho hr => exact h

theorem after_writeInput {w : InputWrite} {s t : State} (h : BuffersCanonical s) (hw : writeInput w s = .next t) :
    BuffersCanonical t := by
  have hkeep := writeInput_wrote hw
  have hl : ∀ q st, t.phase = .busy q st →
      q.din.wf = true ∧ Below t.params.bufBytes q.din ∧ q.fin.payload.wf = true ∧ Below Config.maxPayload q.fin.payload := by
    rw [hkeep.phase, hkeep.params]; exact h.latched
  rcases writeInput_buffers hw with ⟨i, b, hi, hd, hf⟩ | ⟨i, b, hd, hf⟩ | ⟨hd, hf⟩
  · exact ⟨hd ▸ Memory.write_wf i b h.din, by rw [hd, hkeep.params]; exact Machine.Below.write b hi h.dinBelow,
      hf ▸ h.payload, hf ▸ h.payloadBelow, hl⟩
  · exact ⟨hd ▸ h.din, by rw [hd, hkeep.params]; exact h.dinBelow, hf ▸ Memory.write_wf i.toNat b h.payload,
      hf ▸ Machine.Below.write b i.isLt h.payloadBelow, hl⟩
  · exact h.of_same hkeep.params hd hf hkeep.phase

theorem after_reset {s : State} : BuffersCanonical (resetFcf s) where
  din := rfl
  dinBelow _ hc := by cases hc
  payload := rfl
  payloadBelow _ hc := by cases hc
  latched _ _ hp := by cases hp

theorem after_effect {s t : State} (h : BuffersCanonical s) (he : Effect s t) : BuffersCanonical t := by
  cases he with
  | accepts hp hr => exact h.after_accept
  | runs hp hf hm => exact h.after_move hp hm
  | rests => exact h
  | writes hw => exact h.after_writeInput hw
  | requests => exact h.of_same rfl rfl rfl rfl
  | reads r => exact h.of_same rfl rfl rfl rfl
  | answers a =>
    rcases takeAnswer_cases a s with e | ⟨-, -, e⟩ <;> rw [e]
    · exact h
    · exact h.of_same rfl rfl rfl rfl
  | resets => exact after_reset

end BuffersCanonical

/-- Settles O57: every effect of a step keeps it. A host write of a byte keeps the form and the capacity, and what FCF
latches is what stands in the input registers. -/
theorem stepKeepsBuffersCanonical : Obligations.StepKeepsBuffersCanonical := fun _ _ hs h =>
  step_keeps (fun _ _ hs => hs.of_same rfl rfl rfl rfl) (fun _ _ => BuffersCanonical.after_effect) hs h

end Sys2Proof
end

section
/-! PROOFS. What the outputs of a completed operation can be: the length of a frame image, the frame DECODE gives, and the
count of a read whose contract check has passed. -/

namespace Sys2Proof

open Machine

/-! ## Frames (R180, R188, R190) -/

theorem dlcLen_le (dlc : BitVec 4) : dlcLen dlc ≤ Config.maxPayload := by
  revert dlc; decide

theorem normalizePayload_length (p : Bytes) (n : Nat) : (normalizePayload p n).length = n := by
  unfold normalizePayload
  split
  · rw [List.length_take]; omega
  · rw [List.length_append, List.length_replicate]; omega

theorem le32_length (w : Word) : (le32 w).length = 4 := rfl

theorem frameImage_length (h : FrameHeader) (p : Bytes) :
    (frameImage h p).length = Config.hdrBytes + dlcLen h.dlc := by
  simp only [frameImage, List.length_append, le32_length, normalizePayload_length]

/-- A frame as FOUT may hold it: valid, with the payload its DLC gives (R32, R37). -/
def ValidFrame (f : FoutReg) : Prop :=
  checkFrame f.hdr = none ∧ f.payload.length = dlcLen f.hdr.dlc ∧ f.plen.toNat = dlcLen f.hdr.dlc

theorem validFrame_of_unpackFrame {t0 t1 : Word} {p : Bytes} {f : FoutReg} (h : unpackFrame t0 t1 p = .ok f) :
    ValidFrame f := by
  unfold unpackFrame at h
  split at h
  · cases h
  · split at h
    · cases h
    · rename_i hcheck
      split at h
      · rename_i hlen
        cases h
        refine ⟨hcheck, hlen, ?_⟩
        have hle : dlcLen (unpackHeader t0 t1).dlc ≤ 64 := dlcLen_le _
        exact (BitVec.toNat_ofNat ..).trans (by rw [hlen]; exact Nat.mod_eq_of_lt (by omega))
      · cases h

theorem validFrame_of_decodeImage {b : Bytes} {f : FoutReg} (h : decodeImage b = .ok f) : ValidFrame f := by
  unfold decodeImage at h
  split at h
  · exact validFrame_of_unpackFrame h
  · cases h

/-! ## The count of a read (R58, R131) -/

theorem count_le_of_checkXact {p : Config.Params} {a : Addr} {n : Nat} {withN : Bool}
    (h : checkXact p a n withN = none) : n ≤ p.maxBurst := by
  by_contra hn
  unfold checkXact at h
  split at h
  · cases h
  · rw [if_pos (by omega)] at h
    cases h

/-- The field C of a header is its code (R83). -/
theorem headerCmd_header (c : Cmd) (a : Addr) : headerCmd (header c a) = c := by
  ext i hi
  simp [headerCmd, header, show 12 + i < 16 by omega, BitVec.getLsbD_eq_getElem hi]

/-- The field A of a header is its address (R83). -/
theorem headerAddr_header (c : Cmd) (a : Addr) : headerAddr (header c a) = a := by
  ext i hi
  simp [headerAddr, header, show i < 16 by omega, hi]

theorem decodeHeader_write (a : Addr) : decodeHeader (header Config.cmdWrite a) = .ok (.wireWrite a) := by
  simp [decodeHeader, headerCmd_header, headerAddr_header, Config.cmdReset, Config.cmdRead, Config.cmdWrite]

theorem decodeHeader_writeCrc (a : Addr) : decodeHeader (header Config.cmdWriteCrc a) = .ok (.wireWriteCrc a) := by
  simp [decodeHeader, headerCmd_header, headerAddr_header, Config.cmdReset, Config.cmdRead, Config.cmdWrite,
    Config.cmdReadCrc, Config.cmdWriteCrc]

/-- The wire commands that bring data. -/
def IsWireRead (i : Instr) : Prop := ∃ c a, i = .wireRead a ∨ i = .wireReadCrc a ∨ i = .wireSafeReadCrc c a

/-- The wire command of a read has passed the contract check of the operation that issued it, which bounds the count; the
two write operations issue the two write commands. -/
theorem EmitsOnlyItsCommands.readCount_le {s : State} {q : Request} {hd : Half} {i : Instr} (h : EmitsOnlyItsCommands s)
    (hp : s.phase = .busy q (.command hd)) (hdec : decodeHeader hd = .ok i) (hi : IsWireRead i) :
    q.readCount ≤ s.params.maxBurst := by
  obtain ⟨c, hcmd, rfl, hcheck⟩ := h.command q hd hp
  cases hop : decodeOp q.op <;> rw [hop] at hcmd hcheck
  case read | readCrc | safeReadCrc => exact count_le_of_checkXact hcheck
  case write =>
    cases hcmd
    rw [decodeHeader_write] at hdec
    cases hdec
    simp [IsWireRead] at hi
  case writeCrc =>
    cases hcmd
    rw [decodeHeader_writeCrc] at hdec
    cases hdec
    simp [IsWireRead] at hi
  all_goals cases hcmd

/-- The bounds of the parameters (R6). -/
theorem bufBytes_bounds {p : Config.Params} (h : p.wellFormed = true) : p.maxBurst ≤ p.bufBytes ∧ 72 ≤ p.bufBytes := by
  simp only [Config.Params.wellFormed, Bool.and_eq_true, decide_eq_true_eq] at h
  obtain ⟨⟨⟨-, hburst⟩, hbuf⟩, -⟩ := h
  exact ⟨hburst, hbuf⟩

end Sys2Proof
end

section
/-! PROOFS. The outputs agree with RESULT (R34, R141, R30, R32, R143). -/

namespace Sys2Proof

open Machine

namespace OutputsMatchResult

/-- The outputs and RESULT are as they were, and the run is final only if it was. -/
theorem of_same {s t : State} (h : OutputsMatchResult s) (hparams : t.params = s.params) (hout : t.out = s.out)
    (hlast : t.status.last = s.status.last) (hfinal : t.runFinal = true → s.runFinal = true) : OutputsMatchResult t where
  noValue := by rw [hout, hlast]; exact h.noValue
  oneOnly := by rw [hout]; exact h.oneOnly
  dout := by rw [hout, hparams]; exact h.dout
  fout := by rw [hout]; exact h.fout
  noViolation hf := by rw [hlast]; exact h.noViolation (hfinal hf)

/-- No output holds a value: what an error, a write and reset leave. -/
theorem of_noValue {t : State} (hout : t.out = Outputs.noValue)
    (hv : t.runFinal = true → ∀ r, t.status.last ≠ some (.error (.contractViolation r))) : OutputsMatchResult t := by
  constructor <;> simp_all [Outputs.noValue]

/-- A completion with a contract violation makes the run not final (R143). -/
theorem complete_noViolation (c : Completion) (o : Outputs) (s : State) (hf : (complete c o s).runFinal = true)
    (r : ContractReason) : (complete c o s).status.last ≠ some (.error (.contractViolation r)) := by
  intro hlast
  cases hlast
  simp [treatment] at hf

theorem completed_dout {s : State} {bs : Bytes} (hcap : bs.length ≤ s.params.bufBytes) (hlen : bs.length < 2 ^ 16) :
    OutputsMatchResult (complete .ok (.ofDout bs) s) where
  noValue hn := absurd rfl hn
  oneOnly := ⟨fun _ => ⟨rfl, rfl⟩, fun _ => rfl⟩
  dout d hd := by
    cases hd
    exact ⟨by rw [BitVec.toNat_ofNat, Nat.mod_eq_of_lt hlen], hcap⟩
  fout f hf := by cases hf
  noViolation := complete_noViolation _ _ s

theorem completed_fout {s : State} {f : FoutReg} (hvalid : ValidFrame f) :
    OutputsMatchResult (complete .ok (.ofFout f) s) where
  noValue hn := absurd rfl hn
  oneOnly := ⟨fun h => (by cases h), fun _ => rfl⟩
  dout d hd := by cases hd
  fout f' hf := by cases hf; exact hvalid
  noViolation := complete_noViolation _ _ s

theorem completed_vout {s : State} (v : Half) : OutputsMatchResult (complete .ok (.ofVout v) s) where
  noValue hn := absurd rfl hn
  oneOnly := ⟨fun h => (by cases h), fun h => (by cases h)⟩
  dout d hd := by cases hd
  fout f hf := by cases hf
  noViolation := complete_noViolation _ _ s

/-- Every way an instruction ends leaves outputs that agree with RESULT, if a read's count is within DOUT's capacity. -/
theorem completed {i : Instr} {s : State} {c : Completion} {o : Outputs} (hwf : s.params.wellFormed = true)
    (hread : IsWireRead i → s.request.readCount ≤ s.params.bufBytes) (hg : GoodEnd i s.request c o) :
    OutputsMatchResult (complete c o s) := by
  cases hg with
  | error e => exact of_noValue rfl (complete_noViolation _ _ s)
  | nothing => exact of_noValue rfl (complete_noViolation _ _ s)
  | @image h p =>
    have hbuf := (bufBytes_bounds hwf).2
    have hdlc : dlcLen h.dlc ≤ 64 := dlcLen_le h.dlc
    have hlen : (frameImage h p).length = 8 + dlcLen h.dlc := frameImage_length h p
    exact completed_dout (by omega) (by omega)
  | data hw hle =>
    exact completed_dout (hle.trans (hread hw)) (lt_of_le_of_lt hle s.request.len.isLt)
  | frame hf => exact completed_fout (validFrame_of_decodeImage hf)
  | value v => exact completed_vout v

/-- An operation brings no data itself, and the count of a wire command's read is within DOUT's capacity. -/
theorem readCount_le_bufBytes {s : State} {q : Request} {st : Stage} {i : Instr} (hemits : EmitsOnlyItsCommands s)
    (hwf : s.params.wellFormed = true) (hp : s.phase = .busy q st) (hf : fetch q st = .ok i) (hi : IsWireRead i) :
    s.request.readCount ≤ s.params.bufBytes := by
  obtain ⟨tx, htx⟩ : ∃ tx, transactionOf q i = some tx := by
    obtain ⟨c, a, rfl | rfl | rfl⟩ := hi <;> exact ⟨_, rfl⟩
  obtain ⟨hd, rfl⟩ := command_of_transaction hf htx
  rw [request_of_busy hp]
  exact (hemits.readCount_le hp (fetch_command.1 hf) hi).trans (bufBytes_bounds hwf).1

theorem after_move {s t : State} {q : Request} {st : Stage} {i : Instr} (h : OutputsMatchResult s)
    (hemits : EmitsOnlyItsCommands s) (hwf : s.params.wellFormed = true) (hp : s.phase = .busy q st)
    (hf : fetch q st = .ok i) (hm : Move i s t) : OutputsMatchResult t := by
  cases hm with
  | ends c o hg hc => exact completed hwf (readCount_le_bufBytes hemits hwf hp hf) hg
  | issues c hc hx => exact h.of_same rfl rfl rfl id
  | emits tx ht ho => exact h.of_same rfl rfl rfl id
  | waits tx ho hr => exact h

theorem after_effect {s t : State} (h : OutputsMatchResult s) (hemits : EmitsOnlyItsCommands s)
    (hwf : s.params.wellFormed = true) (he : Effect s t) : OutputsMatchResult t := by
  cases he with
  | accepts hp hr => exact h.of_same rfl rfl rfl fun hf => (Bool.and_eq_true_iff.1 hf).1
  | runs hp hf hm => exact h.after_move hemits hwf hp hf hm
  | rests => exact h
  | writes hw =>
    have hkeep := writeInput_wrote hw
    exact h.of_same hkeep.params hkeep.out (by rw [hkeep.status]) (by rw [hkeep.runFinal]; exact id)
  | requests => exact h.of_same rfl rfl rfl id
  | reads r => exact h.of_same rfl rfl rfl fun hf => (Bool.and_eq_true_iff.1 hf).1
  | answers a =>
    rcases takeAnswer_cases a s with e | ⟨-, -, e⟩ <;> rw [e]
    · exact h
    · exact h.of_same rfl rfl rfl id
  | resets => exact of_noValue rfl fun _ r hlast => by cases hlast

end OutputsMatchResult

/-- Settles O59: every effect of a step keeps it. A completion writes all outputs (R34), a read's data is no longer than the
count its contract check has bounded, and a contract violation ends the final run. -/
theorem stepKeepsOutputsMatchResult : Obligations.StepKeepsOutputsMatchResult := by
  intro s t hs hemits _ hwf h
  obtain ⟨es, he⟩ := step_effect h
  have hs' : OutputsMatchResult { s with inbox := es } := hs.of_same rfl rfl rfl id
  exact hs'.after_effect ⟨hemits.command, hemits.outstanding, hemits.sent⟩ hwf he

end Sys2Proof
end

section
/-! PROOFS. An instruction reads only the latched request (R36). -/

namespace Sys2Proof.Machine

open Sys2Proof

/-- The input registers, with the record of those written. -/
structure Inputs where
  op : BitVec 4
  addr : Addr
  len : Half
  fin : FinReg
  din : Memory
  dinLen : Half
  written : List InputReg

/-- `s` with its input registers changed to `x`. -/
def State.withInputs (s : State) (x : Inputs) : State :=
  { s with op := x.op, addr := x.addr, len := x.len, fin := x.fin, din := x.din, dinLen := x.dinLen, written := x.written }

/-- While Busy the request is the latched copy, so the input registers are not in it. -/
theorem request_withInputs {s : State} {q : Request} {st : Stage} (h : s.phase = .busy q st) (x : Inputs) :
    (s.withInputs x).request = s.request := by
  rw [request_of_busy h, request_of_busy (s := s.withInputs x) h]

theorem params_withInputs (s : State) (x : Inputs) : (s.withInputs x).params = s.params := rfl

theorem issue_withInputs {s : State} {q : Request} {st : Stage} (h : s.phase = .busy q st) (c : Cmd) (x : Inputs) :
    issue c (s.withInputs x) = (issue c s).withInputs x := by
  unfold issue
  rw [request_withInputs h]
  rfl

theorem finishRead_withInputs (n : Nat) (s : State) (x : Inputs) (tx : Bytes) (a : Answer) :
    finishRead n (s.withInputs x) tx a = (finishRead n s tx a).withInputs x := by
  unfold finishRead
  split <;> rfl

theorem finishWrite_withInputs (s : State) (x : Inputs) (tx : Bytes) (a : Answer) :
    finishWrite (s.withInputs x) tx a = (finishWrite s tx a).withInputs x := by
  unfold finishWrite
  split <;> rfl

theorem finishReadCrc_withInputs (e : ErrorCode) (n : Nat) (s : State) (x : Inputs) (tx : Bytes) (a : Answer) :
    finishReadCrc e n (s.withInputs x) tx a = (finishReadCrc e n s tx a).withInputs x := by
  unfold finishReadCrc
  split
  · rfl
  · split <;> rfl

/-- `r` answers a next state, and with the inputs changed to `x` it is `r'` that answers it with those inputs. -/
def SameNext (x : Inputs) (r r' : Host.Outcome State Fault Refusal) : Prop :=
  ∃ t, r = .next t ∧ r' = .next (t.withInputs x)

theorem exchange_sameNext {f f' : Bytes → Answer → State} {x : Inputs} (tx : Bytes) (s : State)
    (hf : ∀ bs a, f' bs a = (f bs a).withInputs x) : SameNext x (exchange tx f s) (exchange tx f' (s.withInputs x)) := by
  obtain ⟨t, ht⟩ := exchange_next tx f s
  refine ⟨t, ht, ?_⟩
  rcases exchange_cases ht with ⟨ho, rfl⟩ | ⟨bs, ho, hr, rfl⟩ | ⟨bs, a, ho, hr, rfl⟩
  · exact exchange_emits ho
  · exact exchange_waits ho hr
  · rw [← hf]
    exact exchange_finishes ho hr

/-- The checks of a bus operation: it raises the first that fails, and else issues its command. -/
theorem checked_sameNext {s : State} {q : Request} {st : Stage} (h : s.phase = .busy q st) (c : Cmd) (x : Inputs)
    (check : Option ContractReason) :
    SameNext x
      (match check with
        | some r => .next (raise (.contractViolation r) s)
        | none => .next (issue c s))
      (match check with
        | some r => .next (raise (.contractViolation r) (s.withInputs x))
        | none => .next (issue c (s.withInputs x))) := by
  cases check with
  | some r => exact ⟨_, rfl, rfl⟩
  | none => exact ⟨_, rfl, by rw [issue_withInputs h]⟩

/-! The codec and CRC operations complete at once, with what the parameters and the latched request give. -/

theorem execFrameEncode_sameNext {s : State} {q : Request} {st : Stage} (h : s.phase = .busy q st) (x : Inputs) :
    SameNext x (execFrameEncode s) (execFrameEncode (s.withInputs x)) := by
  unfold execFrameEncode
  rw [request_withInputs h]
  split
  · exact ⟨_, rfl, rfl⟩
  · split <;> exact ⟨_, rfl, rfl⟩

theorem execFrameDecode_sameNext {s : State} {q : Request} {st : Stage} (h : s.phase = .busy q st) (x : Inputs) :
    SameNext x (execFrameDecode s) (execFrameDecode (s.withInputs x)) := by
  unfold execFrameDecode
  rw [request_withInputs h, params_withInputs]
  split
  · exact ⟨_, rfl, rfl⟩
  · split <;> exact ⟨_, rfl, rfl⟩

theorem execDlcToLen_sameNext {s : State} {q : Request} {st : Stage} (h : s.phase = .busy q st) (x : Inputs) :
    SameNext x (execDlcToLen s) (execDlcToLen (s.withInputs x)) := by
  unfold execDlcToLen
  rw [request_withInputs h]
  exact ⟨_, rfl, rfl⟩

theorem execCrc16_sameNext {s : State} {q : Request} {st : Stage} (h : s.phase = .busy q st) (x : Inputs) :
    SameNext x (execCrc16 s) (execCrc16 (s.withInputs x)) := by
  unfold execCrc16
  rw [request_withInputs h, params_withInputs]
  split <;> exact ⟨_, rfl, rfl⟩

theorem execSafeReadCrc_sameNext {s : State} {q : Request} {st : Stage} (h : s.phase = .busy q st) (x : Inputs) :
    SameNext x (execSafeReadCrc s) (execSafeReadCrc (s.withInputs x)) := by
  unfold execSafeReadCrc
  rw [request_withInputs h, params_withInputs]
  split
  · exact ⟨_, rfl, rfl⟩
  · exact checked_sameNext h _ x _

/-- While Busy every instruction answers a next state, and the same one whatever the input registers are. -/
theorem exec_sameNext (i : Instr) {s : State} {q : Request} {st : Stage} (h : s.phase = .busy q st) (x : Inputs) :
    SameNext x (exec i s) (exec i (s.withInputs x)) := by
  cases i with
  | frameEncode => exact execFrameEncode_sameNext h x
  | frameDecode => exact execFrameDecode_sameNext h x
  | dlcToLen => exact execDlcToLen_sameNext h x
  | crc16 => exact execCrc16_sameNext h x
  | safeReadCrc => exact execSafeReadCrc_sameNext h x
  | read | write | readCrc | writeCrc =>
    simp only [exec, execRead, execWrite, execReadCrc, execWriteCrc, request_withInputs h, params_withInputs]
    exact checked_sameNext h _ x _
  | wireRead =>
    simp only [exec, execWireRead, request_withInputs h]
    exact exchange_sameNext _ _ fun _ _ => finishRead_withInputs ..
  | wireWrite | wireWriteCrc =>
    simp only [exec, execWireWrite, execWireWriteCrc, request_withInputs h]
    exact exchange_sameNext _ _ fun _ _ => finishWrite_withInputs ..
  | wireReadCrc | wireSafeReadCrc =>
    simp only [exec, execWireReadCrc, execWireSafeReadCrc, request_withInputs h]
    exact exchange_sameNext _ _ fun _ _ => finishReadCrc_withInputs ..
  | reservedOp0 | reservedOp5 | reservedOp6 | reservedOp7 | reservedOpD | reservedOpE | reservedOpF =>
    exact ⟨_, rfl, rfl⟩

/-- Settles O10: each instruction's arm uses the input registers only through the request, which is the latched copy. -/
theorem execReadsOnlyTheLatchedRequest : Obligations.ExecReadsOnlyTheLatchedRequest :=
  fun i _ _ _ op addr len fin din dinLen written h => exec_sameNext i h ⟨op, addr, len, fin, din, dinLen, written⟩

end Sys2Proof.Machine
end

section
/-! PROOFS. The host's writes (R27, R28, R36, R38). -/

namespace Sys2Proof.Machine

/-- Each register outside FIN is as it was, unless it is the one that `w` names. -/
structure KeepsOtherRegisters (w : InputWrite) (s t : State) : Prop where
  op : (∀ v, w ≠ .op v) → t.op = s.op
  addr : (∀ v, w ≠ .addr v) → t.addr = s.addr
  len : (∀ v, w ≠ .len v) → t.len = s.len
  dinLen : (∀ v, w ≠ .dinLen v) → t.dinLen = s.dinLen
  din : (∀ i b, w ≠ .din i b) → t.din = s.din

theorem writeInput_keepsOtherRegisters {w : InputWrite} {s t : State} (h : writeInput w s = .next t) :
    KeepsOtherRegisters w s t := by
  cases w
  case din i b =>
    obtain ⟨-, rfl⟩ := writeInput_din_inv h
    exact ⟨fun _ => rfl, fun _ => rfl, fun _ => rfl, fun _ => rfl, fun hn => absurd rfl (hn i b)⟩
  all_goals
    cases h
    constructor <;> simp [writeFinHeader]

/-- Settles O11: a write leaves the rest of FCF and the other registers alone (`writeInput_wrote`,
`writeInput_keepsOtherRegisters`), and each register's own write sets it and counts it as written. -/
theorem hostWriteTouchesOnlyInputs : Obligations.HostWriteTouchesOnlyInputs := by
  intro s w es hi
  rw [step_write hi]
  refine ⟨fun hn => writeInput_next_of_ne_din hn _, fun t h => ?_⟩
  obtain ⟨hparams, hreq, hphase, hstatus, hout, hlink, hinbox, hhost, hfinal⟩ := writeInput_wrote h
  obtain ⟨hop, haddr, hlen, hdinLen, hdin⟩ := writeInput_keepsOtherRegisters h
  refine ⟨⟨hphase, hstatus, hout, hreq, hparams, hlink, hhost, hfinal, hinbox⟩, ?_, hop, ?_, haddr, ?_, hlen, ?_, hdinLen,
    ?_, ?_, ?_, ?_, ?_, ?_, ?_, ?_, ?_, ?_, hdin⟩
  case refine_1 | refine_2 | refine_3 | refine_4 =>
    rintro v rfl
    cases h
    exact ⟨rfl, rfl, fun _ => mem_markWritten⟩
  case refine_13 =>
    rintro ⟨i, b, rfl⟩
    obtain ⟨-, rfl⟩ := writeInput_din_inv h
    exact ⟨rfl, rfl⟩
  case refine_14 =>
    rintro ⟨i, b, rfl⟩
    cases h
    exact ⟨rfl, rfl, rfl⟩
  all_goals
    rintro v rfl
    cases h
    exact ⟨rfl, fun _ => mem_markWritten⟩

/-- Settles O12, by the laws of a buffer's read after a write. -/
theorem hostWriteChangesOneByte : Obligations.HostWriteChangesOneByte := by
  intro s es
  refine ⟨fun i b hi hlt => ?_, fun i b hi hge => ?_, fun i b hi => ?_⟩
  · rw [step_write hi]
    exact ⟨_, writeInput_din_of_lt b hlt, Memory.read_write_same .., fun j hj => Memory.read_write_other _ b hj, rfl⟩
  · rw [step_write hi]
    exact writeInput_din_of_ge b hge
  · rw [step_write hi]
    exact ⟨_, rfl, Memory.read_write_same .., fun j hj => Memory.read_write_other _ b hj, rfl, rfl, rfl⟩

/-- Settles O13: the event leaves the queue, and that is all. -/
theorem hostWriteToAnOutputIsIgnored : Obligations.HostWriteToAnOutputIsIgnored := fun _ _ _ _ h =>
  step_of_event h (by simp)

end Sys2Proof.Machine
end

section
/-! PROOFS. The host's reads (R31, R34, R40, R190). -/

namespace Sys2Proof.Machine

section Reads

variable {s : State} {r : OutputRead} {es : List Event}

theorem outputValue_with_inbox (r : OutputRead) (s : State) (es : List Event) :
    outputValue r { s with inbox := es } = outputValue r s := by
  cases r <;> rfl

theorem step_read (h : s.inbox = .read r :: es) : step s = .next (readOutput r { s with inbox := es }) :=
  step_of_event h (by simp)

/-- A read of what holds a value delivers it and changes nothing else. -/
theorem step_read_of_some (h : s.inbox = .read r :: es) {v : HostValue} (hv : outputValue r s = some v) :
    step s = .next { s with inbox := es, hostData := some v } := by
  simp [step_read h, readOutput, outputValue_with_inbox, hv]

/-- A read of what holds no value delivers nothing, and the run is not final (log entry 25). -/
theorem step_read_of_none (h : s.inbox = .read r :: es) (hv : outputValue r s = none) :
    step s = .next { s with inbox := es, hostData := none, runFinal := false } := by
  simp [step_read h, readOutput, outputValue_with_inbox, hv]

end Reads

/-- Settles O14: each read is one of the two cases, by whether the output holds a value. -/
theorem hostReadDeliversTheValueIfThereIsOne : Obligations.HostReadDeliversTheValueIfThereIsOne := by
  intro s es
  refine ⟨fun hi => ⟨fun hn => ?_, fun v hv => ?_⟩, fun hi => ⟨fun hn => ?_, fun d hd => ?_⟩,
    fun i hi => ⟨fun hn => ?_, fun d hd => ⟨fun hge => ?_, fun b hb => ?_⟩⟩,
    fun hi => ⟨fun hn => ?_, fun f hf => ?_⟩, fun hi => ⟨fun hn => ?_, fun f hf => ?_⟩,
    fun i hi => ⟨fun hn => ?_, fun f hf => ⟨fun hge => ?_, fun b hb => ?_⟩⟩,
    fun hi => ⟨fun hn => ?_, fun c hc => ?_⟩, fun hi => ?_⟩
  · exact step_read_of_none hi (by simp [outputValue, hn])
  · exact step_read_of_some hi (by simp [outputValue, hv])
  · exact step_read_of_none hi (by simp [outputValue, hn])
  · exact step_read_of_some hi (by simp [outputValue, hd])
  · exact step_read_of_none hi (by simp [outputValue, hn])
  · exact step_read_of_none hi (by simp [outputValue, hd, hge])
  · exact step_read_of_some hi (by simp [outputValue, hd, hb])
  · exact step_read_of_none hi (by simp [outputValue, hn])
  · exact step_read_of_some hi (by simp [outputValue, hf])
  · exact step_read_of_none hi (by simp [outputValue, hn])
  · exact step_read_of_some hi (by simp [outputValue, hf])
  · exact step_read_of_none hi (by simp [outputValue, hn])
  · exact step_read_of_none hi (by simp [outputValue, hf, hge])
  · exact step_read_of_some hi (by simp [outputValue, hf, hb])
  · exact step_read_of_none hi (by simp [outputValue, Status.word, hn])
  · exact step_read_of_some hi (by simp [outputValue, Status.word, hc])
  · exact step_read_of_some hi rfl

end Sys2Proof.Machine
end

section
/-! PROOFS. The STATUS word (R31). -/

namespace Sys2Proof.Machine

/-- The bits of the STATUS word: three fields shifted into place, each with no bit above its width. -/
theorem statusWord_getLsbD (flags : BitVec 2) (c : Completion) {i : Nat} (hi : i < 16) :
    (statusWord flags c).getLsbD i =
      (flags.getLsbD i || !decide (i < 4) && (resultCode c).getLsbD (i - 4) ||
        !decide (i < 8) && (reasonCode c).getLsbD (i - 8)) := by
  simp [statusWord, hi]

theorem flags_getLsbD_zero (st : Status) : st.flags.getLsbD 0 = st.busy := by
  unfold Status.flags
  cases st.done <;> cases st.busy <;> rfl

theorem flags_getLsbD_one (st : Status) : st.flags.getLsbD 1 = st.done := by
  unfold Status.flags
  cases st.done <;> cases st.busy <;> rfl

/-- Settles O15: bit by bit, only the field that stands there has a bit. -/
theorem statusWordLayout : Obligations.StatusWordLayout := by
  intro st c hc
  have hflags : ∀ i, 2 ≤ i → st.flags.getLsbD i = false := fun i hi => BitVec.getLsbD_of_ge _ _ hi
  have hresult : ∀ i, 4 ≤ i → (resultCode c).getLsbD i = false := fun i hi => BitVec.getLsbD_of_ge _ _ hi
  have hreason : ∀ i, 4 ≤ i → (reasonCode c).getLsbD i = false := fun i hi => BitVec.getLsbD_of_ge _ _ hi
  refine ⟨statusWord st.flags c, by simp [Status.word, hc], ?_, ?_, ?_, ?_, ?_, ?_⟩
  · rw [statusWord_getLsbD _ _ (by omega), flags_getLsbD_zero]
    simp
  · rw [statusWord_getLsbD _ _ (by omega), flags_getLsbD_one]
    simp
  all_goals
    ext i hi
    rw [BitVec.getElem_extractLsb', statusWord_getLsbD _ _ (by omega), hflags _ (by omega)]
  · simp [show 2 + i < 4 by omega, show 2 + i < 8 by omega]
  · simp [show 4 + i < 8 by omega, BitVec.getLsbD_eq_getElem hi]
  · simp [hresult (8 + i - 4) (by omega), BitVec.getLsbD_eq_getElem hi]
  · simp [hresult (12 + i - 4) (by omega), hreason (12 + i - 8) (by omega)]

end Sys2Proof.Machine
end

section
/-! PROOFS. FCF's own move: what it carries out Busy, and what it accepts Idle (R29, R36, R60, R81). -/

namespace Sys2Proof.Machine

open Sys2Proof

/-- Settles O5: the move is `exec` of the latched OP's instruction, and the OPSEL byte decodes to that instruction. -/
theorem stepRunsTheLatchedOperation : Obligations.StepRunsTheLatchedOperation := by
  intro s q i hp hdec
  rw [decode_opsel_op] at hdec
  cases hdec
  refine ⟨fun hi => ?_, fun es hi => ?_⟩
  · rw [step_of_emptyInbox hi]
    exact fcfMove_of_operation hp
  · rw [step_of_fcfTurn (.inr hi)]
    exact fcfMove_of_operation hp

/-- Settles O7: Idle at FCF's turn, the pending request is accepted, and with none pending the move does nothing. -/
theorem idleAcceptsExactlyAPendingRequest : Obligations.IdleAcceptsExactlyAPendingRequest := by
  intro s es hp hturn
  rw [step_of_fcfTurn hturn]
  refine ⟨fun hr => fcfMove_of_noRequest hp hr, fun hr => ⟨_, fcfMove_of_request hp hr, rfl, rfl, rfl, rfl, rfl, rfl, rfl,
    fun hm => ?_, ⟨rfl, rfl, rfl, rfl, rfl, rfl, rfl, rfl, rfl, rfl, rfl⟩⟩⟩
  have hm' : missingInput (decodeOp s.op) { s with inbox := es } = none := hm
  simp [hm']

end Sys2Proof.Machine
end

section
/-! PROOFS. The Exchanges of FCF one after another (R59, R142). -/

namespace Sys2Proof.Machine

/-- What a step can do to the Exchange: leave it and the record of the transactions as they are, end it as FCF
becomes Idle, or, with none outstanding, hand over one transaction. -/
inductive ExchangeEffect (s t : State) : Prop where
  | same (hs : t.link.sent = s.link.sent) (ho : t.link.outstanding = s.link.outstanding)
  | finished (hs : t.link.sent = s.link.sent) (ho : t.link.outstanding = none) (hp : t.phase = .idle)
  | handsOver (tx : Bytes) (hnone : s.link.outstanding = none) (hs : t.link.sent = tx :: s.link.sent)
      (ho : t.link.outstanding = some tx)

namespace ExchangeEffect

theorem of_link {s t : State} (h : t.link = s.link) : ExchangeEffect s t := .same (by rw [h]) (by rw [h])

theorem of_move {i : Instr} {s t : State} (hm : Move i s t) : ExchangeEffect s t := by
  cases hm with
  | ends c o hg hc => exact .finished rfl rfl rfl
  | issues c hc hx => exact of_link rfl
  | emits tx ht ho => exact .handsOver tx ho rfl rfl
  | waits tx ho hr => exact of_link rfl

/-- The answer is recorded beside the Exchange, which stays outstanding until FCF has checked it. -/
theorem of_takeAnswer (a : Answer) (s : State) : ExchangeEffect s (takeAnswer a s) := by
  rcases takeAnswer_cases a s with e | ⟨-, -, e⟩ <;> rw [e]
  · exact of_link rfl
  · exact .same rfl rfl

theorem of_effect {s t : State} (he : Effect s t) : ExchangeEffect s t := by
  cases he with
  | accepts hp hr => exact of_link rfl
  | runs hp hf hm => exact of_move hm
  | rests => exact of_link rfl
  | writes hw => exact of_link (writeInput_wrote hw).link
  | requests => exact of_link rfl
  | reads r => exact of_link rfl
  | answers a => exact of_takeAnswer a s
  | resets => exact .finished rfl rfl rfl

end ExchangeEffect

/-- Settles O53: of all effects only the move that hands a transaction over adds one, and it finds none outstanding; only a
completion and reset, which leave FCF Idle, end an Exchange. -/
theorem exchangesNeverOverlap : Obligations.ExchangesNeverOverlap := by
  intro s t h
  obtain ⟨es, he⟩ := step_effect h
  cases ExchangeEffect.of_effect he with
  | same hs ho => exact .inl ⟨hs, .inl ho⟩
  | finished hs ho hp => exact .inl ⟨hs, .inr ⟨ho, hp⟩⟩
  | handsOver tx hnone hs ho => exact .inr ⟨tx, hnone, hs, ho⟩

end Sys2Proof.Machine
end

section
/-! PROOFS. The encodings (R81 to R84): the header's fields and bytes, and the decoder and the encoder as inverses. -/

namespace Sys2Proof

open Machine

/-! ## The header and its bytes (R8, R83) -/

theorem header_eq_append (c : Cmd) (a : Addr) : header c a = c ++ a :=
  BitVec.setWidth_append_eq_shiftLeft_setWidth_or.symm.trans (BitVec.setWidth_eq _)

theorem fromBe16_eq_append (hi lo : Byte) : fromBe16 hi lo = hi ++ lo :=
  BitVec.setWidth_append_eq_shiftLeft_setWidth_or.symm.trans (BitVec.setWidth_eq _)

/-- A header is made of its fields C and A. -/
theorem header_of_fields (h : Half) : header (headerCmd h) (headerAddr h) = h := by
  rw [header_eq_append]
  exact BitVec.extractLsb'_append_extractLsb' (w := 4) (len := 12) (x := h)

theorem fromBe16_of_bytes (h : Half) : fromBe16 (h.extractLsb' 8 8) (h.extractLsb' 0 8) = h := by
  rw [fromBe16_eq_append]
  exact BitVec.extractLsb'_append_extractLsb' (w := 8) (len := 8) (x := h)

theorem be16_append (hi lo : Byte) : be16 (hi ++ lo) = [hi, lo] := by
  rw [be16, BitVec.extractLsb'_append_eq_left, BitVec.extractLsb'_append_eq_right]

/-- The first byte on the wire is the code over `A[11:8]`, the second `A[7:0]`. -/
theorem be16_header (c : Cmd) (a : Addr) : be16 (header c a) = [c ++ a.extractLsb' 8 4, a.extractLsb' 0 8] := by
  have hfirst : (c ++ a).extractLsb' 8 8 = c ++ a.extractLsb' 8 4 :=
    calc (c ++ a).extractLsb' 8 8
        = (c ++ a).extractLsb' 12 4 ++ (c ++ a).extractLsb' 8 4 :=
          (BitVec.extractLsb'_append_extractLsb'_eq_extractLsb' (len₁ := 4) (len₂ := 4) rfl).symm
      _ = c ++ a.extractLsb' 8 4 := by
          rw [BitVec.extractLsb'_append_eq_left, BitVec.extractLsb'_append_eq_of_add_le (by decide)]
  rw [header_eq_append, be16, hfirst, BitVec.extractLsb'_append_eq_of_add_le (by decide)]

/-- Settles O4: the header is the code over the address. -/
theorem headerCarriesCodeAndAddress : Obligations.HeaderCarriesCodeAndAddress := fun c a =>
  ⟨header_eq_append c a, headerCmd_header c a, headerAddr_header c a, be16_header c a⟩

/-! ## The decoder -/

/-- The two bytes of a header are decoded as the header, and the bytes after them are left. -/
theorem decode_be16_iff {h : Half} {tail rest : Bytes} {i : Instr} :
    decode .hdr (be16 h ++ tail) = .ok (i, rest) ↔ decodeHeader h = .ok i ∧ tail = rest := by
  simp only [be16, List.cons_append, List.nil_append, decode, fromBe16_of_bytes]
  cases decodeHeader h <;> simp

/-- Bytes that decode are an OPSEL byte with OP in its low four bits, or the two bytes of a header that is a command. -/
theorem decode_cases {f : Format} {bs rest : Bytes} {i : Instr} (h : decode f bs = .ok (i, rest)) :
    (∃ op : BitVec 4, f = .opsel ∧ bs = op.setWidth 8 :: rest ∧ i = decodeOp op) ∨
    (∃ hd : Half, f = .hdr ∧ bs = be16 hd ++ rest ∧ decodeHeader hd = .ok i) := by
  match f, bs with
  | .opsel, [] | .hdr, [] | .hdr, [_] => cases h
  | .opsel, b :: tail =>
    by_cases hb : b.toNat < 16
    · have hbyte : (b.setWidth 4).setWidth 8 = b :=
        BitVec.eq_of_toNat_eq (by simp only [BitVec.toNat_setWidth]; omega)
      simp only [decode, hb, if_true] at h
      cases h
      exact .inl ⟨b.setWidth 4, rfl, by rw [hbyte], rfl⟩
    · simp only [decode, hb, if_false] at h
      cases h
  | .hdr, hi :: lo :: tail =>
    have hbytes : hi :: lo :: tail = be16 (hi ++ lo) ++ tail := by rw [be16_append]; rfl
    rw [hbytes, decode_be16_iff] at h
    obtain ⟨hdec, rfl⟩ := h
    exact .inr ⟨hi ++ lo, rfl, hbytes, hdec⟩

/-! ## Encoding what was decoded -/

theorem encode_decodeOp (op : BitVec 4) : encode (decodeOp op) = (.opsel, [op.setWidth 8]) := by
  revert op; decide

theorem wellFormed_decodeOp (op : BitVec 4) : (decodeOp op).wellFormed = true := by
  revert op; decide

/-- A header that is a command is the encoding of it. -/
theorem encode_of_decodeHeader {h : Half} {i : Instr} (hd : decodeHeader h = .ok i) : encode i = (.hdr, be16 h) := by
  have hh := header_of_fields h
  unfold decodeHeader at hd
  split_ifs at hd with h0 hread hwrite hreadCrc hwriteCrc <;> cases hd
  · rw [encode, ← hread, hh]
  · rw [encode, ← hwrite, hh]
  · rw [encode, ← hreadCrc, hh]
  · rw [encode, ← hwriteCrc, hh]
  · rw [encode, hh]

/-- A code left over by RESET and the four fixed ones is one the safe variant may have. -/
theorem wellFormed_of_decodeHeader {h : Half} {i : Instr} (hd : decodeHeader h = .ok i) : i.wellFormed = true := by
  unfold decodeHeader at hd
  split_ifs at hd <;> cases hd
  case neg => simp [Instr.wellFormed, isSafeCode, *]
  all_goals rfl

/-- Settles O2, by `decode_cases`: the instruction decoded is encoded as the byte, or the header, it was decoded from. -/
theorem encodeOfDecodeIsTheBytes : Obligations.EncodeOfDecodeIsTheBytes := by
  intro f bs rest i h
  rcases decode_cases h with ⟨op, rfl, rfl, rfl⟩ | ⟨hd, rfl, rfl, hdec⟩
  · rw [encode_decodeOp]
    exact ⟨wellFormed_decodeOp op, rfl, rfl⟩
  · rw [encode_of_decodeHeader hdec]
    exact ⟨wellFormed_of_decodeHeader hdec, rfl, rfl⟩

/-! ## Decoding what was encoded -/

theorem decodeHeader_read (a : Addr) : decodeHeader (header Config.cmdRead a) = .ok (.wireRead a) := by
  simp [decodeHeader, headerCmd_header, headerAddr_header, Config.cmdReset, Config.cmdRead]

theorem decodeHeader_readCrc (a : Addr) : decodeHeader (header Config.cmdReadCrc a) = .ok (.wireReadCrc a) := by
  simp [decodeHeader, headerCmd_header, headerAddr_header, Config.cmdReset, Config.cmdRead, Config.cmdWrite,
    Config.cmdReadCrc]

theorem decodeHeader_safeReadCrc {c : Cmd} (hc : isSafeCode c = true) (a : Addr) :
    decodeHeader (header c a) = .ok (.wireSafeReadCrc c a) := by
  simp only [isSafeCode, Bool.and_eq_true, bne_iff_ne] at hc
  simp only [decodeHeader, headerCmd_header, headerAddr_header, hc, if_false]

/-- Settles O1: an operation's byte is its row of the table, and a wire command is the one its header decodes to. -/
theorem decodeOfEncodeIsTheInstruction : Obligations.DecodeOfEncodeIsTheInstruction := by
  intro i rest hwf
  cases i with
  | wireRead a => exact decode_be16_iff.2 ⟨decodeHeader_read a, rfl⟩
  | wireWrite a => exact decode_be16_iff.2 ⟨decodeHeader_write a, rfl⟩
  | wireReadCrc a => exact decode_be16_iff.2 ⟨decodeHeader_readCrc a, rfl⟩
  | wireWriteCrc a => exact decode_be16_iff.2 ⟨decodeHeader_writeCrc a, rfl⟩
  | wireSafeReadCrc c a => exact decode_be16_iff.2 ⟨decodeHeader_safeReadCrc hwf a, rfl⟩
  | frameEncode | frameDecode | dlcToLen | crc16 | read | write | readCrc | writeCrc | safeReadCrc => rfl
  | reservedOp0 | reservedOp5 | reservedOp6 | reservedOp7 | reservedOpD | reservedOpE | reservedOpF => rfl

/-- Settles O3: the words are closed, and the decoder runs on them. -/
theorem specWordsDecode : Obligations.SpecWordsDecode := by
  unfold Obligations.SpecWordsDecode
  decide

end Sys2Proof
end

section
/-! PROOFS. The wire command FCF carries out (R83, R84), and what ends at once: a reserved OP (R82). -/

namespace Sys2Proof.Machine

theorem fcfMove_of_command {s : State} {q : Request} {h : Half} {i : Instr} (hp : s.phase = .busy q (.command h))
    (hd : decodeHeader h = .ok i) : fcfMove s = exec i s := by
  simp only [fcfMove, hp, fetch_command.2 hd]

/-- Settles O6: the move is `exec` of the command the header decodes to, and its two bytes decode as the header does. -/
theorem stepRunsTheWireCommand : Obligations.StepRunsTheWireCommand := by
  intro s q h i hp hdec
  have hd : decodeHeader h = .ok i := (decode_be16_iff.1 ((List.append_nil (be16 h)).symm ▸ hdec)).1
  refine ⟨fun hi => ?_, fun es hi => ?_⟩
  · rw [step_of_emptyInbox hi]
    exact fcfMove_of_command hp hd
  · rw [step_of_fcfTurn (.inr hi)]
    exact fcfMove_of_command hp hd

theorem exec_reserved {i : Instr} (hi : isReserved i = true) (s : State) :
    exec i s = .next (raise (.unsupported .reservedOp) s) := by
  cases i with
  | reservedOp0 | reservedOp5 | reservedOp6 | reservedOp7 | reservedOpD | reservedOpE | reservedOpF => rfl
  | _ => cases hi

/-- Settles O40: the seven OP values select the reserved rows, and each raises UNSUPPORTED(RESERVED_OP). -/
theorem reservedOpIsUnsupported : Obligations.ReservedOpIsUnsupported := by
  refine ⟨rfl, fun s i hi => ?_⟩
  have hres : ∀ j ∈ [Instr.reservedOp0, .reservedOp5, .reservedOp6, .reservedOp7, .reservedOpD, .reservedOpE,
      .reservedOpF], isReserved j = true := by decide
  exact ⟨_, exec_reserved (hres i hi) s, raise_completedAs _ s⟩

/-- Settles O39: with its checks passed each bus operation issues its own code, and the header is that code over the latched
address. -/
theorem busOperationIssuesItsCommand : Obligations.BusOperationIssuesItsCommand := by
  intro s i c hi hx
  have hissue : exec i s = .next (issue c s) := by
    rcases hi with ⟨rfl, rfl⟩ | ⟨rfl, rfl⟩ | ⟨rfl, rfl⟩ | ⟨rfl, rfl⟩ | ⟨rfl, hc⟩ <;> simp only [contractCheck] at hx
    · simp only [exec, execRead, hx]
    · simp only [exec, execWrite, hx]
    · simp only [exec, execReadCrc, hx]
    · simp only [exec, execWriteCrc, hx]
    · simp only [exec, execSafeReadCrc, hc, hx]
  exact ⟨_, hissue, header_eq_append c _ ▸ issue_issuedAs c s⟩

end Sys2Proof.Machine
end

section
/-! PROOFS. The transactions on the wire (R86 to R91, R131): the length byte N, and the layouts. -/

namespace Sys2Proof.Machine

/-! ## The length byte (R89) -/

/-- A check that fails is reported, and one that passes leaves it to the checks after it. -/
theorem check_eq_none {fails : Prop} [Decidable fails] {r : ContractReason} {later : Option ContractReason} :
    (if fails then some r else later) = none ↔ ¬fails ∧ later = none := by
  by_cases h : fails <;> simp [h]

/-- CheckXact passes exactly when each of its checks does (R131). -/
theorem checkXact_eq_none {p : Config.Params} {a : Addr} {n : Nat} {withN : Bool} :
    checkXact p a n withN = none ↔
      n ≠ 0 ∧ n ≤ p.maxBurst ∧ inRange p a.toNat n = true ∧ region a.toNat n ≠ .straddle ∧
      (region a.toNat n = .ram → a.toNat % 4 = 0 ∧ n % 4 = 0) ∧
      (withN = true → unitCount a.toNat n ≤ Config.nMax) := by
  simp only [checkXact, check_eq_none, and_true, not_lt, Bool.not_eq_false, not_and, not_or, ne_eq, not_not, gt_iff_lt]

theorem unitCount_of_ram {a n : Nat} (h : region a n = .ram) : unitCount a n = n / 4 := if_pos h

theorem unitCount_of_sfr {a n : Nat} (h : region a n = .sfr) : unitCount a n = n := if_neg (by simp [h])

theorem lengthField_toNat {a : Addr} {n : Nat} (h : unitCount a.toNat n ≤ Config.nMax) :
    (lengthField a n).toNat = unitCount a.toNat n := by
  have hlt : unitCount a.toNat n < 256 := by simp only [Config.nMax] at h; omega
  exact (BitVec.toNat_ofNat ..).trans (Nat.mod_eq_of_lt hlt)

/-- Settles O37: N is the unit count, which the checks keep within a byte, and RAM transactions are of whole words. -/
theorem lengthByteCountsUnits : Obligations.LengthByteCountsUnits := by
  intro p a n h
  obtain ⟨hzero, -, -, hregion, halign, hmax⟩ := checkXact_eq_none.1 h
  rw [lengthField_toNat (hmax rfl)]
  cases hr : region a.toNat n with
  | ram =>
    obtain ⟨-, hwords⟩ := halign hr
    rw [unitCount_of_ram hr]
    exact ⟨by omega, fun _ => by omega, nofun, nofun⟩
  | sfr =>
    rw [unitCount_of_sfr hr]
    exact ⟨by omega, nofun, fun _ => rfl, nofun⟩
  | straddle => exact absurd hr hregion

/-! ## The layouts (R86, R87, R88, R90) -/

/-- A wire command with no Exchange outstanding hands over its transaction. -/
theorem exec_sends {i : Instr} {s : State} {tx : Bytes} (ht : transactionOf s.request i = some tx)
    (ho : s.link.outstanding = none) : ∃ t, exec i s = .next t ∧ SentAs tx s t := by
  refine ⟨emit tx s, ?_, emit_sentAs tx s⟩
  cases i with
  | wireRead | wireWrite | wireReadCrc | wireWriteCrc | wireSafeReadCrc =>
    cases ht
    exact exchange_emits ho
  | _ => cases ht

theorem plainRd_eq (a : Addr) (n : Nat) : plainRd a n = be16 (0x3#4 ++ a) ++ List.replicate n 0x00#8 := by
  rw [plainRd, header_eq_append]

theorem plainWr_eq (a : Addr) (d : Bytes) : plainWr a d = be16 (0x2#4 ++ a) ++ d := by
  rw [plainWr, header_eq_append]

/-- The N data bytes and the two CRC bytes of CRC_RD are all DUMMY. -/
theorem crcRd_eq (c : Cmd) (a : Addr) (n : Nat) :
    crcRd c a n = be16 (c ++ a) ++ [lengthField a n] ++ List.replicate (n + 2) 0x00#8 := by
  rw [crcRd, header_eq_append, List.append_assoc _ (List.replicate n _), List.replicate_append_replicate]

theorem crcWrBody_eq (a : Addr) (d : Bytes) :
    crcWrBody a d = be16 (0xA#4 ++ a) ++ [lengthField a d.length] ++ d := by
  rw [crcWrBody, header_eq_append]

/-- Settles O41: each wire command sends its layout, written out by the `_eq` lemmas, and its data is the slice of DIN. -/
theorem wireCommandSendsItsLayout : Obligations.WireCommandSendsItsLayout := by
  intro s a c ho
  simp only [← plainRd_eq, ← plainWr_eq, ← crcRd_eq, ← crcWrBody_eq]
  exact ⟨exec_sends rfl ho, exec_sends rfl ho, exec_sends rfl ho, s.request.data, s.request.data_isSlice,
    exec_sends rfl ho, exec_sends rfl ho⟩

end Sys2Proof.Machine
end

section
/-! PROOFS. FCF emits only its commands (R62, R84, R85, R130). -/

namespace Sys2Proof

open Machine

/-- Every transaction begins with the bytes of its wire command. -/
theorem transactionOf_begins {q : Request} {i : Instr} {tx : Bytes} (h : transactionOf q i = some tx) :
    ∃ rest, tx = (encode i).2 ++ rest := by
  cases i with
  | wireRead | wireWrite => cases h; exact ⟨_, rfl⟩
  | wireReadCrc | wireWriteCrc | wireSafeReadCrc =>
    cases h
    exact ⟨_, by simp only [crcRd, crcWr, crcWrBody, List.append_assoc]; rfl⟩
  | _ => cases h

/-- An operation that issues a command has one of the five codes. -/
theorem emittedCode_of_emittedBy {p : Config.Params} {i : Instr} {c : Cmd} (h : emittedBy p i = some c) :
    EmittedCode p c := by
  cases i with
  | read => cases h; exact .inl rfl
  | write => cases h; exact .inr (.inl rfl)
  | readCrc => cases h; exact .inr (.inr (.inl rfl))
  | writeCrc => cases h; exact .inr (.inr (.inr (.inl rfl)))
  | safeReadCrc => exact .inr (.inr (.inr (.inr h)))
  | _ => cases h

/-- A wire command issues no command of its own. -/
theorem emittedBy_of_decodeHeader {h : Half} {i : Instr} (hd : decodeHeader h = .ok i) (p : Config.Params) :
    emittedBy p i = none := by
  unfold decodeHeader at hd
  split_ifs at hd <;> cases hd <;> rfl

/-- Only an operation issues a command: the one the latched OP selects, in FCF's first stage. -/
theorem operation_of_emittedBy {q : Request} {st : Stage} {i : Instr} {p : Config.Params} {c : Cmd}
    (hf : fetch q st = .ok i) (hc : emittedBy p i = some c) : st = .operation ∧ i = decodeOp q.op := by
  cases st with
  | operation => cases hf; exact ⟨rfl, rfl⟩
  | command h => cases (emittedBy_of_decodeHeader (fetch_command.1 hf) p).symm.trans hc

/-- In FCF's first stage no Exchange is outstanding. -/
theorem StatusMirrorsPhase.noExchange_of_operation {s : State} (h : StatusMirrorsPhase s) {q : Request}
    (hp : s.phase = .busy q .operation) : s.link.outstanding = none := by
  by_contra ho
  obtain ⟨q', hd, hp'⟩ := h.outstanding (Option.isSome_iff_ne_none.2 ho)
  rw [hp] at hp'
  cases hp'

namespace EmitsOnlyItsCommands

theorem of_same {s t : State} (h : EmitsOnlyItsCommands s) (hparams : t.params = s.params) (hp : t.phase = s.phase)
    (ho : t.link.outstanding = s.link.outstanding) (hs : t.link.sent = s.link.sent) : EmitsOnlyItsCommands t := by
  obtain ⟨hcommand, hout, hsent⟩ := h
  constructor <;> simpa only [hparams, hp, ho, hs]

/-- Outside the command stage only the record of transactions counts. -/
theorem of_noCommand {s t : State} (h : EmitsOnlyItsCommands s) (hparams : t.params = s.params)
    (hp : ∀ q hd, t.phase ≠ .busy q (.command hd)) (hs : t.link.sent = s.link.sent) : EmitsOnlyItsCommands t where
  command q hd hc := absurd hc (hp q hd)
  outstanding q hd _ hc := absurd hc (hp q hd)
  sent := by rw [hs, hparams]; exact h.sent

/-- The checks have passed, and with no Exchange outstanding yet there is no transaction to look at. -/
theorem after_issue {s : State} {q : Request} {c : Cmd} (h : EmitsOnlyItsCommands s) (hm : StatusMirrorsPhase s)
    (hp : s.phase = .busy q .operation) (hc : emittedBy s.params (decodeOp q.op) = some c)
    (hx : contractCheck s.params (decodeOp q.op) s.request = none) : EmitsOnlyItsCommands (issue c s) where
  command q' hd hphase := by
    rw [issue_phase, request_of_busy hp] at hphase
    cases hphase
    exact ⟨c, hc, rfl, request_of_busy hp ▸ hx⟩
  outstanding _ _ _ _ ho := by
    rw [issue_link, hm.noExchange_of_operation hp] at ho
    cases ho
  sent := h.sent

/-- The transaction handed over is the one of the command, and so begins with its header. -/
theorem after_emit {s : State} {q : Request} {hd : Half} {i : Instr} {tx : Bytes} (h : EmitsOnlyItsCommands s)
    (hp : s.phase = .busy q (.command hd)) (hdec : decodeHeader hd = .ok i)
    (ht : transactionOf s.request i = some tx) : EmitsOnlyItsCommands (emit tx s) where
  command := h.command
  outstanding q' hd' tx' hphase ho := by
    rw [emit_phase, hp] at hphase
    cases hphase
    cases ho
    exact ⟨i, hdec, request_of_busy hp ▸ ht⟩
  sent tx' htx := by
    rcases List.mem_cons.1 htx with rfl | htx
    · obtain ⟨c, hc, rfl, -⟩ := h.command q hd hp
      obtain ⟨rest, hrest⟩ := transactionOf_begins ht
      rw [encode_of_decodeHeader hdec] at hrest
      exact ⟨c, q.addr, rest, emittedCode_of_emittedBy hc, hrest⟩
    · exact h.sent tx' htx

theorem after_move {s t : State} {q : Request} {st : Stage} {i : Instr} (h : EmitsOnlyItsCommands s)
    (hm : StatusMirrorsPhase s) (hp : s.phase = .busy q st) (hf : fetch q st = .ok i) (hmove : Move i s t) :
    EmitsOnlyItsCommands t := by
  cases hmove with
  | ends c o hg hc => exact h.of_noCommand rfl (fun _ _ => nofun) rfl
  | issues c hc hx =>
    obtain ⟨rfl, rfl⟩ := operation_of_emittedBy hf hc
    exact h.after_issue hm hp hc hx
  | emits tx ht ho =>
    obtain ⟨hd, rfl⟩ := command_of_transaction hf ht
    exact h.after_emit hp (fetch_command.1 hf) ht
  | waits tx ho hr => exact h

theorem after_takeAnswer {s : State} (h : EmitsOnlyItsCommands s) (a : Answer) : EmitsOnlyItsCommands (takeAnswer a s) := by
  rcases takeAnswer_cases a s with e | ⟨-, -, e⟩ <;> rw [e]
  · exact h
  · exact h.of_same rfl rfl rfl rfl

theorem after_effect {s t : State} (h : EmitsOnlyItsCommands s) (hm : StatusMirrorsPhase s) (he : Effect s t) :
    EmitsOnlyItsCommands t := by
  cases he with
  | accepts hp hr => exact h.of_noCommand rfl (fun _ _ => nofun) rfl
  | runs hp hf hmove => exact h.after_move hm hp hf hmove
  | rests => exact h
  | writes hw =>
    have hkeep := writeInput_wrote hw
    exact h.of_same hkeep.params hkeep.phase (by rw [hkeep.link]) (by rw [hkeep.link])
  | requests => exact h.of_same rfl rfl rfl rfl
  | reads r => exact h.of_same rfl rfl rfl rfl
  | answers a => exact h.after_takeAnswer a
  | resets => exact h.of_noCommand rfl (fun _ _ => nofun) rfl

end EmitsOnlyItsCommands

/-- Settles O58: only an operation whose checks have passed enters the command stage, and only there, from the command of the
header, a transaction is handed over. -/
theorem stepEmitsOnlyItsCommands : Obligations.StepEmitsOnlyItsCommands := by
  intro s t hm hs h
  obtain ⟨es, he⟩ := step_effect h
  have hs' : EmitsOnlyItsCommands { s with inbox := es } := hs.of_same rfl rfl rfl rfl
  exact hs'.after_effect (hm.of_same rfl rfl rfl) he

end Sys2Proof
end

section
/-! PROOFS. The CRC-16 engine (R110 to R117): linearity over GF(2), the detection of a flipped bit, and the table method. -/

namespace Sys2Proof.Machine

/-! ## Linearity of the bit steps (R110) -/

/-- The bit that falls out of a sum is the sum of the bits, and the polynomial added twice is nothing. -/
theorem crcBit_xor (c d : Half) : crcBit (c ^^^ d) = crcBit c ^^^ crcBit d := by
  cases hc : c.msb <;> cases hd : d.msb <;>
    simp [crcBit, BitVec.msb_xor, hc, hd, BitVec.shiftLeft_xor_distrib, BitVec.xor_assoc,
      BitVec.xor_comm Config.crcPoly]

theorem crcBits_xor (n : Nat) (c d : Half) : crcBits n (c ^^^ d) = crcBits n c ^^^ crcBits n d := by
  induction n generalizing c d with
  | zero => rfl
  | succ n ih => simp only [crcBits, crcBit_xor, ih]

theorem crcBits_add (m n : Nat) (c : Half) : crcBits (m + n) c = crcBits n (crcBits m c) := by
  induction m generalizing c with
  | zero => rw [Nat.zero_add, crcBits]
  | succ m ih => rw [Nat.succ_add, crcBits, crcBits, ih]

/-- The polynomial has its lowest bit set, so a bit that falls out leaves a 1 behind. -/
theorem crcBit_getLsbD_zero (c : Half) : (crcBit c).getLsbD 0 = c.msb := by
  cases hc : c.msb <;> simp [crcBit, hc, Config.crcPoly]

theorem eq_zero_of_crcBit {c : Half} (h : crcBit c = 0#16) : c = 0#16 := by
  have hmsb : c.msb = false := by rw [← crcBit_getLsbD_zero, h]; rfl
  have hshift : c <<< 1 = 0#16 := by simpa [crcBit, hmsb] using h
  have hlt : 2 * c.toNat < 2 ^ 16 := BitVec.msb_eq_false_iff_two_mul_lt.1 hmsb
  bv_omega

theorem eq_zero_of_crcBits {n : Nat} {c : Half} (h : crcBits n c = 0#16) : c = 0#16 := by
  induction n generalizing c with
  | zero => exact h
  | succ n ih => exact eq_zero_of_crcBit (ih h)

/-- While only zeros fall out, the bit steps are a shift. -/
theorem crcBits_eq_shiftLeft {n : Nat} {c : Half} (h : ∀ j < n, c.getMsbD j = false) : crcBits n c = c <<< n := by
  induction n generalizing c with
  | zero => rw [crcBits, BitVec.shiftLeft_zero]
  | succ n ih =>
    have hmsb : c.msb = false := h 0 (Nat.succ_pos n)
    have hrest : ∀ j < n, (c <<< 1).getMsbD j = false := fun j hj => by
      rw [BitVec.getMsbD_shiftLeft]; exact h (j + 1) (Nat.succ_lt_succ hj)
    have hbit : crcBit c = c <<< 1 := by simp [crcBit, hmsb]
    rw [crcBits, hbit, ih hrest, ← BitVec.shiftLeft_add, Nat.add_comm]

/-! ## A changed byte (R115) -/

theorem crcByte_xor_left (c d : Half) (b : Byte) : crcByte (c ^^^ d) b = crcByte c b ^^^ crcBits 8 d := by
  rw [crcByte, crcByte, BitVec.xor_assoc, BitVec.xor_comm d, ← BitVec.xor_assoc, crcBits_xor]

theorem crcByte_xor_right (c : Half) (b m : Byte) :
    crcByte c (b ^^^ m) = crcByte c b ^^^ crcBits 8 (m.setWidth 16 <<< 8) := by
  rw [crcByte, crcByte, BitVec.setWidth_xor, BitVec.shiftLeft_xor_distrib, ← BitVec.xor_assoc, crcBits_xor]

/-- A change of the working value goes through the bit steps of the string whatever the string's bytes are. -/
theorem crcFrom_xor (c d : Half) (s : Bytes) : crcFrom (c ^^^ d) s = crcFrom c s ^^^ crcBits (8 * s.length) d := by
  induction s generalizing c d with
  | nil => rfl
  | cons b bs ih =>
    rw [crcFrom, crcByte_xor_left, ih, ← crcBits_add, crcFrom, List.length_cons, Nat.mul_succ, Nat.add_comm]

theorem crcFrom_append (c : Half) (s t : Bytes) : crcFrom c (s ++ t) = crcFrom (crcFrom c s) t := by
  induction s generalizing c with
  | nil => rfl
  | cons b bs ih => exact ih (crcByte c b)

/-- What a flipped bit adds to the CRC: the bit where it enters the working value, and the bit steps from there on. -/
theorem crcFrom_flipBit (c : Half) {s : Bytes} {i : Nat} (k : Nat) (hi : i < s.length) :
    crcFrom c (flipBit s i k) =
      crcFrom c s ^^^ crcBits (8 * (s.length - i)) ((1#8 <<< k).setWidth 16 <<< 8) := by
  induction s generalizing c i with
  | nil => cases hi
  | cons b bs ih =>
    cases i with
    | zero =>
      rw [flipBit, List.modify_zero_cons, crcFrom, crcByte_xor_right, crcFrom_xor, ← crcBits_add, crcFrom, Nat.sub_zero,
        List.length_cons, Nat.mul_succ, Nat.add_comm]
    | succ i =>
      rw [flipBit, List.modify_succ_cons, crcFrom, crcFrom, List.length_cons, Nat.add_sub_add_right]
      exact ih (crcByte c b) (Nat.lt_of_succ_lt_succ hi)

/-- A bit of the byte is a bit of the working value's top byte. -/
theorem flippedBit_ne_zero {k : Nat} (hk : k < 8) : (1#8 <<< k).setWidth 16 <<< 8 ≠ 0#16 := by
  decide +revert

/-- No bit steps cancel a change, so a flipped bit changes the CRC from any working value. -/
theorem crcFrom_flipBit_ne (c : Half) {s : Bytes} {i k : Nat} (hi : i < s.length) (hk : k < 8) :
    crcFrom c (flipBit s i k) ≠ crcFrom c s := by
  rw [crcFrom_flipBit c k hi, Ne, xor_left_eq_self_iff]
  exact fun h => flippedBit_ne_zero hk (eq_zero_of_crcBits h)

theorem crc16_flipBit_xor_crc16 {s : Bytes} {i : Nat} (k : Nat) (hi : i < s.length) :
    crc16 (flipBit s i k) ^^^ crc16 s = crcBits (8 * (s.length - i)) ((1#8 <<< k).setWidth 16 <<< 8) := by
  rw [crc16, crc16, crcFrom_flipBit _ k hi, xor_xor_cancel_comm]

theorem flipBit_of_length_le {s : Bytes} {i : Nat} (k : Nat) (h : s.length ≤ i) : flipBit s i k = s :=
  List.modify_eq_self h

/-- Settles O21: the difference is never 0, and names no byte of the string; a position past the end changes nothing. -/
theorem crcDetectsEverySingleBitError : Obligations.CrcDetectsEverySingleBitError := by
  refine ⟨fun s i k hi hk => crcFrom_flipBit_ne _ hi hk, fun s s' i k hlen => ?_⟩
  by_cases hi : i < s.length
  · rw [crc16_flipBit_xor_crc16 k hi, crc16_flipBit_xor_crc16 k (hlen ▸ hi), hlen]
  · have hpast : s.length ≤ i := Nat.le_of_not_lt hi
    rw [flipBit_of_length_le k hpast, flipBit_of_length_le k (hlen ▸ hpast), BitVec.xor_self, BitVec.xor_self]

/-! ## The table method (R117) -/

/-- The working value with the byte added at the top, split into the table's index at the top and the low byte below. -/
theorem xor_byte_eq_index_xor_low (c : Half) (b : Byte) :
    c ^^^ b.setWidth 16 <<< 8 =
      (c.setWidth 8).setWidth 16 ^^^ (((c >>> 8).setWidth 8 ^^^ b).setWidth 16 <<< 8) := by
  apply BitVec.eq_of_getLsbD_eq
  intro j hj
  by_cases h : j < 8
  · simp [h, hj]
  · have h8 : 8 + (j - 8) = j := by omega
    have hlt : j - 8 < 8 := by omega
    simp [h, hj, h8, hlt]

/-- The low byte is shifted up, its top eight bits being 0; the index goes through the bit steps the table holds. -/
theorem crcTableByte_eq_crcByte (c : Half) (b : Byte) : crcTableByte c b = crcByte c b := by
  have hlow : crcBits 8 ((c.setWidth 8).setWidth 16) = c <<< 8 := by
    rw [crcBits_eq_shiftLeft fun j hj => by
      rw [BitVec.getMsbD_setWidth, decide_eq_false (by omega), Bool.false_and]]
    apply BitVec.eq_of_getLsbD_eq
    intro j hj
    have hj8 : j - 8 < 8 := by omega
    have hj16 : j - 8 < 16 := by omega
    simp [hj8, hj16]
  rw [crcByte, xor_byte_eq_index_xor_low, crcBits_xor, hlow, crcTableByte, crcTable]

theorem crcTableFrom_eq_crcFrom (c : Half) (s : Bytes) : crcTableFrom c s = crcFrom c s := by
  induction s generalizing c with
  | nil => rfl
  | cons b bs ih => rw [crcTableFrom, crcTableByte_eq_crcByte, ih, crcFrom]

/-- Settles O22: byte by byte the table step is the byte step of R110, and the six entries are computed. -/
theorem crcByTableIsTheCrc : Obligations.CrcByTableIsTheCrc :=
  ⟨crcTableFrom_eq_crcFrom _, by decide +kernel⟩

/-! ## The check values and the operation (R113, R114) -/

/-- Settles O19: the three strings are run through the engine. -/
theorem crcCheckValues : Obligations.CrcCheckValues := by
  unfold Obligations.CrcCheckValues
  decide +kernel

/-- Settles O20: DIN_LEN against the capacity decides, and the bytes are the slice of DIN. -/
theorem crc16PutsTheCrcInVout : Obligations.Crc16PutsTheCrcInVout := by
  refine ⟨rfl, fun s => ⟨fun hover => ?_, fun hfits => ?_⟩⟩
  · exact ⟨_, if_pos hover, raise_completedAs _ s⟩
  · have hend : exec .crc16 s = .next (completeOk (.ofVout (crc16 s.request.data)) s) := if_neg (Nat.not_lt.2 hfits)
    exact ⟨s.request.data, s.request.data_isSlice, ⟨_, hend, completeOk_completedAs _ s⟩, fun hnil => by rw [hnil]; rfl⟩

end Sys2Proof.Machine
end

section
/-! PROOFS. The integrity check of the CRC-protected reads (R112, R116, R137, R139) against a flipped bit (R115). -/

namespace Sys2Proof.Machine

theorem be16_injective {h h' : Half} (heq : be16 h = be16 h') : h = h' := by
  simp only [be16, List.cons.injEq, and_true] at heq
  obtain ⟨hhi, hlo⟩ := heq
  rw [← fromBe16_of_bytes h, hhi, hlo, fromBe16_of_bytes]

/-- The CRC field of a response is its two bytes after the data. -/
theorem crcReceived_eq_some {n : Nat} {rx : Bytes} {h : Half} :
    crcReceived n rx = some h ↔ (rx.drop (3 + n)).take 2 = be16 h := by
  unfold crcReceived
  split
  next hi lo rest hd =>
    rw [hd, Option.some.injEq, fromBe16_eq_append]
    constructor
    · rintro rfl
      exact (be16_append hi lo).symm
    · intro hb
      exact be16_injective ((be16_append hi lo).trans hb)
  next hshort =>
    refine ⟨nofun, fun hb => ?_⟩
    match hd : rx.drop (3 + n), hb with
    | hi :: lo :: rest, _ => exact absurd hd (hshort hi lo rest)

/-! ## Where a flipped bit lands -/

theorem slice_flipBit_of_le {m j : Nat} (s : Bytes) (n k : Nat) (h : m ≤ j) :
    ((flipBit s j k).drop m).take n = flipBit ((s.drop m).take n) (j - m) k := by
  rw [flipBit, List.drop_modify_of_ge _ _ _ _ h, List.take_modify, flipBit]

theorem slice_flipBit_of_lt {m j : Nat} (s : Bytes) (n k : Nat) (h : j < m) :
    ((flipBit s j k).drop m).take n = (s.drop m).take n := by
  rw [flipBit, List.drop_modify_of_lt _ _ _ _ h]

theorem flipBit_ne {s : Bytes} {i k : Nat} (hi : i < s.length) (hk : k < 8) : flipBit s i k ≠ s :=
  fun h => crcDetectsEverySingleBitError.1 s i k hi hk (congrArg crc16 h)

/-- A bit flipped in the data changes the CRC computed and not the one received; flipped in the CRC field, the other way
round. -/
theorem crcReceived_flipBit_ne {n j k : Nat} {sent rx : Bytes}
    (hok : crcReceived n rx = some (crc16 (sent ++ (rx.drop 3).take n))) (h3 : 3 ≤ j) (hj : j < 5 + n) (hk : k < 8) :
    crcReceived n (flipBit rx j k) ≠ some (crc16 (sent ++ ((flipBit rx j k).drop 3).take n)) := by
  rw [Ne, crcReceived_eq_some]
  rw [crcReceived_eq_some] at hok
  have hlen : ((rx.drop (3 + n)).take 2).length = 2 := by rw [hok]; rfl
  rw [List.length_take, List.length_drop] at hlen
  intro hbad
  by_cases hdata : j < 3 + n
  · have hin : j - 3 < ((rx.drop 3).take n).length := by
      rw [List.length_take, List.length_drop]; omega
    rw [slice_flipBit_of_lt _ _ _ hdata, slice_flipBit_of_le _ _ _ h3, hok] at hbad
    have hcrc := be16_injective hbad
    rw [crc16, crc16, crcFrom_append, crcFrom_append] at hcrc
    exact crcFrom_flipBit_ne _ hin hk hcrc.symm
  · have hfield : 3 + n ≤ j := Nat.le_of_not_lt hdata
    have hpast : ((rx.drop 3).take n).length ≤ j - 3 := take_length_le.trans (by omega)
    have hin : j - (3 + n) < ((rx.drop (3 + n)).take 2).length := by
      rw [List.length_take, List.length_drop]; omega
    rw [slice_flipBit_of_le _ _ _ hfield, slice_flipBit_of_le _ _ _ h3, flipBit_of_length_le k hpast, ← hok] at hbad
    exact flipBit_ne hin hk hbad

/-! ## The completion of a CRC-protected read -/

/-- Both CRC-protected reads end with the same check, and differ in the error for a wrong length. -/
theorem exec_readCrc_finishes {i : Instr} {a : Addr} (hi : i = .wireReadCrc a ∨ ∃ c, i = .wireSafeReadCrc c a) :
    ∃ e, ∀ (s : State) (tx : Bytes) (ans : Answer), s.link.outstanding = some tx → s.link.reply = some ans →
      exec i s = .next (finishReadCrc e s.request.readCount s tx ans) := by
  rcases hi with rfl | ⟨c, rfl⟩
  · exact ⟨_, fun _ _ _ => exec_wireReadCrc_finishes⟩
  · exact ⟨_, fun _ _ _ => exec_wireSafeReadCrc_finishes⟩

/-- An OK says that the response is as long as tx and that its CRC agrees. -/
theorem finishReadCrc_ok {e : ErrorCode} {n : Nat} {s : State} {tx rx : Bytes}
    (h : (finishReadCrc e n s tx (.ok rx)).status.last = some .ok) :
    rx.length = tx.length ∧ crcReceived n rx = some (crc16 (tx.take 3 ++ (rx.drop 3).take n)) := by
  rcases finishReadCrc_cases e n s tx (.ok rx) with he | he | he | ⟨rx', ha, hlen, hcrc, -⟩
  · rw [he] at h; cases h
  · rw [he] at h; cases h
  · rw [he] at h; cases h
  · cases ha; exact ⟨hlen, hcrc⟩

theorem finishReadCrc_mismatch {e : ErrorCode} {n : Nat} {s : State} {tx rx : Bytes} (hlen : rx.length = tx.length)
    (hcrc : crcReceived n rx ≠ some (crc16 (tx.take 3 ++ (rx.drop 3).take n))) :
    finishReadCrc e n s tx (.ok rx) = raise .integrityError s := by
  simp only [finishReadCrc, checkReply_length hlen, if_neg hcrc]

/-- Settles O49: the OK gives the length and the agreeing CRC, which the flipped bit breaks. -/
theorem flippedBitFailsTheIntegrityCheck : Obligations.FlippedBitFailsTheIntegrityCheck := by
  intro s t i a tx rx j k hi hout hreply hexec hok h3 hj hk
  obtain ⟨e, hfinish⟩ := exec_readCrc_finishes hi
  rw [hfinish s tx _ hout hreply] at hexec
  cases hexec
  obtain ⟨hlen, hcrc⟩ := finishReadCrc_ok hok
  have hlen' : (flipBit rx j k).length = tx.length := (List.length_modify _ _ _).trans hlen
  have hcrc' := crcReceived_flipBit_ne hcrc h3 hj hk
  have hend := hfinish { s with link := { s.link with reply := some (.ok (flipBit rx j k)) } } tx _ hout rfl
  exact ⟨_, hend.trans (congrArg _ (finishReadCrc_mismatch hlen' hcrc')), raise_completedAs _ _⟩

end Sys2Proof.Machine
end

section
/-! PROOFS. The contract checks (R52, R53, R57, R58, R89, R131): what each passes and fails on, in addresses and counts. -/

namespace Sys2Proof.Machine

open Sys2Proof

/-! ## The region of a transaction (R53) -/

theorem region_eq_ram {a n : Nat} : region a n = .ram ↔ 0x400 ≤ a ∧ a + n ≤ 0xC00 := by
  unfold region Config.ramLo Config.ramHi
  split_ifs <;> simp only [true_iff, false_iff] <;> omega

theorem region_eq_sfr {a n : Nat} (hn : n ≠ 0) : region a n = .sfr ↔ a + n ≤ 0x400 ∨ 0xC00 ≤ a := by
  unfold region Config.ramLo Config.ramHi
  split_ifs <;> simp only [true_iff, false_iff] <;> omega

theorem region_eq_straddle {a n : Nat} : region a n = .straddle ↔ region a n ≠ .ram ∧ region a n ≠ .sfr := by
  cases region a n <;> simp

/-! ## The range of a transaction (R52) -/

theorem addrValid_iff {p : Config.Params} {a : Nat} :
    addrValid p a = true ↔ ∃ r ∈ p.addrValid, r.lo.toNat ≤ a ∧ a ≤ r.hi.toNat := by
  simp [addrValid]

theorem inRange_iff {p : Config.Params} {a n : Nat} :
    inRange p a n = true ↔ a + n ≤ 0x1000 ∧ ∀ i, i < n → ∃ r ∈ p.addrValid, r.lo.toNat ≤ a + i ∧ a + i ≤ r.hi.toNat := by
  simp [inRange, addrValid_iff]

theorem inRange_eq_false {p : Config.Params} {a n : Nat} :
    inRange p a n = false ↔
      0x1000 < a + n ∨ ∃ i, i < n ∧ ∀ r ∈ p.addrValid, ¬(r.lo.toNat ≤ a + i ∧ a + i ≤ r.hi.toNat) := by
  rw [← Bool.not_eq_true, inRange_iff, not_and_or, not_le]
  push Not
  rfl

theorem countAndRangePass_iff {p : Config.Params} {a : Addr} {n : Nat} :
    CountAndRangePass p a n ↔ n ≠ 0 ∧ n ≤ p.maxBurst ∧ inRange p a.toNat n = true := by
  rw [CountAndRangePass, inRange_iff, Nat.one_le_iff_ne_zero]

/-! ## The alignment and the length byte, by region (R57, R89) -/

theorem unitCount_le_iff {a n : Nat} (hr : region a n = .ram) (hwords : n % 4 = 0) :
    unitCount a n ≤ Config.nMax ↔ n ≤ 1020 := by
  rw [unitCount_of_ram hr, Config.nMax]
  omega

/-- Settles O35: the checks on the region, alignment and N, read off for each region. -/
theorem contractCheckPassesExactlyWhen : Obligations.ContractCheckPassesExactlyWhen := by
  intro p a n withN
  rw [checkXact_eq_none, inRange_iff, Nat.one_le_iff_ne_zero, and_assoc]
  refine and_congr_right fun hn => and_congr_right fun _ => and_congr_right fun _ => and_congr_right fun _ => ?_
  rw [← region_eq_sfr hn, ← and_assoc (a := 0x400 ≤ _), ← region_eq_ram]
  cases hr : region a.toNat n with
  | ram =>
    simp only [ne_eq, reduceCtorEq, not_false_eq_true, true_and, forall_const, false_and, or_false, and_assoc]
    exact and_congr_right fun _ => and_congr_right fun hwords => by rw [unitCount_le_iff hr hwords]
  | sfr => simp [unitCount_of_sfr hr]
  | straddle => simp

/-! ## The check that is reported -/

/-- A check is reported when it fails, or when it passes and a later one is reported. -/
theorem check_eq_some {fails : Prop} [Decidable fails] {r r' : ContractReason} {later : Option ContractReason} :
    (if fails then some r else later) = some r' ↔ fails ∧ r = r' ∨ ¬fails ∧ later = some r' := by
  by_cases h : fails <;> simp [h]

section Reported

variable {p : Config.Params} {a : Addr} {n : Nat} {withN : Bool}

theorem checkXact_eq_lenZero : checkXact p a n withN = some .lenZero ↔ n = 0 := by
  simp [checkXact, check_eq_some]

theorem checkXact_eq_lenBurst : checkXact p a n withN = some .lenBurst ↔ n ≠ 0 ∧ p.maxBurst < n := by
  simp [checkXact, check_eq_some]

theorem checkXact_eq_addrRange :
    checkXact p a n withN = some .addrRange ↔ n ≠ 0 ∧ n ≤ p.maxBurst ∧ inRange p a.toNat n = false := by
  simp [checkXact, check_eq_some]

theorem checkXact_eq_regionStraddle :
    checkXact p a n withN = some .regionStraddle ↔ CountAndRangePass p a n ∧ region a.toNat n = .straddle := by
  simp [checkXact, check_eq_some, countAndRangePass_iff, and_assoc]

theorem checkXact_eq_ramAlign :
    checkXact p a n withN = some .ramAlign ↔
      CountAndRangePass p a n ∧ region a.toNat n = .ram ∧ (a.toNat % 4 ≠ 0 ∨ n % 4 ≠ 0) := by
  have hram {P : Prop} :
      ¬region a.toNat n = .straddle ∧ region a.toNat n = .ram ∧ P ↔ region a.toNat n = .ram ∧ P := by
    cases region a.toNat n <;> simp
  simp only [checkXact, check_eq_some, countAndRangePass_iff, hram, and_assoc, reduceCtorEq, and_false, and_true, false_or,
    or_false, gt_iff_lt, not_lt, Bool.not_eq_false, ne_eq]

theorem checkXact_eq_nRange :
    checkXact p a n withN = some .nRange ↔
      CountAndRangePass p a n ∧ withN = true ∧ region a.toNat n ≠ .straddle ∧
        (region a.toNat n = .ram → a.toNat % 4 = 0 ∧ n % 4 = 0) ∧ Config.nMax < unitCount a.toNat n := by
  simp [checkXact, check_eq_some, countAndRangePass_iff, and_assoc, and_left_comm]

theorem checkXact_ne_bufRange : checkXact p a n withN ≠ some .bufRange := by
  simp [checkXact, check_eq_some]

theorem checkWrite_of_over (h : p.bufBytes < n) : checkWrite p a n withN = some .bufRange := if_pos h

theorem checkWrite_of_fits (h : n ≤ p.bufBytes) : checkWrite p a n withN = checkXact p a n withN :=
  if_neg (Nat.not_lt.2 h)

end Reported

/-- Settles O36: each check is reported exactly when it is the first to fail, and the region is put in addresses. -/
theorem contractChecksInOrder : Obligations.ContractChecksInOrder := by
  intro p a n withN
  refine ⟨checkXact_eq_lenZero, ?_, ?_, ?_, ?_, ?_, checkXact_ne_bufRange, checkWrite_of_over, checkWrite_of_fits⟩
  · rw [checkXact_eq_lenBurst, Nat.one_le_iff_ne_zero]
  · rw [checkXact_eq_addrRange, inRange_eq_false, Nat.one_le_iff_ne_zero]
  · rw [checkXact_eq_regionStraddle]
    refine and_congr_right fun hpass => ?_
    obtain ⟨hn, -, -⟩ := countAndRangePass_iff.1 hpass
    rw [region_eq_straddle, Ne, Ne, region_eq_ram, region_eq_sfr hn]
  · rw [checkXact_eq_ramAlign, region_eq_ram, and_assoc]
  · rw [checkXact_eq_nRange]
    refine and_congr_right fun hpass => and_congr_right fun _ => ?_
    obtain ⟨hn, -, -⟩ := countAndRangePass_iff.1 hpass
    rw [← region_eq_sfr hn, ← and_assoc (a := 0x400 ≤ _), ← region_eq_ram]
    cases hr : region a.toNat n with
    | ram =>
      simp only [ne_eq, reduceCtorEq, not_false_eq_true, true_and, forall_const, false_and, or_false, and_assoc]
      exact and_congr_right fun _ => and_congr_right fun hwords => by rw [← not_le, unitCount_le_iff hr hwords, not_le]
    | sfr => simp [unitCount_of_sfr hr]
    | straddle => simp

end Sys2Proof.Machine
end

section
/-! PROOFS. A contract violation (R131, R143) and what ends the final run (R243; log entries 1, 7, 25). -/

namespace Sys2Proof.Machine

open Sys2Proof

/-! ## The checks of a bus operation (R130 phases 1 and 2) -/

/-- What a bus operation with command code `c` does after its contract check: raise the reason, or issue the command. -/
def afterCheck (c : Cmd) (s : State) : Option ContractReason → State
  | some r => raise (.contractViolation r) s
  | none => issue c s

/-- The five bus operations are the ones with a command code, and differ only in the code and in the check. -/
theorem exec_busOperation {i : Instr} {s : State} {c : Cmd} (hc : emittedBy s.params i = some c) :
    exec i s = .next (afterCheck c s (contractCheck s.params i s.request)) := by
  cases i with
  | read | write | readCrc | writeCrc =>
    cases hc
    simp only [exec, execRead, execWrite, execReadCrc, execWriteCrc, contractCheck]
    split <;> simp only [afterCheck, *]
  | safeReadCrc =>
    have hsafe : s.params.safeCmd = some c := hc
    simp only [exec, execSafeReadCrc, contractCheck, hsafe]
    split <;> simp only [afterCheck, *]
  | _ => cases hc

theorem exec_violates {i : Instr} {s : State} {c : Cmd} {r : ContractReason} (hc : emittedBy s.params i = some c)
    (hx : contractCheck s.params i s.request = some r) : exec i s = .next (raise (.contractViolation r) s) := by
  rw [exec_busOperation hc, hx]
  rfl

theorem exec_issues {i : Instr} {s : State} {c : Cmd} (hc : emittedBy s.params i = some c)
    (hx : contractCheck s.params i s.request = none) : exec i s = .next (issue c s) := by
  rw [exec_busOperation hc, hx]
  rfl

/-! ## What ends the final run -/

/-- No effect makes a run final again. -/
theorem Effect.runFinal_before {s t : State} (he : Effect s t) (h : t.runFinal = true) : s.runFinal = true := by
  cases he with
  | accepts hp hr => exact (Bool.and_eq_true_iff.1 h).1
  | runs hp hf hm =>
    cases hm with
    | ends c o hg hc => exact (Bool.and_eq_true_iff.1 h).1
    | issues | emits | waits => exact h
  | writes hw => exact (writeInput_wrote hw).runFinal ▸ h
  | reads r => exact (Bool.and_eq_true_iff.1 h).1
  | answers a =>
    rcases takeAnswer_cases a s with e | ⟨-, -, e⟩ <;> rw [e] at h
    · exact h
    · exact h
  | rests | requests | resets => exact h

/-- Of the moves of an instruction only a completion with a contract violation ends the final run. -/
theorem Move.violation_of_runFinal_lost {i : Instr} {s t : State} (hm : Move i s t) (hs : s.runFinal = true)
    (ht : t.runFinal = false) : t.phase = .idle ∧ ∃ r, t.status.last = some (.error (.contractViolation r)) := by
  cases hm with
  | ends c o hg hc =>
    have hfault : treatment c = .fault := by simpa [hs] using ht
    obtain ⟨r, rfl⟩ := treatment_eq_fault.1 hfault
    exact ⟨rfl, r, rfl⟩
  | issues | emits | waits => cases hs.symm.trans ht

/-- FCF's own move ends the final run by a contract violation, or by accepting a request with an input not written. -/
theorem fcfMove_runFinal_lost {s t : State} (h : fcfMove s = .next t) (hs : s.runFinal = true) (ht : t.runFinal = false) :
    (s.phase ≠ .idle ∧ t.phase = .idle ∧ ∃ r, t.status.last = some (.error (.contractViolation r))) ∨
    (s.phase = .idle ∧ t.phase ≠ .idle ∧ missingInput (decodeOp s.op) s ≠ none) := by
  rcases fcfMove_cases h with ⟨hp, -, rfl⟩ | ⟨-, -, rfl⟩ | ⟨q, st, i, hp, -, hx⟩
  · exact .inr ⟨hp, nofun, fun hm => by simp [hs, hm] at ht⟩
  · cases hs.symm.trans ht
  · exact .inl ⟨by simp [hp], (exec_cases hx).violation_of_runFinal_lost hs ht⟩

/-- Of the events only a host read ends the final run: one of what holds no value. -/
theorem deliver_runFinal_lost {e : Event} {s t : State} (h : deliver e s = .next t) (hs : s.runFinal = true)
    (ht : t.runFinal = false) : t.phase = s.phase ∧ ∃ r, e = .read r ∧ outputValue r s = none := by
  cases e with
  | read r =>
    cases h
    exact ⟨rfl, r, rfl, by simpa [hs] using ht⟩
  | write w => cases hs.symm.trans ((writeInput_wrote h).runFinal ▸ ht)
  | answer a =>
    cases h
    rcases takeAnswer_cases a s with e | ⟨-, -, e⟩ <;> rw [e] at ht <;> cases hs.symm.trans ht
  | fcf | req | writeOutput | reset => cases h; cases hs.symm.trans ht

/-- Settles O38: a bus operation raises what its check reports; and FCF's moves and the events end the final run in the
three ways of `fcfMove_runFinal_lost` and `deliver_runFinal_lost`. -/
theorem contractViolationMakesNoExchange : Obligations.ContractViolationMakesNoExchange := by
  refine ⟨fun s i r hi hx => ?_, fun s t h => ⟨fun hs => ?_, fun hs ht => ?_⟩⟩
  · obtain ⟨c, hc⟩ : ∃ c, emittedBy s.params i = some c := by
      rcases hi with rfl | rfl | rfl | rfl | ⟨rfl, hsafe⟩
      case inr.inr.inr.inr => exact Option.ne_none_iff_exists'.1 hsafe
      all_goals exact ⟨_, rfl⟩
    exact ⟨_, exec_violates hc hx, raise_completedAs _ s, by simp [treatment]⟩
  · obtain ⟨es, he⟩ := step_effect h
    by_contra ht
    cases hs.symm.trans (he.runFinal_before (Bool.not_eq_false _ ▸ ht))
  · rcases step_cases h with ⟨-, h⟩ | ⟨es, -, h⟩ | ⟨e, es, hi, -, h⟩
    · exact (fcfMove_runFinal_lost h hs ht).imp_right .inl
    · exact (fcfMove_runFinal_lost h hs ht).imp_right .inl
    · obtain ⟨hp, r, rfl, hv⟩ := deliver_runFinal_lost h hs ht
      exact .inr (.inr ⟨hp, r, es, hi, (outputValue_with_inbox r s es).symm.trans hv⟩)

end Sys2Proof.Machine
end

section
/-! PROOFS. The results an operation can end with (R233). -/

namespace Sys2Proof.Machine

open Sys2Proof

theorem operationOf_decodeOp (op : BitVec 4) : operationOf (decodeOp op) = decodeOp op := by
  unfold decodeOp
  split <;> rfl

/-- A well-formed binding of `P_SAFE_CMD` is a code for the safe variant (R6). -/
theorem isSafeCode_of_wellFormed {p : Config.Params} {c : Cmd} (hwf : p.wellFormed = true) (hc : p.safeCmd = some c) :
    isSafeCode c = true := by
  simpa [hc] using (Bool.and_eq_true_iff.1 hwf).2

/-- The header an operation builds decodes to a wire command of that operation (R84). -/
theorem operationOf_of_emittedBy {p : Config.Params} {i j : Instr} {c : Cmd} {a : Addr} (hwf : p.wellFormed = true)
    (hc : emittedBy p i = some c) (hj : decodeHeader (header c a) = .ok j) : operationOf j = i := by
  cases i with
  | read => cases hc; cases (decodeHeader_read a).symm.trans hj; rfl
  | write => cases hc; cases (decodeHeader_write a).symm.trans hj; rfl
  | readCrc => cases hc; cases (decodeHeader_readCrc a).symm.trans hj; rfl
  | writeCrc => cases hc; cases (decodeHeader_writeCrc a).symm.trans hj; rfl
  | safeReadCrc => cases (decodeHeader_safeReadCrc (isSafeCode_of_wellFormed hwf hc) a).symm.trans hj; rfl
  | _ => cases hc

/-- The instruction a Busy FCF carries out belongs to the operation it has accepted. -/
theorem operationOf_fetched {s : State} {q : Request} {st : Stage} {i : Instr} (hemits : EmitsOnlyItsCommands s)
    (hwf : s.params.wellFormed = true) (hp : s.phase = .busy q st) (hf : fetch q st = .ok i) :
    operationOf i = decodeOp q.op := by
  cases st with
  | operation => cases hf; exact operationOf_decodeOp q.op
  | command h =>
    obtain ⟨c, hc, rfl, -⟩ := hemits.command q h hp
    exact operationOf_of_emittedBy hwf hc (fetch_command.1 hf)

/-- No event but a reset changes PHASE. -/
theorem deliver_phase {e : Event} {s t : State} (he : e ≠ .reset) (h : deliver e s = .next t) : t.phase = s.phase := by
  cases e with
  | reset => exact absurd rfl he
  | write w => exact (writeInput_wrote h).phase
  | answer a =>
    cases h
    rcases takeAnswer_cases a s with e | ⟨-, -, e⟩ <;> rw [e]
  | fcf | req | read | writeOutput => cases h; rfl

/-- Of the moves of a Busy FCF only a completion leads to Idle. -/
theorem Move.ends_of_idle {i : Instr} {s t : State} {q : Request} {st : Stage} (hm : Move i s t) (hp : s.phase = .busy q st)
    (ht : t.phase = .idle) : ∃ c o, possibleResult (operationOf i) c = true ∧ t = complete c o s := by
  cases hm with
  | ends c o hg hc => exact ⟨c, o, hc, rfl⟩
  | issues => cases ht
  | emits | waits => cases hp.symm.trans ht

/-- FCF's move that ends an operation is a completion with a result of its row. -/
theorem fcfMove_completes {s t : State} {q : Request} {st : Stage} (hemits : EmitsOnlyItsCommands s)
    (hwf : s.params.wellFormed = true) (hp : s.phase = .busy q st) (h : fcfMove s = .next t) (ht : t.phase = .idle) :
    ∃ c o, possibleResult (decodeOp q.op) c = true ∧ t = complete c o s := by
  rcases fcfMove_cases h with ⟨hidle, -⟩ | ⟨hidle, -⟩ | ⟨q', st', i, hp', hf, hx⟩
  · cases hp.symm.trans hidle
  · cases hp.symm.trans hidle
  · cases hp.symm.trans hp'
    rw [← operationOf_fetched hemits hwf hp hf]
    exact (exec_cases hx).ends_of_idle hp ht

/-- A step that ends an operation and is no reset completes it with a result of its row. -/
theorem step_completes {s t : State} {q : Request} {st : Stage} (hemits : EmitsOnlyItsCommands s)
    (hwf : s.params.wellFormed = true) (hp : s.phase = .busy q st) (hreset : ∀ es, s.inbox ≠ .reset :: es)
    (h : step s = .next t) (ht : t.phase = .idle) :
    ∃ c o es, possibleResult (decodeOp q.op) c = true ∧ t = complete c o { s with inbox := es } := by
  rcases step_cases h with ⟨-, h⟩ | ⟨es, -, h⟩ | ⟨e, es, hi, -, h⟩
  · obtain ⟨c, o, hc, rfl⟩ := fcfMove_completes hemits hwf hp h ht
    exact ⟨c, o, s.inbox, hc, rfl⟩
  · have hemits' : EmitsOnlyItsCommands { s with inbox := es } := hemits.of_same rfl rfl rfl rfl
    obtain ⟨c, o, hc, rfl⟩ := fcfMove_completes hemits' hwf hp h ht
    exact ⟨c, o, es, hc, rfl⟩
  · have hphase := deliver_phase (fun he => hreset es (he ▸ hi)) h
    cases hp.symm.trans (hphase.symm.trans ht)

/-- Settles O54: the step is a completion, which writes STATUS and keeps the run final unless its result is a fault. -/
theorem operationEndsWithAResultOfItsRow : Obligations.OperationEndsWithAResultOfItsRow := by
  intro s t q st hemits hwf hp hreset h ht
  obtain ⟨c, o, es, hc, rfl⟩ := step_completes hemits hwf hp hreset h ht
  exact ⟨c, rfl, rfl, hc, by simp⟩

end Sys2Proof.Machine
end

section
/-! PROOFS. A wire command whose Exchange has been answered (R132 to R139): the response check and the data. -/

namespace Sys2Proof.Machine

open Sys2Proof

/-! ## The answer (R132) -/

theorem takeAnswer_of_outstanding {a : Answer} {s : State} {tx : Bytes} (ho : s.link.outstanding = some tx)
    (hr : s.link.reply = none) : takeAnswer a s = { s with link := { s.link with reply := some a } } := by
  simp only [takeAnswer, ho, hr]

theorem step_answer {s : State} {a : Answer} {tx : Bytes} {es : List Event} (hi : s.inbox = .answer a :: es)
    (ho : s.link.outstanding = some tx) (hr : s.link.reply = none) :
    step s = .next { s with inbox := es, link := { s.link with reply := some a } } := by
  rw [step_of_event hi (by simp)]
  exact congrArg Host.Outcome.next (takeAnswer_of_outstanding (s := { s with inbox := es }) ho hr)

/-- Settles O52: the answer is recorded beside the Exchange it belongs to. -/
theorem anyAnswerIsTaken : Obligations.AnyAnswerIsTaken := fun _ _ _ _ hi ho hr => step_answer hi ho hr

/-! ## The response check (R133) -/

/-- An instruction that answers a completion completes. -/
theorem completes_of_exec {i : Instr} {s : State} {c : Completion} {o : Outputs} (h : exec i s = .next (complete c o s)) :
    Completes i s c o := ⟨_, h, complete_completedAs c o s⟩

/-- What a wire command reports for a response of the wrong length (R133, R139). -/
def lengthError : Instr → ErrorCode
  | .wireSafeReadCrc _ _ => .lengthMismatch
  | _ => .busError .rxLength

section Finish

variable {n : Nat} {s : State} {tx : Bytes}

/-- An error of the response check ends the operation. -/
theorem finishRead_error {ans : Answer} {e : ErrorCode} (he : checkReply (.busError .rxLength) tx ans = .error e) :
    finishRead n s tx ans = raise e s := by
  simp only [finishRead, he]

theorem finishWrite_error {ans : Answer} {e : ErrorCode} (he : checkReply (.busError .rxLength) tx ans = .error e) :
    finishWrite s tx ans = raise e s := by
  simp only [finishWrite, he]

theorem finishReadCrc_error {ans : Answer} {lenErr e : ErrorCode} (he : checkReply lenErr tx ans = .error e) :
    finishReadCrc lenErr n s tx ans = raise e s := by
  simp only [finishReadCrc, he]

theorem finishRead_ok {rx : Bytes} (hlen : rx.length = tx.length) :
    finishRead n s tx (.ok rx) = completeOk (.ofDout ((rx.drop 2).take n)) s := by
  simp only [finishRead, checkReply_length hlen]

theorem finishWrite_ok {rx : Bytes} (hlen : rx.length = tx.length) :
    finishWrite s tx (.ok rx) = completeOk Outputs.noValue s := by
  simp only [finishWrite, checkReply_length hlen]

theorem finishReadCrc_match {rx : Bytes} {lenErr : ErrorCode} (hlen : rx.length = tx.length)
    (hcrc : crcReceived n rx = some (crc16 (tx.take 3 ++ (rx.drop 3).take n))) :
    finishReadCrc lenErr n s tx (.ok rx) = completeOk (.ofDout ((rx.drop 3).take n)) s := by
  simp only [finishReadCrc, checkReply_length hlen, if_pos hcrc]

end Finish

section Answered

variable {s : State} {tx : Bytes} (ho : s.link.outstanding = some tx)
include ho

/-- The error of the response check ends every wire command. -/
theorem exec_replyError {i : Instr} {sent : Bytes} {ans : Answer} {e : ErrorCode}
    (ht : transactionOf s.request i = some sent) (hr : s.link.reply = some ans)
    (he : checkReply (lengthError i) tx ans = .error e) : exec i s = .next (raise e s) := by
  cases i with
  | wireRead a => exact (exec_wireRead_finishes ho hr).trans (congrArg _ (finishRead_error he))
  | wireWrite a => exact (exec_wireWrite_finishes ho hr).trans (congrArg _ (finishWrite_error he))
  | wireReadCrc a => exact (exec_wireReadCrc_finishes ho hr).trans (congrArg _ (finishReadCrc_error he))
  | wireWriteCrc a => exact (exec_wireWriteCrc_finishes ho hr).trans (congrArg _ (finishWrite_error he))
  | wireSafeReadCrc c a => exact (exec_wireSafeReadCrc_finishes ho hr).trans (congrArg _ (finishReadCrc_error he))
  | _ => cases ht

/-- A write ends with OK on any response as long as tx (R134, R140). -/
theorem exec_write_ok {i : Instr} {a : Addr} {rx : Bytes} (hi : i = .wireWrite a ∨ i = .wireWriteCrc a)
    (hr : s.link.reply = some (.ok rx)) (hlen : rx.length = tx.length) :
    exec i s = .next (completeOk Outputs.noValue s) := by
  rcases hi with rfl | rfl
  · rw [exec_wireWrite_finishes ho hr, finishWrite_ok hlen]
  · rw [exec_wireWriteCrc_finishes ho hr, finishWrite_ok hlen]

end Answered

/-- Settles O42: the answer is an error of the response check, or a response a write takes whatever its bytes are. -/
theorem wireCommandChecksTheResponse : Obligations.WireCommandChecksTheResponse := by
  intro s tx i a c ho hi
  have ht : ∃ sent, transactionOf s.request i = some sent := by
    simp only [List.mem_cons, List.not_mem_nil, or_false] at hi
    rcases hi with rfl | rfl | rfl | rfl | rfl <;> exact ⟨_, rfl⟩
  obtain ⟨sent, ht⟩ := ht
  refine ⟨fun hr => ?_, fun rx hr hlen => ?_, fun rx hr hlen hw => ?_⟩
  · exact completes_of_exec (exec_replyError ho ht hr rfl)
  · have hend := completes_of_exec (exec_replyError ho ht hr (checkReply_wrongLength hlen))
    refine ⟨fun hne => ?_, fun heq => ?_⟩
    · have herr : lengthError i = .busError .rxLength := by
        simp only [List.mem_cons, List.not_mem_nil, or_false, hne] at hi
        rcases hi with rfl | rfl | rfl | rfl <;> rfl
      exact herr ▸ hend
    · subst heq
      exact hend
  · exact completes_of_exec (exec_write_ok ho hw hr hlen)

/-! ## The data of a read (R135, R137, R139) -/

/-- DOUT with `bs` as DOUT_LEN says. -/
theorem ofDout_eq {bs : Bytes} {len : Half} (h : bs.length = len.toNat) :
    Outputs.ofDout bs = { dout := some { bytes := bs, len := len }, fout := none, vout := none } := by
  rw [Outputs.ofDout, h, BitVec.ofNat_toNat, BitVec.setWidth_eq]

/-- The data and the CRC received, where the response has them after the three bytes of the header and the length. -/
theorem crcFields_of_drop {n : Nat} {rx data : Bytes} {hi lo : Byte} (hdata : data.length = n)
    (hrx : rx.drop 3 = data ++ [hi, lo]) : (rx.drop 3).take n = data ∧ crcReceived n rx = some (hi ++ lo) := by
  subst hdata
  refine ⟨by rw [hrx, List.take_left], ?_⟩
  rw [crcReceived_eq_some, ← List.drop_drop, hrx, List.drop_left, be16_append]
  rfl

section Answered

variable {s : State} {tx rx : Bytes} (ho : s.link.outstanding = some tx) (hr : s.link.reply = some (.ok rx))
  (hlen : rx.length = tx.length)
include ho hr hlen

theorem exec_wireRead_ok {a : Addr} (htx : tx.length = 2 + s.request.len.toNat) :
    exec (.wireRead a) s =
      .next (completeOk { dout := some { bytes := rx.drop 2, len := s.request.len }, fout := none, vout := none } s) := by
  have hdata : (rx.drop 2).length = s.request.readCount := by
    rw [List.length_drop, hlen, htx, Nat.add_sub_cancel_left]
  rw [exec_wireRead_finishes ho hr, finishRead_ok hlen, ← ofDout_eq hdata, List.take_of_length_le hdata.le]

variable {i : Instr} {a : Addr} {data : Bytes} {hi lo : Byte} (hread : i = .wireReadCrc a ∨ ∃ c, i = .wireSafeReadCrc c a)
  (hdata : data.length = s.request.len.toNat) (hrx : rx.drop 3 = data ++ [hi, lo])
include hread hdata hrx

theorem exec_crcRead_ok (hcrc : hi ++ lo = crc16 (tx.take 3 ++ data)) :
    exec i s =
      .next (completeOk { dout := some { bytes := data, len := s.request.len }, fout := none, vout := none } s) := by
  obtain ⟨e, hfinish⟩ := exec_readCrc_finishes hread
  obtain ⟨htake, hreceived⟩ := crcFields_of_drop (n := s.request.readCount) hdata hrx
  rw [hfinish s tx _ ho hr, finishReadCrc_match hlen (by rw [hreceived, htake, hcrc]), htake, ofDout_eq hdata]

theorem exec_crcRead_mismatch (hcrc : hi ++ lo ≠ crc16 (tx.take 3 ++ data)) :
    exec i s = .next (raise .integrityError s) := by
  obtain ⟨e, hfinish⟩ := exec_readCrc_finishes hread
  obtain ⟨htake, hreceived⟩ := crcFields_of_drop (n := s.request.readCount) hdata hrx
  have hbad : some (hi ++ lo) ≠ some (crc16 (tx.take 3 ++ data)) := fun h => hcrc (Option.some.inj h)
  rw [hfinish s tx _ ho hr, finishReadCrc_mismatch hlen (by rwa [hreceived, htake])]

end Answered

/-- Settles O43: the data is the response after the bytes FCF sends, and the CRC decides where there is one. -/
theorem wireReadDeliversTheData : Obligations.WireReadDeliversTheData := fun _ _ _ _ ho hr hlen =>
  ⟨fun htx => completes_of_exec (exec_wireRead_ok ho hr hlen htx), fun _ _ _ _ hread hdata hrx =>
    ⟨fun hcrc => completes_of_exec (exec_crcRead_ok ho hr hlen hread hdata hrx hcrc),
      fun hcrc => completes_of_exec (exec_crcRead_mismatch ho hr hlen hread hdata hrx hcrc)⟩⟩

/-! ## The bytes nothing depends on (R134) -/

/-- `s` with the answer `rx` in the place of the one that came. -/
def State.withReply (s : State) (rx : Bytes) : State := { s with link := { s.link with reply := some (.ok rx) } }

section Ignored

variable {rx rx' : Bytes} (hlen : rx.length = rx'.length)
include hlen

theorem finishRead_sameData (n : Nat) (s : State) (tx : Bytes) (hdata : rx.drop 2 = rx'.drop 2) :
    finishRead n (s.withReply rx') tx (.ok rx') = finishRead n s tx (.ok rx) := by
  by_cases h : rx'.length = tx.length
  · rw [finishRead_ok h, finishRead_ok (hlen.trans h), hdata]
    rfl
  · rw [finishRead_error (checkReply_wrongLength h), finishRead_error (checkReply_wrongLength (hlen ▸ h))]
    rfl

theorem finishWrite_sameLength (s : State) (tx : Bytes) :
    finishWrite (s.withReply rx') tx (.ok rx') = finishWrite s tx (.ok rx) := by
  by_cases h : rx'.length = tx.length
  · rw [finishWrite_ok h, finishWrite_ok (hlen.trans h)]
    rfl
  · rw [finishWrite_error (checkReply_wrongLength h), finishWrite_error (checkReply_wrongLength (hlen ▸ h))]
    rfl

theorem finishReadCrc_sameData (e : ErrorCode) (n : Nat) (s : State) (tx : Bytes) (hdata : rx.drop 3 = rx'.drop 3) :
    finishReadCrc e n (s.withReply rx') tx (.ok rx') = finishReadCrc e n s tx (.ok rx) := by
  have hreceived : crcReceived n rx = crcReceived n rx' := by
    unfold crcReceived
    rw [← List.drop_drop, hdata, List.drop_drop]
  by_cases h : rx'.length = tx.length
  · by_cases hcrc : crcReceived n rx' = some (crc16 (tx.take 3 ++ (rx'.drop 3).take n))
    · rw [finishReadCrc_match h hcrc, finishReadCrc_match (hlen.trans h) (by rwa [hreceived, hdata]), hdata]
      rfl
    · rw [finishReadCrc_mismatch h hcrc, finishReadCrc_mismatch (hlen.trans h) (by rwa [hreceived, hdata])]
      rfl
  · rw [finishReadCrc_error (checkReply_wrongLength h), finishReadCrc_error (checkReply_wrongLength (hlen ▸ h))]
    rfl

end Ignored

/-- Settles O50: with an Exchange outstanding the command finishes, and its end does not depend on those bytes. -/
theorem headerTimeBytesAreIgnored : Obligations.HeaderTimeBytesAreIgnored := by
  intro s a c rx rx' hlen hr
  cases ho : s.link.outstanding with
  | none => exact ⟨fun _ => .inr rfl, fun _ _ _ => .inr rfl, fun _ _ => .inr rfl⟩
  | some tx =>
    have ho' : (s.withReply rx').link.outstanding = some tx := ho
    have hr' : (s.withReply rx').link.reply = some (.ok rx') := rfl
    refine ⟨fun hdata => .inl ?_, fun hdata i hi => .inl ?_, fun i hi => .inl ?_⟩
    · rw [exec_wireRead_finishes ho hr]
      exact (exec_wireRead_finishes ho' hr').trans (congrArg _ (finishRead_sameData hlen _ s tx hdata))
    · obtain ⟨e, hfinish⟩ := exec_readCrc_finishes (a := a) (hi.imp_right fun h => ⟨c, h⟩)
      rw [hfinish s tx _ ho hr]
      exact (hfinish _ tx _ ho' hr').trans (congrArg _ (finishReadCrc_sameData hlen e _ s tx hdata))
    · rcases hi with rfl | rfl
      · rw [exec_wireWrite_finishes ho hr]
        exact (exec_wireWrite_finishes ho' hr').trans (congrArg _ (finishWrite_sameLength hlen s tx))
      · rw [exec_wireWriteCrc_finishes ho hr]
        exact (exec_wireWriteCrc_finishes ho' hr').trans (congrArg _ (finishWrite_sameLength hlen s tx))

end Sys2Proof.Machine
end

section
/-! PROOFS. The bus operations as a whole (R130, R135 to R139): checks, one Exchange, response check, completion. -/

namespace Sys2Proof.Machine

open Sys2Proof

/-! ## The four steps of a bus operation -/

/-- FCF is Busy with the bus operation of `q`, its command and contract checks pass, and `i` is the wire command of the
header it builds, with the transaction `tx`. -/
structure ReadyFor (s : State) (q : Request) (i : Instr) (tx : Bytes) : Prop where
  phase : s.phase = .busy q .operation
  noExchange : s.link.outstanding = none
  command : ∃ c, emittedBy s.params (decodeOp q.op) = some c ∧ decodeHeader (header c q.addr) = .ok i
  passes : contractCheck s.params (decodeOp q.op) q = none
  transaction : transactionOf q i = some tx

theorem run_succ {s t : State} (k : Nat) (h : step s = .next t) : core.run (k + 1) s = core.run k t := by
  have hcore : core.step s = .next t := h
  simp only [Host.Core.run, hcore]

section Turn

variable {s : State} {es : List Event} (hi : s.inbox = .fcf :: es) {q : Request}
include hi

/-- FCF's turn in the first stage of a bus operation whose checks pass. -/
theorem step_issues {c : Cmd} (hp : s.phase = .busy q .operation) (hc : emittedBy s.params (decodeOp q.op) = some c)
    (hx : contractCheck s.params (decodeOp q.op) q = none) : step s = .next (issue c { s with inbox := es }) := by
  have hx' : contractCheck s.params (decodeOp q.op) s.request = none := (request_of_busy hp).symm ▸ hx
  rw [step_of_fcfTurn (.inr hi)]
  exact (fcfMove_of_operation (s := { s with inbox := es }) hp).trans (exec_issues hc hx')

/-- FCF's turn in the command stage. -/
theorem step_command {h : Half} {i : Instr} (hp : s.phase = .busy q (.command h)) (hd : decodeHeader h = .ok i) :
    step s = exec i { s with inbox := es } := by
  rw [step_of_fcfTurn (.inr hi)]
  exact fcfMove_of_command hp hd

end Turn

theorem exec_emits {i : Instr} {s : State} {tx : Bytes} (ht : transactionOf s.request i = some tx)
    (ho : s.link.outstanding = none) : exec i s = .next (emit tx s) := by
  cases i with
  | wireRead | wireWrite | wireReadCrc | wireWriteCrc | wireSafeReadCrc =>
    cases ht
    exact exchange_emits ho
  | _ => cases ht

/-- `s` when the one Exchange of `tx` has been answered with `a`, in the command stage of header `h` of the request `q`,
with the events `es` to come. -/
def State.afterAnswer (s : State) (q : Request) (h : Half) (tx : Bytes) (a : Answer) (es : List Event) : State :=
  { s with
    phase := .busy q (.command h)
    status := { s.status with busy := true, done := false }
    link := { outstanding := some tx, reply := some a, sent := tx :: s.link.sent }
    inbox := es }

/-- A completion from there is one from `s` with the Exchange in the record. -/
theorem completedAs_afterAnswer (s : State) (q : Request) (h : Half) (tx : Bytes) (a : Answer) (es : List Event)
    (c : Completion) (o : Outputs) :
    CompletedAs c o (afterExchange tx es s) (complete c o (s.afterAnswer q h tx a es)) :=
  ⟨rfl, rfl, rfl, rfl, rfl, rfl, rfl, rfl, rfl, ⟨rfl, rfl, rfl, rfl, rfl, rfl, rfl, rfl, rfl, rfl, rfl⟩⟩

namespace ReadyFor

variable {s : State} {q : Request} {i : Instr} {tx : Bytes} (h : ReadyFor s q i tx)
include h

/-- The first three steps of the schedule: FCF issues the command, hands over the transaction, and the answer comes. -/
theorem run_to_answer (a : Answer) (es : List Event) :
    ∃ hd, decodeHeader hd = .ok i ∧
      core.run 4 (answeredWith a es s) = core.run 1 (s.afterAnswer q hd tx a (.fcf :: es)) := by
  obtain ⟨hp, ho, ⟨c, hc, hdec⟩, hx, ht⟩ := h
  obtain rfl : s.request = q := request_of_busy hp
  refine ⟨header c s.request.addr, hdec, ?_⟩
  calc core.run 4 (answeredWith a es s)
    _ = core.run 3 _ := run_succ 3 (step_issues rfl hp hc hx)
    _ = core.run 2 _ := run_succ 2 ((step_command rfl rfl hdec).trans (exec_emits ht ho))
    _ = core.run 1 _ := run_succ 1 (step_answer rfl rfl rfl)

/-- The fourth step ends the operation as the wire command ends on the answer. -/
theorem runsTo {a : Answer} {c : Completion} {o : Outputs}
    (hend : ∀ s' : State, s'.request = q → s'.link.outstanding = some tx → s'.link.reply = some a →
      exec i s' = .next (complete c o s')) : RunsTo s tx a c o := by
  intro es
  obtain ⟨hd, hdec, hrun⟩ := h.run_to_answer a es
  have hlast : step (s.afterAnswer q hd tx a (.fcf :: es)) = .next (complete c o (s.afterAnswer q hd tx a es)) :=
    (step_command rfl rfl hdec).trans (hend _ rfl rfl rfl)
  exact ⟨_, hrun.trans (run_succ 0 hlast), completedAs_afterAnswer s q hd tx a es c o⟩

theorem runsTo_replyError {a : Answer} {e : ErrorCode} (he : checkReply (lengthError i) tx a = .error e) :
    RunsTo s tx a (.error e) Outputs.noValue :=
  h.runsTo fun _ hq ho hr => exec_replyError ho (hq.symm ▸ h.transaction) hr he

theorem runsTo_transport : RunsTo s tx .err (.error (.busError .transport)) Outputs.noValue := h.runsTo_replyError rfl

theorem runsTo_wrongLength {rx : Bytes} (hlen : rx.length ≠ tx.length) :
    RunsTo s tx (.ok rx) (.error (lengthError i)) Outputs.noValue := h.runsTo_replyError (checkReply_wrongLength hlen)

theorem runsTo_write {a : Addr} {rx : Bytes} (hi : i = .wireWrite a ∨ i = .wireWriteCrc a) (hlen : rx.length = tx.length) :
    RunsTo s tx (.ok rx) .ok Outputs.noValue := h.runsTo fun _ _ ho hr => exec_write_ok ho hi hr hlen

end ReadyFor

theorem ReadyFor.runsTo_read {s : State} {q : Request} {a : Addr} {tx rx : Bytes} (h : ReadyFor s q (.wireRead a) tx)
    (hlen : rx.length = tx.length) :
    RunsTo s tx (.ok rx) .ok { dout := some { bytes := rx.drop 2, len := q.len }, fout := none, vout := none } := by
  have htx : tx.length = 2 + q.len.toNat := by
    cases h.transaction
    rw [plainRd, List.length_append, List.length_replicate]
    rfl
  exact h.runsTo fun s' hq ho hr => hq ▸ exec_wireRead_ok ho hr hlen (hq.symm ▸ htx)

/-- What a CRC-protected read makes of a response as long as tx: the CRC decides. -/
theorem ReadyFor.runsTo_crcRead {s : State} {q : Request} {i : Instr} {a : Addr} {tx data : Bytes}
    (h : ReadyFor s q i tx) (hread : i = .wireReadCrc a ∨ ∃ c, i = .wireSafeReadCrc c a) (x0 x1 x2 hi lo : Byte)
    (hdata : data.length = q.len.toNat) :
    (hi ++ lo ≠ crc16 (tx.take 3 ++ data) →
      RunsTo s tx (.ok ([x0, x1, x2] ++ data ++ [hi, lo])) (.error .integrityError) Outputs.noValue) ∧
    (hi ++ lo = crc16 (tx.take 3 ++ data) →
      RunsTo s tx (.ok ([x0, x1, x2] ++ data ++ [hi, lo])) .ok
        { dout := some { bytes := data, len := q.len }, fout := none, vout := none }) := by
  have hlen : ([x0, x1, x2] ++ data ++ [hi, lo]).length = tx.length := by
    have ht := h.transaction
    rcases hread with rfl | ⟨c, rfl⟩ <;> cases ht <;> simp [crcRd, be16, hdata]
  have hrx : ([x0, x1, x2] ++ data ++ [hi, lo]).drop 3 = data ++ [hi, lo] := rfl
  refine ⟨fun hcrc => h.runsTo fun s' hq ho hr => ?_, fun hcrc => h.runsTo fun s' hq ho hr => ?_⟩
  · exact exec_crcRead_mismatch ho hr hlen hread (hq.symm ▸ hdata) hrx hcrc
  · exact hq ▸ exec_crcRead_ok ho hr hlen hread (hq.symm ▸ hdata) hrx hcrc

/-! ## The five operations -/

theorem completes_violation {s : State} {q : Request} {i : Instr} {c : Cmd} {r : ContractReason} {st : Stage}
    (hp : s.phase = .busy q st) (hc : emittedBy s.params i = some c) (hx : contractCheck s.params i q = some r) :
    Completes i s (.error (.contractViolation r)) Outputs.noValue :=
  completes_of_exec (exec_violates hc ((request_of_busy hp).symm ▸ hx))

/-- CRC_RD written out. -/
theorem crcRd_eq_dummies (c : Cmd) (a : Addr) (n : Nat) :
    crcRd c a n = be16 (c ++ a) ++ [lengthField a n] ++ List.replicate n 0x00#8 ++ [0x00#8, 0x00#8] := by
  rw [crcRd, header_eq_append]
  rfl

/-- Settles O44: the contract check decides, and the run is the four steps of `ReadyFor.runsTo`. -/
theorem readRuns : Obligations.ReadRuns := by
  intro s q hp hop ho
  refine ⟨fun r hx => completes_violation hp rfl hx, fun hx tx htx => ?_⟩
  rw [← plainRd_eq] at htx
  have hready : ReadyFor s q (.wireRead q.addr) tx :=
    ⟨hp, ho, ⟨Config.cmdRead, hop.symm ▸ rfl, decodeHeader_read _⟩, hop.symm ▸ hx, htx ▸ rfl⟩
  exact ⟨hready.runsTo_transport,
    fun rx => ⟨fun hlen => hready.runsTo_wrongLength hlen, fun hlen => hready.runsTo_read hlen⟩⟩

/-- Settles O46: as READ, and the CRC decides on a response of the right length. -/
theorem readCrcRuns : Obligations.ReadCrcRuns := by
  intro s q hp hop ho
  refine ⟨fun r hx => completes_violation hp rfl hx, fun hx tx htx => ?_⟩
  rw [← crcRd_eq_dummies] at htx
  have hready : ReadyFor s q (.wireReadCrc q.addr) tx :=
    ⟨hp, ho, ⟨Config.cmdReadCrc, hop.symm ▸ rfl, decodeHeader_readCrc _⟩, hop.symm ▸ hx, htx ▸ rfl⟩
  exact ⟨hready.runsTo_transport, fun rx hlen => hready.runsTo_wrongLength hlen,
    fun x0 x1 x2 hi lo data hdata => hready.runsTo_crcRead (.inl rfl) x0 x1 x2 hi lo hdata⟩

/-- Settles O48: the command check, and then as READ_CRC with the code bound. -/
theorem safeReadCrcRuns : Obligations.SafeReadCrcRuns := by
  intro s q hp hop ho
  refine ⟨fun hunbound => completes_of_exec (by simp only [exec, execSafeReadCrc, hunbound]; rfl), fun c hc hsafe =>
    ⟨fun r hx => completes_violation hp hc hx, fun hx tx htx => ?_⟩⟩
  rw [← crcRd_eq_dummies] at htx
  have hready : ReadyFor s q (.wireSafeReadCrc c q.addr) tx :=
    ⟨hp, ho, ⟨c, hop.symm ▸ hc, decodeHeader_safeReadCrc hsafe _⟩, hop.symm ▸ hx, htx ▸ rfl⟩
  exact ⟨hready.runsTo_transport, fun rx hlen => hready.runsTo_wrongLength hlen,
    fun x0 x1 x2 hi lo data hdata => hready.runsTo_crcRead (.inr ⟨c, rfl⟩) x0 x1 x2 hi lo hdata⟩

/-- Settles O45: BUF_RANGE first, and the data sent is the slice of DIN. -/
theorem writeRuns : Obligations.WriteRuns := by
  intro s q hp hop ho
  refine ⟨fun hover => completes_violation hp rfl (checkWrite_of_over hover), fun hfits =>
    ⟨fun r hx => completes_violation hp rfl ((checkWrite_of_fits hfits).trans hx), fun hx =>
      ⟨q.data, q.data_isSlice, fun tx htx => ?_⟩⟩⟩
  rw [← plainWr_eq] at htx
  have hready : ReadyFor s q (.wireWrite q.addr) tx :=
    ⟨hp, ho, ⟨Config.cmdWrite, hop.symm ▸ rfl, decodeHeader_write _⟩, hop.symm ▸ (checkWrite_of_fits hfits).trans hx,
      htx ▸ rfl⟩
  exact ⟨hready.runsTo_transport,
    fun rx => ⟨fun hlen => hready.runsTo_wrongLength hlen, fun hlen => hready.runsTo_write (.inl rfl) hlen⟩⟩

/-- Settles O47: as WRITE, and the CRC sent is that of the header, N and the data. -/
theorem writeCrcRuns : Obligations.WriteCrcRuns := by
  intro s q hp hop ho
  refine ⟨fun hover => completes_violation hp rfl (checkWrite_of_over hover), fun hfits =>
    ⟨fun r hx => completes_violation hp rfl ((checkWrite_of_fits hfits).trans hx), fun hx =>
      ⟨q.data, q.data_isSlice, fun pre tx hpre htx => ?_⟩⟩⟩
  have hbody : pre = crcWrBody q.addr q.data := by rw [hpre, crcWrBody_eq, q.data_isSlice.length]
  have hready : ReadyFor s q (.wireWriteCrc q.addr) tx :=
    ⟨hp, ho, ⟨Config.cmdWriteCrc, hop.symm ▸ rfl, decodeHeader_writeCrc _⟩, hop.symm ▸ (checkWrite_of_fits hfits).trans hx,
      by rw [htx, hbody]; rfl⟩
  exact ⟨hready.runsTo_transport,
    fun rx => ⟨fun hlen => hready.runsTo_wrongLength hlen, fun hlen => hready.runsTo_write (.inr rfl) hlen⟩⟩

end Sys2Proof.Machine
end

section
/-! PROOFS. The identifier word T0 (R183, R184): its fields, and UnpackId as the inverse of PackId. -/

namespace Sys2Proof.Machine

theorem append_eq_append_iff {v w : Nat} {x x' : BitVec v} {y y' : BitVec w} :
    x ++ y = x' ++ y' ↔ x = x' ∧ y = y' := by
  refine ⟨fun h => ?_, fun ⟨hx, hy⟩ => by rw [hx, hy]⟩
  have hleft : (x ++ y).extractLsb' w v = (x' ++ y').extractLsb' w v := by rw [h]
  have hright : (x ++ y).extractLsb' 0 w = (x' ++ y').extractLsb' 0 w := by rw [h]
  rw [BitVec.extractLsb'_append_eq_left, BitVec.extractLsb'_append_eq_left] at hleft
  rw [BitVec.extractLsb'_append_eq_right, BitVec.extractLsb'_append_eq_right] at hright
  exact ⟨hleft, hright⟩

/-! ## The fields of T0 -/

theorem packId_std (id : BitVec 29) : packId .std id = 0#21 ++ id.extractLsb' 0 11 :=
  BitVec.setWidth_eq_append (by decide)

theorem packId_ext (id : BitVec 29) : packId .ext id = 0#3 ++ (id.extractLsb' 0 18 ++ id.extractLsb' 18 11) := by
  rw [packId, BitVec.or_comm, ← BitVec.setWidth_append_eq_shiftLeft_setWidth_or]
  exact BitVec.setWidth_eq_append (by decide)

theorem unpackId_ext (t0 : Word) : unpackId .ext t0 = t0.extractLsb' 0 11 ++ t0.extractLsb' 11 18 :=
  BitVec.setWidth_append_eq_shiftLeft_setWidth_or.symm.trans (BitVec.setWidth_eq _)

/-- T0[28:0] is EID over SID. -/
theorem eid_append_sid (t0 : Word) : t0.extractLsb' 11 18 ++ t0.extractLsb' 0 11 = t0.extractLsb' 0 29 :=
  BitVec.extractLsb'_append_extractLsb'_eq_extractLsb' rfl

/-- T0 is made of the bits 31:29, EID and SID. -/
theorem word_of_idFields (t0 : Word) :
    t0.extractLsb' 29 3 ++ (t0.extractLsb' 11 18 ++ t0.extractLsb' 0 11) = t0 := by
  rw [eid_append_sid]
  exact BitVec.extractLsb'_append_extractLsb' (w := 3) (len := 29) (x := t0)

/-- Settles O25, by the fields of each kind. -/
theorem identifierPacking : Obligations.IdentifierPacking := by
  intro id
  rw [packId_std, packId_ext]
  refine ⟨⟨BitVec.extractLsb'_append_eq_right, BitVec.extractLsb'_append_eq_left⟩, ?_, ?_,
    BitVec.extractLsb'_append_eq_left⟩
  · rw [BitVec.extractLsb'_append_eq_of_add_le (by decide), BitVec.extractLsb'_append_eq_right]
  · rw [BitVec.extractLsb'_append_eq_of_add_le (by decide), BitVec.extractLsb'_append_eq_left]

/-! ## UnpackId -/

/-- The identifier of a standard frame has 11 bits. -/
theorem unpackId_std_toNat (t0 : Word) : (unpackId .std t0).toNat = (t0.extractLsb' 0 11).toNat :=
  BitVec.toNat_setWidth_of_le (by decide)

theorem unpackId_packId_std {id : BitVec 29} (h : id.toNat < 2048) : unpackId .std (packId .std id) = id := by
  obtain ⟨⟨hsid, -⟩, -⟩ := identifierPacking id
  apply BitVec.eq_of_toNat_eq
  rw [unpackId_std_toNat, hsid, BitVec.extractLsb'_toNat, Nat.shiftRight_zero, Nat.mod_eq_of_lt h]

theorem unpackId_packId_ext (id : BitVec 29) : unpackId .ext (packId .ext id) = id := by
  obtain ⟨-, hsid, heid, -⟩ := identifierPacking id
  rw [unpackId_ext, hsid, heid]
  exact BitVec.extractLsb'_append_extractLsb' (w := 11) (len := 18) (x := id)

theorem unpackId_packId {k : Kind} {id : BitVec 29} (h : k = .ext ∨ id.toNat < 2048) : unpackId k (packId k id) = id := by
  cases k with
  | std => exact unpackId_packId_std (h.resolve_left (by simp))
  | ext => exact unpackId_packId_ext id

/-- Settles O26: each kind's identifier is put together again from SID and EID, and no other bit of T0 is used. -/
theorem unpackIdInvertsPackId : Obligations.UnpackIdInvertsPackId := by
  refine ⟨fun id => unpackId_packId_std, unpackId_packId_ext, fun t0 t0' h => ?_, fun t0 t0' h => ?_⟩
  · rw [unpackId, unpackId, h]
  · rw [← eid_append_sid, ← eid_append_sid, append_eq_append_iff] at h
    obtain ⟨heid, hsid⟩ := h
    rw [unpackId_ext, unpackId_ext, heid, hsid]

/-- PackId gives back the T0 an identifier was found in exactly when the bits UnpackId ignored are 0. -/
theorem packId_unpackId_eq_iff {k : Kind} {t0 : Word} :
    packId k (unpackId k t0) = t0 ↔ t0.extractLsb' 29 3 = 0#3 ∧ (k = .std → t0.extractLsb' 11 18 = 0#18) := by
  cases k with
  | std =>
    have hpack : packId .std (unpackId .std t0) = 0#3 ++ (0#18 ++ t0.extractLsb' 0 11) := by
      rw [packId_std, unpackId, BitVec.extractLsb'_setWidth_of_le (by decide), BitVec.extractLsb'_eq_self]
      exact BitVec.append_assoc (x₁ := 0#3) (x₂ := 0#18)
    calc packId .std (unpackId .std t0) = t0
      _ ↔ 0#3 ++ (0#18 ++ t0.extractLsb' 0 11) =
          t0.extractLsb' 29 3 ++ (t0.extractLsb' 11 18 ++ t0.extractLsb' 0 11) := by rw [hpack, word_of_idFields]
      _ ↔ _ := append_eq_append_iff.trans (and_congr eq_comm (append_eq_append_iff.trans (by simp [eq_comm])))
  | ext =>
    have hpack : packId .ext (unpackId .ext t0) = 0#3 ++ (t0.extractLsb' 11 18 ++ t0.extractLsb' 0 11) := by
      rw [packId_ext, unpackId_ext, BitVec.extractLsb'_append_eq_right, BitVec.extractLsb'_append_eq_left]
    calc packId .ext (unpackId .ext t0) = t0
      _ ↔ 0#3 ++ (t0.extractLsb' 11 18 ++ t0.extractLsb' 0 11) =
          t0.extractLsb' 29 3 ++ (t0.extractLsb' 11 18 ++ t0.extractLsb' 0 11) := by rw [hpack, word_of_idFields]
      _ ↔ _ := append_eq_append_iff.trans (by simp [eq_comm])

end Sys2Proof.Machine
end

section
/-! PROOFS. The control word T1 (R185, R93): its fields, and UnpackCtl as the inverse of PackCtl. -/

namespace Sys2Proof.Machine

/-! ## The fields of T1 -/

theorem extractLsb'_eq_iff {w w' : Word} {start len : Nat} :
    w.extractLsb' start len = w'.extractLsb' start len ↔ ∀ i < len, w.getLsbD (start + i) = w'.getLsbD (start + i) := by
  refine ⟨fun h i hi => ?_, fun h => ?_⟩
  · simpa [hi] using congrArg (·.getLsbD i) h
  · ext i hi
    simpa using h i hi

/-- A flag has its bit at its place and no other. -/
theorem getLsbD_flagAt (b : Bool) (k : Nat) {i : Nat} (hi : i < 32) : (flagAt b k).getLsbD i = (decide (i = k) && b) := by
  rw [flagAt, BitVec.getLsbD_shiftLeft, BitVec.getLsbD_setWidth, BitVec.getLsbD_ofBool]
  rcases lt_trichotomy i k with hlt | rfl | hgt
  · simp [hlt, hlt.ne]
  · simp [hi]
  · simp [hgt.ne', Nat.sub_ne_zero_of_lt hgt]

/-- The bits of T1: the code, and each flag at its place. -/
theorem getLsbD_packCtl (h : FrameHeader) {i : Nat} (hi : i < 32) :
    (packCtl h).getLsbD i = (h.dlc.getLsbD i || decide (i = 4) && h.kind.bit || decide (i = 5) && h.rtr ||
      decide (i = 6) && h.brs || decide (i = 7) && h.fdf || decide (i = 8) && h.esi) := by
  simp only [packCtl, BitVec.getLsbD_or, BitVec.getLsbD_setWidth, getLsbD_flagAt _ _ hi, hi, decide_true, Bool.true_and]

/-- T1[8:0] holds the fields of the header (R185). -/
structure CtlFields (w : Word) (h : FrameHeader) : Prop where
  dlc : w.extractLsb' 0 4 = h.dlc
  kind : w.getLsbD 4 = h.kind.bit
  rtr : w.getLsbD 5 = h.rtr
  brs : w.getLsbD 6 = h.brs
  fdf : w.getLsbD 7 = h.fdf
  esi : w.getLsbD 8 = h.esi

theorem packCtl_ctlFields (h : FrameHeader) : CtlFields (packCtl h) h := by
  have hdlc : ∀ i, 4 ≤ i → h.dlc.getLsbD i = false := fun i hi => BitVec.getLsbD_of_ge _ _ hi
  constructor
  case dlc =>
    ext i hi
    have hflag : ∀ k, 4 ≤ k → i ≠ k := by omega
    rw [BitVec.getElem_extractLsb', getLsbD_packCtl h (by omega)]
    simp [BitVec.getLsbD_eq_getElem hi, hflag]
  all_goals
    rw [getLsbD_packCtl h (by decide), hdlc _ (by decide)]
    simp

theorem packCtl_unused (h : FrameHeader) : (packCtl h).extractLsb' 9 23 = 0#23 := by
  ext i hi
  have hflag : ∀ k, k < 9 → 9 + i ≠ k := by omega
  have hdlc : h.dlc.getLsbD (9 + i) = false := BitVec.getLsbD_of_ge _ _ (by omega)
  rw [BitVec.getElem_extractLsb', getLsbD_packCtl h (by omega), hdlc]
  simp [hflag]

/-- T1[8:0] is all the fields. -/
theorem ctlFields_iff {t1 : Word} {h : FrameHeader} :
    CtlFields t1 h ↔ t1.extractLsb' 0 9 = (packCtl h).extractLsb' 0 9 := by
  have hpack := packCtl_ctlFields h
  rw [extractLsb'_eq_iff]
  simp only [Nat.zero_add]
  constructor
  · intro hf i hi
    by_cases hlow : i < 4
    · simpa using extractLsb'_eq_iff.1 (hf.dlc.trans hpack.dlc.symm) i hlow
    · interval_cases i
      · rw [hf.kind, hpack.kind]
      · rw [hf.rtr, hpack.rtr]
      · rw [hf.brs, hpack.brs]
      · rw [hf.fdf, hpack.fdf]
      · rw [hf.esi, hpack.esi]
  · intro heq
    have hdlc : t1.extractLsb' 0 4 = (packCtl h).extractLsb' 0 4 :=
      extractLsb'_eq_iff.2 fun i hi => by simpa using heq i (by omega)
    constructor
    · rw [hdlc, hpack.dlc]
    · rw [heq 4 (by decide), hpack.kind]
    · rw [heq 5 (by decide), hpack.rtr]
    · rw [heq 6 (by decide), hpack.brs]
    · rw [heq 7 (by decide), hpack.fdf]
    · rw [heq 8 (by decide), hpack.esi]

/-! ## UnpackCtl -/

theorem Kind.bit_eq_true {k : Kind} : k.bit = true ↔ k = .ext := by cases k <;> simp [Kind.bit]

@[simp] theorem Kind.ofBit_bit (k : Kind) : Kind.ofBit k.bit = k := by cases k <;> rfl

@[simp] theorem Kind.bit_ofBit (b : Bool) : (Kind.ofBit b).bit = b := by cases b <;> rfl

theorem Kind.ofBit_eq_std {b : Bool} : Kind.ofBit b = .std ↔ b = false := by cases b <;> simp [Kind.ofBit]

theorem unpackHeader_of_ctlFields {t1 : Word} {h : FrameHeader} (hf : CtlFields t1 h) (t0 : Word) :
    unpackHeader t0 t1 = { h with id := unpackId h.kind t0 } := by
  simp only [unpackHeader, hf.dlc, hf.kind, hf.rtr, hf.brs, hf.fdf, hf.esi, Kind.ofBit_bit]

theorem ctlFields_unpackHeader (t0 t1 : Word) : CtlFields t1 (unpackHeader t0 t1) :=
  ⟨rfl, Kind.bit_ofBit _ |>.symm, rfl, rfl, rfl, rfl⟩

/-- PackCtl gives back the T1 a header was found in exactly when the bits UnpackCtl ignored are 0. -/
theorem packCtl_eq_iff {t1 : Word} {h : FrameHeader} (hf : CtlFields t1 h) :
    packCtl h = t1 ↔ t1.extractLsb' 9 23 = 0#23 := by
  have hsplit (w : Word) : w.extractLsb' 9 23 ++ w.extractLsb' 0 9 = w :=
    BitVec.extractLsb'_append_extractLsb' (w := 23) (len := 9)
  refine ⟨fun heq => heq ▸ packCtl_unused h, fun hunused => ?_⟩
  rw [← hsplit t1, ctlFields_iff.1 hf, hunused, ← packCtl_unused h]
  exact (hsplit _).symm

/-- Settles O27: a header is what `CtlFields` says of T1[8:0], and PackCtl writes those bits and 0 above them. -/
theorem controlWordPacking : Obligations.ControlWordPacking := by
  refine ⟨fun h => ?_, fun h t0 => unpackHeader_of_ctlFields (packCtl_ctlFields h) t0, fun t0 t1 t1' heq => ?_⟩
  · obtain ⟨hdlc, hkind, hrtr, hbrs, hfdf, hesi⟩ := packCtl_ctlFields h
    exact ⟨hdlc, hkind ▸ Kind.bit_eq_true, hrtr, hbrs, hfdf, hesi, packCtl_unused h⟩
  · have hf : CtlFields t1 (unpackHeader t0 t1') :=
      ctlFields_iff.2 (heq.trans (ctlFields_iff.1 (ctlFields_unpackHeader t0 t1')))
    exact unpackHeader_of_ctlFields hf t0

end Sys2Proof.Machine
end

section
/-! PROOFS. The frame checks and the data-length-code table (R180, R181, R182). -/

namespace Sys2Proof.Machine

/-! ## CheckFrame -/

section Checks

variable {h : FrameHeader}

theorem checkFrame_of_stdIdRange (hid : h.kind = .std ∧ 2048 ≤ h.id.toNat) : checkFrame h = some .stdIdRange := if_pos hid

variable (hid : ¬(h.kind = .std ∧ 2048 ≤ h.id.toNat))
include hid

/-- An FD frame with its identifier in range has one check left, RTR. -/
theorem checkFrame_of_fd (hfdf : h.fdf = true) : checkFrame h = if h.rtr then some .rtrWithFdf else none := by
  simp [checkFrame, hid, hfdf]

/-- A classic frame with its identifier in range has two checks left, BRS or ESI and then the code. -/
theorem checkFrame_of_classic (hfdf : h.fdf = false) :
    checkFrame h = if h.brs ∨ h.esi then some .classicBrsEsi else if 8 < h.dlc.toNat then some .classicDlcGt8 else none := by
  simp [checkFrame, hid, hfdf]

end Checks

/-- Settles O24: the identifier first, then the flags and the code as FDF has it. -/
theorem frameChecksInOrder : Obligations.FrameChecksInOrder := by
  intro h
  have hpass : h.kind = .ext ∨ h.id.toNat < 2048 ↔ ¬(h.kind = .std ∧ 2048 ≤ h.id.toNat) := by
    cases h.kind <;> simp
  rw [hpass]
  by_cases hid : h.kind = .std ∧ 2048 ≤ h.id.toNat
  · simp [checkFrame_of_stdIdRange hid, hid]
  · cases hfdf : h.fdf with
    | true => cases hrtr : h.rtr <;> simp [checkFrame_of_fd hid hfdf, hid, hrtr]
    | false => cases hbrs : h.brs <;> cases hesi : h.esi <;> simp [checkFrame_of_classic hid hfdf, hid, hbrs, hesi]

theorem checkFrame_eq_none {h : FrameHeader} : checkFrame h = none ↔
    (h.kind = .ext ∨ h.id.toNat < 2048) ∧ (h.fdf = true → h.rtr = false) ∧
      (h.fdf = false → h.brs = false ∧ h.esi = false ∧ h.dlc.toNat ≤ 8) := by
  obtain ⟨-, -, -, -, hnone⟩ := frameChecksInOrder h
  exact hnone

/-! ## DLC_TO_LEN -/

theorem dlcLen_eq_table (dlc : BitVec 4) :
    dlcLen dlc = ([0, 1, 2, 3, 4, 5, 6, 7, 8, 12, 16, 20, 24, 32, 48, 64] : List Nat).getD dlc.toNat 0 := by
  revert dlc; decide

/-- Settles O23: the operation completes with `DLC_LEN`, which is the table. -/
theorem dlcToLenLooksUpTheTable : Obligations.DlcToLenLooksUpTheTable := by
  refine ⟨rfl, fun s => ?_⟩
  rw [← dlcLen_eq_table]
  exact completes_of_exec rfl

end Sys2Proof.Machine
end

section
/-! PROOFS. The frame image (R188) and the frame DECODE finds in a byte string (R190). -/

namespace Sys2Proof.Machine

open Sys2Proof

/-! ## The two words of the header (R8) -/

theorem fromLe32_of_bytes (w : Word) :
    fromLe32 (w.extractLsb' 0 8) (w.extractLsb' 8 8) (w.extractLsb' 16 8) (w.extractLsb' 24 8) = w := by
  have h2 : w.extractLsb' 24 8 ++ w.extractLsb' 16 8 = w.extractLsb' 16 16 :=
    BitVec.extractLsb'_append_extractLsb'_eq_extractLsb' rfl
  have h1 : w.extractLsb' 16 16 ++ w.extractLsb' 8 8 = w.extractLsb' 8 24 :=
    BitVec.extractLsb'_append_extractLsb'_eq_extractLsb' rfl
  rw [fromLe32, h2, h1]
  exact BitVec.extractLsb'_append_extractLsb' (w := 24) (len := 8) (x := w)

theorem le32_fromLe32 (b0 b1 b2 b3 : Byte) : le32 (fromLe32 b0 b1 b2 b3) = [b0, b1, b2, b3] := by
  have hbytes := fromLe32_of_bytes (fromLe32 b0 b1 b2 b3)
  rw [fromLe32, fromLe32] at hbytes
  obtain ⟨hbytes, h0⟩ := append_eq_append_iff.1 hbytes
  obtain ⟨hbytes, h1⟩ := append_eq_append_iff.1 hbytes
  obtain ⟨h3, h2⟩ := append_eq_append_iff.1 hbytes
  rw [le32, fromLe32, h0, h1, h2, h3]

theorem le32_injective {w w' : Word} (h : le32 w = le32 w') : w = w' := by
  simp only [le32, List.cons.injEq, and_true] at h
  obtain ⟨h0, h1, h2, h3⟩ := h
  rw [← fromLe32_of_bytes w, h0, h1, h2, h3, fromLe32_of_bytes]

theorem words_append_inj {w0 w1 w0' w1' : Word} {p : Bytes} :
    le32 w0 ++ le32 w1 ++ p = le32 w0' ++ le32 w1' ++ p ↔ w0 = w0' ∧ w1 = w1' := by
  refine ⟨fun h => ?_, fun ⟨h0, h1⟩ => by rw [h0, h1]⟩
  obtain ⟨h0, h1⟩ := List.append_inj (List.append_cancel_right h) rfl
  exact ⟨le32_injective h0, le32_injective h1⟩

/-! ## The payload (R188) -/

theorem normalizePayload_getElem? (p : Bytes) {n j : Nat} (hj : j < n) :
    (normalizePayload p n)[j]? = some ((p[j]?).getD 0x00#8) := by
  unfold normalizePayload
  split
  · rw [List.getElem?_take_of_lt hj, List.getElem?_eq_getElem (by omega)]
    rfl
  · by_cases hp : j < p.length
    · rw [List.getElem?_append_left hp, List.getElem?_eq_getElem hp]
      rfl
    · rw [List.getElem?_append_right (by omega), List.getElem?_replicate_of_lt (by omega), List.getElem?_eq_none (by omega)]
      rfl

theorem normalizePayload_of_length {p : Bytes} {n : Nat} (h : p.length = n) : normalizePayload p n = p := by
  simp [normalizePayload, ← h]

/-- Only the first `n` bytes are used. -/
theorem normalizePayload_congr {p p' : Bytes} {n : Nat} (h : ∀ j < n, p'[j]? = p[j]?) :
    normalizePayload p' n = normalizePayload p n := by
  refine List.ext_getElem? fun j => ?_
  by_cases hj : j < n
  · rw [normalizePayload_getElem? p' hj, normalizePayload_getElem? p hj, h j hj]
  · rw [List.getElem?_eq_none (by rw [normalizePayload_length]; omega),
      List.getElem?_eq_none (by rw [normalizePayload_length]; omega)]

theorem frameImage_of_length {h : FrameHeader} {p : Bytes} (hp : p.length = dlcLen h.dlc) :
    frameImage h p = le32 (packId h.kind h.id) ++ le32 (packCtl h) ++ p := by
  rw [frameImage, normalizePayload_of_length hp]

/-- The length of an image fits in DOUT_LEN. -/
theorem frameImage_length_lt (h : FrameHeader) (p : Bytes) : (frameImage h p).length < 2 ^ 16 := by
  have hdlc := dlcLen_le h.dlc
  simp only [Config.maxPayload] at hdlc
  rw [frameImage_length, Config.hdrBytes]
  omega

/-! ## DECODE of a byte string -/

theorem decodeImage_tooShort {b : Bytes} (h : b.length < 8) : decodeImage b = .error .tooShort := by
  unfold decodeImage
  split
  · simp at h
    omega
  · rfl

theorem decodeImage_of_words (t0 t1 : Word) (p : Bytes) :
    decodeImage (le32 t0 ++ le32 t1 ++ p) = unpackFrame t0 t1 p := by
  simp only [le32, List.cons_append, List.nil_append, decodeImage, fromLe32_of_bytes]

/-- The frame of a header and the bytes after it. -/
def frameOf (t0 t1 : Word) (p : Bytes) : FoutReg :=
  { hdr := unpackHeader t0 t1, payload := p, plen := BitVec.ofNat 7 p.length }

section Unpack

variable {t0 t1 : Word} {p : Bytes}

theorem unpackFrame_of_sid11 (h : t0.getLsbD 29 = true) : unpackFrame t0 t1 p = .error .sid11Set := if_pos h

variable (hsid : t0.getLsbD 29 = false)
include hsid

theorem unpackFrame_of_check {r : FrameReason} (h : checkFrame (unpackHeader t0 t1) = some r) :
    unpackFrame t0 t1 p = .error r := by
  simp only [unpackFrame, hsid, h, Bool.false_eq_true, if_false]

variable (hcheck : checkFrame (unpackHeader t0 t1) = none)
include hcheck

theorem unpackFrame_of_length_ne (h : p.length ≠ dlcLen (unpackHeader t0 t1).dlc) :
    unpackFrame t0 t1 p = .error .length := by
  simp only [unpackFrame, hsid, hcheck, h, Bool.false_eq_true, if_false]

theorem unpackFrame_of_length_eq (h : p.length = dlcLen (unpackHeader t0 t1).dlc) :
    unpackFrame t0 t1 p = .ok (frameOf t0 t1 p) := by
  simp only [unpackFrame, hsid, hcheck, h, Bool.false_eq_true, if_false, if_true, frameOf]

end Unpack

/-- What DECODE finds is the frame of the two words, with the bytes after them. -/
theorem frame_of_unpackFrame {t0 t1 : Word} {p : Bytes} {f : FoutReg} (h : unpackFrame t0 t1 p = .ok f) :
    f = frameOf t0 t1 p := by
  unfold unpackFrame at h
  split at h
  · cases h
  · split at h
    · cases h
    · split at h
      · cases h
        rfl
      · cases h

/-! ## The round trip (R192) -/

/-- T0 of a valid frame has bit 29 clear. -/
theorem packId_sid11 {k : Kind} {id : BitVec 29} (h : k = .ext ∨ id.toNat < 2048) : (packId k id).getLsbD 29 = false := by
  obtain ⟨hunused, -⟩ := packId_unpackId_eq_iff.1 (congrArg (packId k) (unpackId_packId h))
  simpa using congrArg (·.getLsbD 0) hunused

theorem unpackHeader_of_packed {h : FrameHeader} (hcheck : checkFrame h = none) :
    unpackHeader (packId h.kind h.id) (packCtl h) = h := by
  obtain ⟨hid, -⟩ := checkFrame_eq_none.1 hcheck
  rw [unpackHeader_of_ctlFields (packCtl_ctlFields h), unpackId_packId hid]

theorem decodeImage_frameImage {h : FrameHeader} {p : Bytes} (hcheck : checkFrame h = none)
    (hp : p.length = dlcLen h.dlc) :
    decodeImage (frameImage h p) = .ok { hdr := h, payload := p, plen := BitVec.ofNat 7 p.length } := by
  obtain ⟨hid, -⟩ := checkFrame_eq_none.1 hcheck
  have hhdr := unpackHeader_of_packed hcheck
  rw [frameImage_of_length hp, decodeImage_of_words, unpackFrame_of_length_eq (packId_sid11 hid), frameOf, hhdr]
  · rw [hhdr, hcheck]
  · rw [hhdr, hp]

end Sys2Proof.Machine
end

section
/-! PROOFS. ENCODE and DECODE (R189, R190): how each ends, and the laws of the two (R192, R193, R196). -/

namespace Sys2Proof.Machine

open Sys2Proof

/-! ## ENCODE -/

section Encode

variable {s : State}

theorem exec_frameEncode_over (h : 64 < s.request.fin.plen.toNat) :
    exec .frameEncode s = .next (complete (.error (.contractViolation .bufRange)) Outputs.noValue s) := if_pos h

variable (hfits : s.request.fin.plen.toNat ≤ 64)
include hfits

theorem exec_frameEncode_invalid {r : FrameReason} (h : checkFrame s.request.fin.hdr = some r) :
    exec .frameEncode s = .next (complete (.error (.invalidFrame r)) Outputs.noValue s) :=
  (if_neg (Nat.not_lt.2 hfits)).trans (by rw [h]; rfl)

theorem exec_frameEncode_ok (h : checkFrame s.request.fin.hdr = none) :
    exec .frameEncode s = .next (complete .ok (.ofDout (frameImage s.request.fin.hdr s.request.payload)) s) :=
  (if_neg (Nat.not_lt.2 hfits)).trans (by rw [h]; rfl)

end Encode

/-- Settles O28: PLEN, then the frame checks, decide; the payload in the image is the normalized one. -/
theorem encodeGivesTheFrameImage : Obligations.EncodeGivesTheFrameImage := by
  refine ⟨rfl, fun s => ⟨fun hover => ?_, fun hfits r hcheck => ?_, fun hfits hcheck => ?_⟩⟩
  · exact completes_of_exec (exec_frameEncode_over hover)
  · exact completes_of_exec (exec_frameEncode_invalid hfits hcheck)
  · refine ⟨s.request.payload, _, _, _, s.request.payload_isSlice, rfl, rfl, normalizePayload_length _ _,
      fun j hj => normalizePayload_getElem? _ hj, completes_of_exec ?_⟩
    rw [exec_frameEncode_ok hfits hcheck, Outputs.ofDout, frameImage_length]
    rfl

/-! ## DECODE -/

section Decode

variable {s : State}

theorem exec_frameDecode_over (h : s.params.bufBytes < s.request.dinLen.toNat) :
    exec .frameDecode s = .next (complete (.error (.contractViolation .bufRange)) Outputs.noValue s) := if_pos h

variable (hfits : s.request.dinLen.toNat ≤ s.params.bufBytes)
include hfits

theorem exec_frameDecode_error {r : FrameReason} (h : decodeImage s.request.data = .error r) :
    exec .frameDecode s = .next (complete (.error (.invalidFrame r)) Outputs.noValue s) :=
  (if_neg (Nat.not_lt.2 hfits)).trans (by rw [h]; rfl)

theorem exec_frameDecode_ok {f : FoutReg} (h : decodeImage s.request.data = .ok f) :
    exec .frameDecode s = .next (complete .ok (.ofFout f) s) :=
  (if_neg (Nat.not_lt.2 hfits)).trans (by rw [h]; rfl)

end Decode

/-- Settles O29: DIN_LEN decides, and then what DECODE finds in the slice of DIN. -/
theorem decodeGivesTheFrame : Obligations.DecodeGivesTheFrame := by
  refine ⟨rfl, fun s => ⟨fun hover => completes_of_exec (exec_frameDecode_over hover), fun hfits =>
    ⟨s.request.data, s.request.data_isSlice, fun hshort => ?_, ?_⟩⟩⟩
  · exact completes_of_exec (exec_frameDecode_error hfits (decodeImage_tooShort hshort))
  · rintro b0 b1 b2 b3 b4 b5 b6 b7 p hb t0 t1 rfl rfl
    have hdec : decodeImage s.request.data = unpackFrame (b3 ++ b2 ++ b1 ++ b0) (b7 ++ b6 ++ b5 ++ b4) p := by
      rw [hb]
      rfl
    refine ⟨fun hsid => ?_, fun hsid r hcheck => ?_, fun hsid hcheck hlen => ?_, fun hsid hcheck hlen => ?_⟩
    · exact completes_of_exec (exec_frameDecode_error hfits (hdec.trans (unpackFrame_of_sid11 hsid)))
    · exact completes_of_exec (exec_frameDecode_error hfits (hdec.trans (unpackFrame_of_check hsid hcheck)))
    · exact completes_of_exec (exec_frameDecode_error hfits (hdec.trans (unpackFrame_of_length_ne hsid hcheck hlen)))
    · rw [← hlen]
      exact completes_of_exec (exec_frameDecode_ok hfits (hdec.trans (unpackFrame_of_length_eq hsid hcheck hlen)))

/-- The identifier of a standard frame unpacked from T0 has 11 bits, so it is in range (R182, R184). -/
theorem checkFrame_unpackHeader_ne_stdIdRange (t0 t1 : Word) : checkFrame (unpackHeader t0 t1) ≠ some .stdIdRange := by
  intro h
  obtain ⟨hrange, -⟩ := frameChecksInOrder (unpackHeader t0 t1)
  obtain ⟨hkind, hid⟩ := hrange.1 h
  have hstd : (unpackHeader t0 t1).id = unpackId .std t0 := congrArg (unpackId · t0) hkind
  rw [hstd, unpackId_std_toNat] at hid
  exact absurd (t0.extractLsb' 0 11).isLt (Nat.not_lt.2 hid)

theorem unpackFrame_ne_stdIdRange (t0 t1 : Word) (p : Bytes) : unpackFrame t0 t1 p ≠ .error .stdIdRange := by
  cases hsid : t0.getLsbD 29 with
  | true => simp [unpackFrame_of_sid11 hsid]
  | false =>
    cases hcheck : checkFrame (unpackHeader t0 t1) with
    | some r =>
      rw [unpackFrame_of_check hsid hcheck]
      rintro ⟨⟩
      exact checkFrame_unpackHeader_ne_stdIdRange t0 t1 hcheck
    | none =>
      by_cases hlen : p.length = dlcLen (unpackHeader t0 t1).dlc
      · simp [unpackFrame_of_length_eq hsid hcheck hlen]
      · simp [unpackFrame_of_length_ne hsid hcheck hlen]

theorem decodeImage_ne_stdIdRange (b : Bytes) : decodeImage b ≠ .error .stdIdRange := by
  unfold decodeImage
  split
  · exact unpackFrame_ne_stdIdRange _ _ _
  · simp

/-- Settles O30: no byte string decodes to that reason. -/
theorem decodeNeverReportsStdIdRange : Obligations.DecodeNeverReportsStdIdRange := by
  intro s t h hlast
  rcases Nat.lt_or_ge s.params.bufBytes s.request.dinLen.toNat with hover | hfits
  · rw [exec_frameDecode_over hover] at h
    cases h
    cases hlast
  · cases hdec : decodeImage s.request.data with
    | ok f =>
      rw [exec_frameDecode_ok hfits hdec] at h
      cases h
      cases hlast
    | error r =>
      rw [exec_frameDecode_error hfits hdec] at h
      cases h
      cases hlast
      exact decodeImage_ne_stdIdRange _ hdec

/-! ## The laws -/

/-- Settles O31: DOUT is the image of the frame, and DECODE of an image finds its frame. -/
theorem decodeOfEncodeIsTheFrame : Obligations.DecodeOfEncodeIsTheFrame := by
  intro s p hfits hcheck hbytes hlen
  have hpayload : s.request.payload = p := Request.payload_of_bytes hbytes
  have hplen : BitVec.ofNat 7 p.length = s.request.fin.plen := by
    rw [Memory.bytes_length hbytes, BitVec.ofNat_toNat, BitVec.setWidth_eq]
  refine ⟨_, _, exec_frameEncode_ok hfits hcheck, rfl, rfl, ?_, fun u _ hdin hu => ?_⟩
  · exact (BitVec.toNat_ofNat ..).trans (Nat.mod_eq_of_lt (frameImage_length_lt _ _))
  · have hdec : decodeImage u.request.data =
        .ok { hdr := s.request.fin.hdr, payload := p, plen := s.request.fin.plen } := by
      rw [Request.data_of_bytes hdin, hpayload, decodeImage_frameImage hcheck hlen, hplen]
    exact ⟨_, exec_frameDecode_ok hu hdec, rfl, rfl⟩

/-- Settles O32: with its payload as long as the table has it, the image is the two words packed again, and each is the word it
was unpacked from exactly when the bits ignored in it are 0. -/
theorem encodeOfDecodeIsTheCanonicalImage : Obligations.EncodeOfDecodeIsTheCanonicalImage := by
  rintro b0 b1 b2 b3 b4 b5 b6 b7 p f t0 t1 ht0 ht1 hdec
  have hbytes : b0 :: b1 :: b2 :: b3 :: b4 :: b5 :: b6 :: b7 :: p = le32 t0 ++ le32 t1 ++ p := by
    rw [ht0, ht1, ← fromLe32, ← fromLe32, le32_fromLe32, le32_fromLe32]
    rfl
  rw [hbytes, decodeImage_of_words] at hdec
  obtain rfl := frame_of_unpackFrame hdec
  obtain ⟨-, (hlen : p.length = dlcLen (unpackHeader t0 t1).dlc), -⟩ := validFrame_of_unpackFrame hdec
  calc frameImage (unpackHeader t0 t1) p = b0 :: b1 :: b2 :: b3 :: b4 :: b5 :: b6 :: b7 :: p
    _ ↔ packId (unpackHeader t0 t1).kind (unpackHeader t0 t1).id = t0 ∧ packCtl (unpackHeader t0 t1) = t1 := by
      rw [hbytes, frameImage_of_length hlen, words_append_inj]
    _ ↔ (t0.extractLsb' 29 3 = 0#3 ∧ ((unpackHeader t0 t1).kind = .std → t0.extractLsb' 11 18 = 0#18)) ∧
        t1.extractLsb' 9 23 = 0#23 := and_congr packId_unpackId_eq_iff (packCtl_eq_iff (ctlFields_unpackHeader t0 t1))
    _ ↔ _ := by
      rw [show (unpackHeader t0 t1).kind = .std ↔ t1.getLsbD 4 = false from Kind.ofBit_eq_std]
      tauto

/-- Settles O33: an extended frame without RTR, BRS and ESI passes the checks, and for the flags given the length decides. -/
theorem decodeAcceptsExactlyTheTableLength : Obligations.DecodeAcceptsExactlyTheTableLength := by
  refine ⟨fun dlc id fdf hfd => checkFrame_eq_none.2 ⟨.inl rfl, fun _ => rfl,
    fun (hclassic : fdf = false) => ⟨rfl, rfl, ?_⟩⟩,
    fun s t0 t1 b hfits hbytes hsid hcheck => ?_⟩
  · exact Nat.not_lt.1 fun hlong => absurd (hfd hlong) (by rw [hclassic]; decide)
  · have hdata : s.request.data = b := Request.data_of_bytes hbytes
    have hunpack (h : b.take 8 = le32 t0 ++ le32 t1) : decodeImage s.request.data = unpackFrame t0 t1 (b.drop 8) := by
      rw [← decodeImage_of_words, ← h, List.take_append_drop, hdata]
    refine ⟨fun hshort => ?_, fun hwords hne => ?_, fun hwords heq => ?_⟩
    · exact completes_of_exec (exec_frameDecode_error hfits (by rw [hdata, decodeImage_tooShort hshort]))
    · have hne' : (b.drop 8).length ≠ dlcLen (unpackHeader t0 t1).dlc := by
        have htake : (b.take 8).length = 8 := by rw [hwords]; rfl
        rw [List.length_take] at htake
        rw [List.length_drop]
        omega
      exact completes_of_exec
        (exec_frameDecode_error hfits ((hunpack hwords).trans (unpackFrame_of_length_ne hsid hcheck hne')))
    · have heq' : (b.drop 8).length = dlcLen (unpackHeader t0 t1).dlc := by
        rw [List.length_drop, heq, Nat.add_sub_cancel_left]
      exact ⟨_, completes_of_exec
        (exec_frameDecode_ok hfits ((hunpack hwords).trans (unpackFrame_of_length_eq hsid hcheck heq')))⟩

/-- Two valid frames with one image are one frame, because DECODE finds both in it (R196). -/
theorem frameImage_injective {h h' : FrameHeader} {p p' : Bytes} (hcheck : checkFrame h = none)
    (hcheck' : checkFrame h' = none) (hp : p.length = dlcLen h.dlc) (hp' : p'.length = dlcLen h'.dlc)
    (heq : frameImage h p = frameImage h' p') : h = h' ∧ p = p' := by
  have hdec := decodeImage_frameImage hcheck hp
  rw [heq, decodeImage_frameImage hcheck' hp'] at hdec
  cases hdec
  exact ⟨rfl, rfl⟩

/-- The image depends only on the header, PLEN, and the first `min(PLEN, n)` bytes of the payload. -/
theorem frameImage_payload_congr {q q' : Request} (hhdr : q'.fin.hdr = q.fin.hdr) (hplen : q'.fin.plen = q.fin.plen)
    (hread : ∀ j, j < q.fin.plen.toNat → j < dlcLen q.fin.hdr.dlc → q'.fin.payload.read j = q.fin.payload.read j) :
    frameImage q'.fin.hdr q'.payload = frameImage q.fin.hdr q.payload := by
  rw [hhdr, frameImage, frameImage, normalizePayload_congr]
  intro j hj
  rw [Request.payload, Request.payload, hplen]
  by_cases hjp : j < q.fin.plen.toNat
  · rw [Memory.slice_getElem _ _ hjp, Memory.slice_getElem _ _ hjp, Memory.byteAt, Memory.byteAt, hread j hjp hj]
  · rw [List.getElem?_eq_none (by simpa using hjp), List.getElem?_eq_none (by simpa using hjp)]

/-- Settles O34: by `frameImage_injective`, and because PLEN, the frame checks and the image are the same in both states. -/
theorem encodeIsInjective : Obligations.EncodeIsInjective := by
  refine ⟨fun h h' p p' => frameImage_injective, fun s s' t t' hhdr hplen hread ht ht' => ?_⟩
  rcases Nat.lt_or_ge 64 s.request.fin.plen.toNat with hover | hfits
  · rw [exec_frameEncode_over hover] at ht
    rw [exec_frameEncode_over (hplen.symm ▸ hover)] at ht'
    cases ht
    cases ht'
    exact ⟨rfl, rfl⟩
  · cases hcheck : checkFrame s.request.fin.hdr with
    | some r =>
      rw [exec_frameEncode_invalid hfits hcheck] at ht
      rw [exec_frameEncode_invalid (hplen.symm ▸ hfits) (hhdr.symm ▸ hcheck)] at ht'
      cases ht
      cases ht'
      exact ⟨rfl, rfl⟩
    | none =>
      rw [exec_frameEncode_ok hfits hcheck] at ht
      rw [exec_frameEncode_ok (hplen.symm ▸ hfits) (hhdr.symm ▸ hcheck), frameImage_payload_congr hhdr hplen hread] at ht'
      cases ht
      cases ht'
      exact ⟨rfl, rfl⟩

end Sys2Proof.Machine
end

section
/-! PROOFS. The codes of RESULT and REASON (R231, R232), as STATUS shows them after a completion. -/

namespace Sys2Proof.Machine

/-- R29, R31: once an operation has completed, DONE alone is set beside its RESULT and REASON. -/
theorem word_of_completed (c : Completion) :
    Status.word { busy := false, done := true, last := some c } = some (statusWord 0b10#2 c) := by
  simp [Status.word, Status.flags]

/-- Settles O16: by RESULT, and within a RESULT by the REASONs that qualify it. -/
theorem resultAndReasonCodes : Obligations.ResultAndReasonCodes := by
  refine ⟨_, rfl, fun c => ⟨statusWord 0b10#2 c, ?_, word_of_completed c⟩⟩
  cases c with
  | ok => decide
  | error e =>
    cases e with
    | busError r => cases r <;> decide
    | integrityError => decide
    | invalidFrame r => cases r <;> decide
    | contractViolation r => cases r <;> decide
    | lengthMismatch => decide
    | unsupported r => cases r <;> decide

end Sys2Proof.Machine
end

section
/-! PROOFS. The parameters (R262): no step changes them. -/

namespace Sys2Proof.Machine

theorem Effect.params {s t : State} (he : Effect s t) : t.params = s.params := by
  cases he with
  | runs hp hf hm => cases hm <;> rfl
  | writes hw => exact (writeInput_wrote hw).params
  | answers a => rcases takeAnswer_cases a s with e | ⟨-, -, e⟩ <;> rw [e]
  | accepts | rests | requests | reads | resets => rfl

/-- Settles O55: every effect of a step leaves them as they are. -/
theorem parametersNeverChange : Obligations.ParametersNeverChange := by
  intro s t h
  obtain ⟨es, he⟩ := step_effect h
  exact he.params

end Sys2Proof.Machine
end

section
/-! PROOFS. Reset (R260, R261): what it leaves, and that the invariants hold there. -/

namespace Sys2Proof.Machine

open Sys2Proof

/-- Settles O17: the fields of the reset state. -/
theorem resetLeavesIdleAndNoValue : Obligations.ResetLeavesIdleAndNoValue := ⟨rfl, rfl, rfl, rfl, rfl, rfl, rfl, rfl, rfl⟩

theorem step_reset {s : State} {es : List Event} (hi : s.inbox = .reset :: es) :
    step s = .next (resetFcf { s with inbox := es }) := step_of_event hi (by simp)

/-- Settles O18: the step is `resetFcf`, which looks at neither PHASE nor the Exchange. -/
theorem resetAbandonsTheOperation : Obligations.ResetAbandonsTheOperation := fun _ _ hi =>
  ⟨_, step_reset hi, rfl, rfl, rfl, rfl, rfl, rfl, rfl, rfl⟩

/-- At reset nothing is latched, and no Exchange has been made. -/
theorem reset_emits : EmitsOnlyItsCommands State.reset where
  command _ _ hp := by cases hp
  outstanding _ _ _ hp := by cases hp
  sent _ htx := by cases htx

/-- Settles O60: each invariant by what a reset leaves: Idle, empty buffers, nothing sent and no output with a value. -/
theorem resetMeetsTheInvariants : Obligations.ResetMeetsTheInvariants :=
  ⟨.of_idle rfl rfl rfl rfl, BuffersCanonical.after_reset (s := State.reset), reset_emits,
    .of_noValue rfl fun _ _ hlast => (by cases hlast), by decide⟩

end Sys2Proof.Machine
end

section
/-! PROOFS. While FCF is Busy (R29, R264, R269, R270): a pending REQ is held, and an unanswered Exchange goes on. -/

namespace Sys2Proof.Machine

open Sys2Proof

/-- A step is a move of FCF or the delivery of an event, from `s` with the rest of the queue. -/
theorem step_moves_or_delivers {s t : State} (h : step s = .next t) :
    (∃ es, fcfMove { s with inbox := es } = .next t) ∨
    (∃ e es, s.inbox = e :: es ∧ deliver e { s with inbox := es } = .next t) := by
  rcases step_cases h with ⟨-, h⟩ | ⟨es, -, h⟩ | ⟨e, es, hi, -, h⟩
  · exact .inl ⟨s.inbox, h⟩
  · exact .inl ⟨es, h⟩
  · exact .inr ⟨e, es, hi, h⟩

/-- A Busy FCF moves by carrying out the instruction it fetches. -/
theorem fcfMove_busy {s t : State} {q : Request} {st : Stage} (hp : s.phase = .busy q st) (h : fcfMove s = .next t) :
    ∃ i, fetch q st = .ok i ∧ exec i s = .next t := by
  rcases fcfMove_cases h with ⟨hidle, -⟩ | ⟨hidle, -⟩ | ⟨q', st', i, hp', hf, hx⟩
  · cases hp.symm.trans hidle
  · cases hp.symm.trans hidle
  · cases hp.symm.trans hp'
    exact ⟨i, hf, hx⟩

/-! ## A pending REQ (R29, R264) -/

/-- An instruction does not look at REQ. -/
theorem Move.req {i : Instr} {s t : State} (hm : Move i s t) : t.req = s.req := by
  cases hm <;> rfl

/-- An instruction ends the operation, or it goes on with the same latched request. -/
theorem Move.idle_or_latched {i : Instr} {s t : State} {q : Request} {st : Stage} (hm : Move i s t)
    (hp : s.phase = .busy q st) : t.phase = .idle ∨ ∃ st', t.phase = .busy q st' := by
  cases hm with
  | ends => exact .inl rfl
  | issues c => exact .inr ⟨_, by rw [issue_phase, request_of_busy hp]⟩
  | emits | waits => exact .inr ⟨st, hp⟩

/-- No event but a reset withdraws a pending REQ. -/
theorem deliver_req {e : Event} {s t : State} (he : e ≠ .reset) (hr : s.req = true) (h : deliver e s = .next t) :
    t.req = true := by
  cases e with
  | reset => exact absurd rfl he
  | write w => exact (writeInput_wrote h).req.trans hr
  | answer a =>
    cases h
    rcases takeAnswer_cases a s with e | ⟨-, -, e⟩ <;> rw [e] <;> exact hr
  | req => cases h; rfl
  | fcf | read | writeOutput => cases h; exact hr

/-- Settles O9: a REQ sets its one bit, which only an acceptance, from Idle, and a reset clear. -/
theorem requestBecomesPendingAndIsHeldWhileBusy : Obligations.RequestBecomesPendingAndIsHeldWhileBusy := by
  refine ⟨fun s es hi => step_of_event hi (by simp), fun s t q st hp hr hreset h => ?_⟩
  rcases step_moves_or_delivers h with ⟨es, h⟩ | ⟨e, es, hi, h⟩
  · obtain ⟨i, -, hx⟩ := fcfMove_busy (s := { s with inbox := es }) hp h
    exact ⟨(exec_cases hx).req.trans hr, (exec_cases hx).idle_or_latched hp⟩
  · have he : e ≠ .reset := fun he => hreset es (he ▸ hi)
    exact ⟨deliver_req (s := { s with inbox := es }) he hr h, .inr ⟨st, (deliver_phase he h).trans hp⟩⟩

/-! ## An Exchange without an answer (R269, R270) -/

/-- A wire command waits for its answer. -/
theorem exec_waits {s : State} {h : Half} {i : Instr} {tx : Bytes} (hd : decodeHeader h = .ok i)
    (ho : s.link.outstanding = some tx) (hr : s.link.reply = none) : exec i s = .next s := by
  unfold decodeHeader at hd
  split_ifs at hd <;> cases hd <;> exact exchange_waits ho hr

/-- The operation of FCF stands in `t` as in `s`. -/
structure SameOperation (s t : State) : Prop where
  phase : t.phase = s.phase
  status : t.status = s.status
  out : t.out = s.out
  link : t.link = s.link

/-- The events that are neither an answer nor a reset do not touch the operation. -/
theorem deliver_sameOperation {e : Event} {s t : State} (hanswer : ∀ a, e ≠ .answer a) (hreset : e ≠ .reset)
    (h : deliver e s = .next t) : SameOperation s t := by
  cases e with
  | answer a => exact absurd rfl (hanswer a)
  | reset => exact absurd rfl hreset
  | write w =>
    have hw := writeInput_wrote h
    exact ⟨hw.phase, hw.status, hw.out, hw.link⟩
  | fcf | req | read | writeOutput => cases h; exact ⟨rfl, rfl, rfl, rfl⟩

/-- Settles O51: FCF's own move waits, and no other event touches the operation. -/
theorem onlyAnAnswerOrResetEndsTheWait : Obligations.OnlyAnAnswerOrResetEndsTheWait := by
  intro s t q h tx hp ho hr hanswer hreset hstep
  rcases step_moves_or_delivers hstep with ⟨es, hmove⟩ | ⟨e, es, hi, hdel⟩
  · obtain ⟨i, hf, hx⟩ := fcfMove_busy (s := { s with inbox := es }) hp hmove
    cases (exec_waits (s := { s with inbox := es }) (fetch_command.1 hf) ho hr).symm.trans hx
    exact ⟨rfl, rfl, rfl, rfl⟩
  · obtain ⟨hphase, hstatus, hout, hlink⟩ :=
      deliver_sameOperation (fun a he => hanswer a es (he ▸ hi)) (fun he => hreset es (he ▸ hi)) hdel
    exact ⟨hphase, hstatus, hout, hlink⟩

end Sys2Proof.Machine
end

section
/-! PROOFS. A request that reads an input never written (R263, R95; log entries 5 and 7). -/

namespace Sys2Proof.Machine

open Sys2Proof

/-- The host has written every input that instruction `i` reads: OP and its registers, the bytes of DIN below DIN_LEN and of
FIN.PAYLOAD below PLEN, where no length above the capacity ends the operation first. -/
structure InputsWritten (i : Instr) (s : State) : Prop where
  registers : ∀ r, (r = .op ∨ r ∈ registersRead i) → r ∈ s.written
  din : readsDin i = true → s.dinLen.toNat ≤ s.params.bufBytes → ∀ j, j < s.dinLen.toNat → s.din.read j ≠ none
  payload : readsPayload i = true → s.fin.plen.toNat ≤ Config.maxPayload → ∀ j, j < s.fin.plen.toNat →
    s.fin.payload.read j ≠ none

/-- The check of a buffer finds nothing missing exactly when, where the slice is read, each of its bytes has been written. -/
theorem sliceMissing_eq_false {reads : Bool} {cap n : Nat} {m : Memory} :
    (reads && decide (n ≤ cap) && (m.bytes n).isNone) = false ↔
      (reads = true → n ≤ cap → ∀ j, j < n → m.read j ≠ none) := by
  have hbytes : (m.bytes n).isNone = false ↔ ∀ j, j < n → m.read j ≠ none := by
    rw [Option.isNone_eq_false_iff, Memory.bytes_isSome]
    simp only [Option.isSome_iff_ne_none]
  simp only [← hbytes, Bool.and_eq_false_imp, Bool.and_eq_true, decide_eq_true_eq, and_imp]

theorem registersWritten_iff {i : Instr} {s : State} :
    (InputReg.op :: registersRead i).find? (fun r => !s.written.contains r) = none ↔
      ∀ r, (r = .op ∨ r ∈ registersRead i) → r ∈ s.written := by
  simp [List.find?_eq_none]

/-- `missingInput` looks at the registers, then at DIN, then at FIN.PAYLOAD. -/
theorem missingInput_eq_none {i : Instr} {s : State} : missingInput i s = none ↔ InputsWritten i s := by
  unfold missingInput
  split
  · rename_i r hr
    exact iff_of_false nofun fun hw => nomatch hr.symm.trans (registersWritten_iff.2 hw.registers)
  · rename_i hregs
    split_ifs with hdin hpayload
    · exact iff_of_false nofun fun hw => nomatch hdin.symm.trans (sliceMissing_eq_false.2 hw.din)
    · exact iff_of_false nofun fun hw => nomatch hpayload.symm.trans (sliceMissing_eq_false.2 hw.payload)
    · exact iff_of_true rfl ⟨registersWritten_iff.1 hregs, sliceMissing_eq_false.1 (Bool.eq_false_iff.2 hdin),
        sliceMissing_eq_false.1 (Bool.eq_false_iff.2 hpayload)⟩

/-- The run is final after an acceptance exactly when it was and the host has written every input the operation reads. -/
theorem accept_runFinal_eq_true {s : State} :
    (accept s).runFinal = true ↔ s.runFinal = true ∧ InputsWritten (decodeOp s.op) s := by
  rw [accept_runFinal, Bool.and_eq_true, Option.isNone_iff_eq_none, missingInput_eq_none]

theorem accept_runFinal_eq_false {s : State} (h : ¬InputsWritten (decodeOp s.op) s) : (accept s).runFinal = false :=
  Bool.eq_false_iff.2 fun hf => h (accept_runFinal_eq_true.1 hf).2

theorem accept_runFinal_of_written {s : State} (h : InputsWritten (decodeOp s.op) s) :
    (accept s).runFinal = s.runFinal := Bool.eq_iff_iff.2 (accept_runFinal_eq_true.trans (and_iff_left h))

/-- Idle at its turn, FCF accepts the pending REQ. -/
theorem step_accepts {s : State} {es : List Event} (hturn : FcfTurn s es) (hp : s.phase = .idle) (hr : s.req = true) :
    step s = .next (accept { s with inbox := es }) :=
  (step_of_fcfTurn hturn).trans (fcfMove_of_request hp hr)

/-- Settles O8: each kind of input not written makes `InputsWritten` false, and with it the run not final. -/
theorem unwrittenInputMakesTheRunNotFinal : Obligations.UnwrittenInputMakesTheRunNotFinal := by
  intro s hp hturn hreq
  obtain ⟨es, hes⟩ : ∃ es, FcfTurn s es :=
    hturn.elim (fun hi => ⟨[], .inl ⟨hi, rfl⟩⟩) fun ⟨es, hi⟩ => ⟨es, .inr hi⟩
  have hlost := accept_runFinal_eq_false (s := { s with inbox := es })
  refine ⟨_, _, step_accepts hes hp hreq, rfl, rfl, fun r hread hr => ?_, fun j hread hcap hj hnone => ?_,
    fun j hread hcap hj hnone => ?_, fun hregisters hdin hpayload => ?_⟩
  · exact hlost fun hw => hr (hw.registers r hread)
  · exact hlost fun hw => hw.din hread hcap j hj hnone
  · exact hlost fun hw => hw.payload hread hcap j hj hnone
  · exact accept_runFinal_of_written ⟨hregisters, hdin, hpayload⟩

end Sys2Proof.Machine
end
